-- ==== Sys2Proof/Word.lean ====
section
/-! DEFINITION. The word types of the BFHLL core and the plainest arithmetic on them (R6, R7). -/

namespace Sys2Proof

/-- A storage unit of the bit vector and a unit of the item stream (R50, R51). -/
abbrev Byte := BitVec 8

/-- One unit of the command port, and the width `W` of a hash value (R5, R70). -/
abbrev Beat := BitVec 64

/-- One HyperLogLog register: `REG_W` = 6 bits (R5, R26). -/
abbrev RegVal := BitVec 6

/-- `ceil(a / b)` on natural numbers with `b > 0` (R7, R8). -/
def ceilDiv (a b : Nat) : Nat := (a + b - 1) / b

end Sys2Proof
end

