-- ==== Sys2Proof/Config.lean ====
section
/-! DEFINITION. The implementation parameters of R5 that are numbers or bytes, and the precision at which a logarithm
is enclosed first. The three hash functions of R5 are a `HashUnit` (Machine/Hash.lean). -/

namespace Sys2Proof.Config

/-- `W`: width in bits of each hash value. -/
def hashWidth : Nat := 64

/-- `M_MAX`: largest legal Bloom `m`. -/
def mMax : Nat := 2 ^ 32

/-- `K_MAX`: largest legal Bloom `k`. -/
def kMax : Nat := 255

/-- `B_MIN`: smallest legal precision. -/
def bMin : Nat := 4

/-- `B_MAX`: largest legal precision. -/
def bMax : Nat := 16

/-- `B_DEFAULT`: the precision `HLL.INIT` takes when its argument is 0. -/
def bDefault : Nat := 14

/-- `RANK_MAX(b) = W - b`. -/
def rankMax (b : Nat) : Nat := hashWidth - b

/-- `WS_SET`: TAB, LF, VT, FF, CR, SPACE. -/
def wsSet : List Byte := [0x09, 0x0A, 0x0B, 0x0C, 0x0D, 0x20]

/-- `LEN_MAX`: largest item length in bytes. -/
def lenMax : Nat := 2 ^ 32 - 1

/-- Number of control and status registers (R29). -/
def csrCount : Nat := 5

/-- Fraction bits of the first enclosure of a logarithm. DESIGN CHOICE (log 7): no result depends on it. -/
def basePrecision : Nat := 128

/-- How often the enclosure is made again with twice the bits by plain recursion on a count, before the search without a
last precision takes over (log 8). DESIGN CHOICE (log 7): no result depends on it. -/
def doublings : Nat := 4

end Sys2Proof.Config
end

