-- ==== Sys2Proof/Syntax.lean ====
section
/-! DEFINITION. The commands of the BFHLL core: one constructor per row of spec/opcode_table.json (R76), with the
operands of R74 and R75. -/

namespace Sys2Proof

/-- An entry of the uniqueness sequence: a null-like entry (the `NULL` flag) or the bytes of an item (R75, R123). -/
inductive Entry where
  | null
  | item (bytes : List Byte)
deriving DecidableEq, Repr

/-- The seventeen commands (R76). -/
inductive Instr where
  /-- `NOP` (R100). -/
  | nop
  /-- `SYS.RST` (R101). -/
  | sysRst
  /-- `CSR.RD n` (R102). -/
  | csrRd (n : BitVec 16)
  /-- `BF.INIT m, k` (R115): `ARG` = k, `OP0` = m. -/
  | bfInit (k : BitVec 16) (m : Beat)
  /-- `BF.INITNP n, P` (R117): p = P / 2^64. -/
  | bfInitNp (n p : Beat)
  /-- `BF.ADDH h1, h2` (R118). -/
  | bfAddH (h1 h2 : Beat)
  /-- `BF.TESTH h1, h2` (R119). -/
  | bfTestH (h1 h2 : Beat)
  /-- `BF.UNIQH h1, h2` (R120). -/
  | bfUniqH (h1 h2 : Beat)
  /-- `BF.ADD item` (R121). -/
  | bfAdd (item : List Byte)
  /-- `BF.TEST item` (R122). -/
  | bfTest (item : List Byte)
  /-- `BF.UNIQ item` and `BF.UNIQ null` (R123). -/
  | bfUniq (entry : Entry)
  /-- `BF.RD A` (R126). -/
  | bfRd (a : Beat)
  /-- `HLL.INIT b` (R145); 0 selects the default precision. -/
  | hllInit (b : BitVec 16)
  /-- `HLL.ADDH x` (R146). -/
  | hllAddH (x : Beat)
  /-- `HLL.ADD item` (R147). -/
  | hllAdd (item : List Byte)
  /-- `HLL.EST` (R148). -/
  | hllEst
  /-- `HLL.RDR j` (R149). -/
  | hllRdr (j : BitVec 16)
deriving DecidableEq, Repr

/-- Why a complete command is no legal form of any command (R78, R79). -/
inductive Reject where
  /-- `OPC` is not in the opcode map (R79). -/
  | illegalOpcode
  /-- `OPC` is known, a reserved header field is nonzero, or `NULL = 1` with `LEN != 0` (R78). -/
  | illegalField
deriving DecidableEq, Repr

/-- The five command formats (R72). -/
inductive Format where
  | Z | A | P1 | P2 | I
deriving DecidableEq, Repr

/-- The name of a row of the opcode map (R76), without its operands. -/
inductive Op where
  | nop | sysRst | csrRd
  | bfInit | bfInitNp | bfAddH | bfTestH | bfUniqH | bfAdd | bfTest | bfUniq | bfRd
  | hllInit | hllAddH | hllAdd | hllEst | hllRdr
deriving DecidableEq, Repr

end Sys2Proof
end

