-- ==== Sys2Proof/WellFormed.lean ====
section
/-! DEFINITION. Which terms of `Instr` are commands a host can send: an item has at most `LEN_MAX` bytes (R5, R75).
Every other operand is held at its own width, so no further check exists. -/

namespace Sys2Proof

/-- The length of the item fits the `LEN` field. -/
def wellFormedItem (item : List Byte) : Bool := decide (item.length ≤ Config.lenMax)

/-- Well-formedness of an entry of the uniqueness sequence. -/
def Entry.wellFormed : Entry → Bool
  | .null => true
  | .item bytes => wellFormedItem bytes

/-- Well-formedness of a command. -/
def Instr.wellFormed : Instr → Bool
  | .nop => true
  | .sysRst => true
  | .csrRd _ => true
  | .bfInit _ _ => true
  | .bfInitNp _ _ => true
  | .bfAddH _ _ => true
  | .bfTestH _ _ => true
  | .bfUniqH _ _ => true
  | .bfAdd item => wellFormedItem item
  | .bfTest item => wellFormedItem item
  | .bfUniq entry => entry.wellFormed
  | .bfRd _ => true
  | .hllInit _ => true
  | .hllAddH _ => true
  | .hllAdd item => wellFormedItem item
  | .hllEst => true
  | .hllRdr _ => true

end Sys2Proof
end

