-- ==== Sys2Proof/Decode.lean ====
section
/-! DEFINITION. Command decoding and encoding (spec/30_encoding.md R71 to R85, spec/20_memory.md R56): header fields,
the opcode map, the number of payload beats, the decoder (total, rejecting by name) and after it the encoder. -/

namespace Sys2Proof

/-! ## Header fields (R71) -/

/-- `OPC`, header bits [7:0]. -/
def opcOf (h : Beat) : BitVec 8 := h.extractLsb' 0 8

/-- `FLG`, header bits [15:8]. -/
def flgOf (h : Beat) : BitVec 8 := h.extractLsb' 8 8

/-- `ARG`, header bits [31:16]. -/
def argOf (h : Beat) : BitVec 16 := h.extractLsb' 16 16

/-- `LEN`, header bits [63:32]. -/
def lenOf (h : Beat) : BitVec 32 := h.extractLsb' 32 32

/-- `NULL`, header bit 8 (`FLG[0]`). -/
def nullOf (h : Beat) : Bool := h.getLsbD 8

/-! ## The opcode map (R76) -/

/-- A row of the opcode map: the header is a legal form of the command when `header & mask == pattern`. -/
structure OpRow where
  op : Op
  opc : BitVec 8
  fmt : Format
  mask : Beat
  pattern : Beat
deriving DecidableEq, Repr

/-- The system group `0x0_`. -/
def systemRows : List OpRow :=
  [ ⟨.nop, 0x00, .Z, 0xFFFFFFFFFFFFFFFF, 0x0000000000000000⟩,
    ⟨.sysRst, 0x01, .Z, 0xFFFFFFFFFFFFFFFF, 0x0000000000000001⟩,
    ⟨.csrRd, 0x02, .A, 0xFFFFFFFF0000FFFF, 0x0000000000000002⟩ ]

/-- The Bloom group `0x1_`. -/
def bloomRows : List OpRow :=
  [ ⟨.bfInit, 0x10, .P1, 0xFFFFFFFF0000FFFF, 0x0000000000000010⟩,
    ⟨.bfInitNp, 0x11, .P2, 0xFFFFFFFFFFFFFFFF, 0x0000000000000011⟩,
    ⟨.bfAddH, 0x12, .P2, 0xFFFFFFFFFFFFFFFF, 0x0000000000000012⟩,
    ⟨.bfTestH, 0x13, .P2, 0xFFFFFFFFFFFFFFFF, 0x0000000000000013⟩,
    ⟨.bfUniqH, 0x14, .P2, 0xFFFFFFFFFFFFFFFF, 0x0000000000000014⟩,
    ⟨.bfAdd, 0x15, .I, 0x00000000FFFFFFFF, 0x0000000000000015⟩,
    ⟨.bfTest, 0x16, .I, 0x00000000FFFFFFFF, 0x0000000000000016⟩,
    ⟨.bfUniq, 0x17, .I, 0x00000000FFFFFEFF, 0x0000000000000017⟩,
    ⟨.bfRd, 0x18, .P1, 0xFFFFFFFFFFFFFFFF, 0x0000000000000018⟩ ]

/-- The HyperLogLog group `0x2_`. -/
def hllRows : List OpRow :=
  [ ⟨.hllInit, 0x20, .A, 0xFFFFFFFF0000FFFF, 0x0000000000000020⟩,
    ⟨.hllAddH, 0x21, .P1, 0xFFFFFFFFFFFFFFFF, 0x0000000000000021⟩,
    ⟨.hllAdd, 0x22, .I, 0x00000000FFFFFFFF, 0x0000000000000022⟩,
    ⟨.hllEst, 0x23, .Z, 0xFFFFFFFFFFFFFFFF, 0x0000000000000023⟩,
    ⟨.hllRdr, 0x24, .A, 0xFFFFFFFF0000FFFF, 0x0000000000000024⟩ ]

/-- The opcode map. -/
def opcodeMap : List OpRow := systemRows ++ bloomRows ++ hllRows

/-- The row an opcode selects; `OPC` alone selects the command (R76). -/
def rowOf (opc : BitVec 8) : Option OpRow := opcodeMap.find? (fun r => r.opc == opc)

/-- Number of payload beats of a format, given `LEN` (R73). -/
def beatsOfFormat (len : Nat) : Format → Nat
  | .Z => 0
  | .A => 0
  | .P1 => 1
  | .P2 => 2
  | .I => (len + 7) / 8

/-- `PayloadBeats(header)`: depends on `OPC` and `LEN` only; 0 for an unknown opcode (R73). -/
def payloadBeats (h : Beat) : Nat :=
  match rowOf (opcOf h) with
  | none => 0
  | some row => beatsOfFormat (lenOf h).toNat row.fmt

/-- The header is a legal form of the row's command: mask and match, and for `BF.UNIQ` that `NULL = 1` requires
`LEN = 0` (R76, R78). -/
def legalHeader (row : OpRow) (h : Beat) : Bool :=
  (h &&& row.mask) == row.pattern &&
    !(row.op == .bfUniq && nullOf h && lenOf h != 0)

/-! ## Operand and item assembly (R56, R74, R75) -/

/-- `OPi`: payload beat `i`, the whole beat (R74). -/
def operand (payload : List Beat) (i : Nat) : Beat := payload.getD i 0

/-- `item[t]` is bits `[8*(t mod 8)+7 : 8*(t mod 8)]` of payload beat `t div 8` (R56). -/
def itemByte (payload : List Beat) (t : Nat) : Byte :=
  (operand payload (t / 8)).extractLsb' (8 * (t % 8)) 8

/-- The item of length `len` carried by the payload (R75). -/
def itemOf (len : Nat) (payload : List Beat) : List Byte :=
  (List.range len).map (itemByte payload)

/-- The entry of a `BF.UNIQ` command (R75). -/
def entryOf (h : Beat) (payload : List Beat) : Entry :=
  if nullOf h then .null else .item (itemOf (lenOf h).toNat payload)

/-- The command of a row, with its operands taken from header and payload (R74, R75). -/
def assemble (op : Op) (h : Beat) (payload : List Beat) : Instr :=
  match op with
  | .nop => .nop
  | .sysRst => .sysRst
  | .csrRd => .csrRd (argOf h)
  | .bfInit => .bfInit (argOf h) (operand payload 0)
  | .bfInitNp => .bfInitNp (operand payload 0) (operand payload 1)
  | .bfAddH => .bfAddH (operand payload 0) (operand payload 1)
  | .bfTestH => .bfTestH (operand payload 0) (operand payload 1)
  | .bfUniqH => .bfUniqH (operand payload 0) (operand payload 1)
  | .bfAdd => .bfAdd (itemOf (lenOf h).toNat payload)
  | .bfTest => .bfTest (itemOf (lenOf h).toNat payload)
  | .bfUniq => .bfUniq (entryOf h payload)
  | .bfRd => .bfRd (operand payload 0)
  | .hllInit => .hllInit (argOf h)
  | .hllAddH => .hllAddH (operand payload 0)
  | .hllAdd => .hllAdd (itemOf (lenOf h).toNat payload)
  | .hllEst => .hllEst
  | .hllRdr => .hllRdr (argOf h)

/-! ## The decoder -/

/-- Classification of a complete command (R84, R182 checks 1 and 2). -/
def decode (h : Beat) (payload : List Beat) : Except Reject Instr :=
  match rowOf (opcOf h) with
  | none => .error .illegalOpcode
  | some row => if legalHeader row h then .ok (assemble row.op h payload) else .error .illegalField

/-- The first command of a list of beats and the beats after it; `none` while the list holds no complete command
(R81, R84, R85). -/
def decodeBeats (beats : List Beat) : Option (Except Reject Instr × List Beat) :=
  match beats with
  | [] => none
  | h :: rest =>
    if payloadBeats h ≤ rest.length then
      some (decode h (rest.take (payloadBeats h)), rest.drop (payloadBeats h))
    else none

/-! ## The encoder -/

/-- A header beat from its four fields (R71). -/
def header (opc flg : BitVec 8) (arg : BitVec 16) (len : BitVec 32) : Beat := len ++ arg ++ flg ++ opc

/-- The value of a byte sequence whose first byte is least significant (R56). -/
def bytesValue : List Byte → Nat
  | [] => 0
  | b :: rest => b.toNat + 256 * bytesValue rest

/-- `n` payload beats that carry the bytes, eight a beat; unused lanes of the last beat are written 0 (R56). -/
def packBeats : Nat → List Byte → List Beat
  | 0, _ => []
  | n + 1, bytes => BitVec.ofNat 64 (bytesValue (bytes.take 8)) :: packBeats n (bytes.drop 8)

/-- The beats of an item command: header with `LEN`, then `ceil(LEN/8)` payload beats (R72, R73). -/
def itemCommand (opc : BitVec 8) (item : List Byte) : List Beat :=
  header opc 0 0 (BitVec.ofNat 32 item.length) :: packBeats ((item.length + 7) / 8) item

/-- The beats of a command (R72, R74, R76). -/
def encode : Instr → List Beat
  | .nop => [header 0x00 0 0 0]
  | .sysRst => [header 0x01 0 0 0]
  | .csrRd n => [header 0x02 0 n 0]
  | .bfInit k m => [header 0x10 0 k 0, m]
  | .bfInitNp n p => [header 0x11 0 0 0, n, p]
  | .bfAddH h1 h2 => [header 0x12 0 0 0, h1, h2]
  | .bfTestH h1 h2 => [header 0x13 0 0 0, h1, h2]
  | .bfUniqH h1 h2 => [header 0x14 0 0 0, h1, h2]
  | .bfAdd item => itemCommand 0x15 item
  | .bfTest item => itemCommand 0x16 item
  | .bfUniq .null => [header 0x17 1 0 0]
  | .bfUniq (.item bytes) => itemCommand 0x17 bytes
  | .bfRd a => [header 0x18 0 0 0, a]
  | .hllInit b => [header 0x20 0 b 0]
  | .hllAddH x => [header 0x21 0 0 0, x]
  | .hllAdd item => itemCommand 0x22 item
  | .hllEst => [header 0x23 0 0 0]
  | .hllRdr j => [header 0x24 0 j 0]

/-! ## Commands numbered as the opcode table numbers their bits -/

/-- Beat `i` of the bits `w` of a command, of which only the low `nbits` are given. -/
def tableBeat (nbits w i : Nat) : Beat := BitVec.ofNat 64 ((w % 2 ^ nbits) >>> (64 * i))

/-- The payload beats of the command whose bits are `w`: as many as its header calls for. -/
def tablePayload (nbits w : Nat) : List Beat :=
  (List.range (payloadBeats (tableBeat nbits w 0))).map (fun i => tableBeat nbits w (i + 1))

/-- The command the decoder reads from the bits `w` of a command, bit 0 the least significant bit of the header. -/
def decodeTableWord (nbits w : Nat) : Option Instr :=
  match decode (tableBeat nbits w 0) (tablePayload nbits w) with
  | .ok i => some i
  | .error _ => none

end Sys2Proof
end

