-- ==== Sys2Proof/Machine/Hash.lean ====
section
/-! DEFINITION. The hash unit and the validity scan (spec/43_hash_unit.md). The three hash functions are parameters of
the block with a default (R5, R170, R172): the meanings of the item commands exist for every hash unit, and so do a
command, a step and the machine (`execWith`, `stepWith`, `coreWith`); `exec`, `step` and `core`, whose types the host
fixes, are those of the default unit (log 6). -/

namespace Sys2Proof.Machine

/-- The parameters `HASH1`, `HASH2`, `HASHX` of a block (R5, R170): functions of the item bytes alone. -/
structure HashUnit where
  hash1 : List Byte → Beat
  hash2 : List Byte → Beat
  hashX : List Byte → Beat

/-- One byte of the multiply-xor pass of `RH64` (R171). -/
def rh64Byte (h : Beat) (b : Byte) : Beat := (h ^^^ b.setWidth 64) * 0x00000100000001B3

/-- The final mix of `RH64` (R171). -/
def rh64Mix (h : Beat) : Beat :=
  let h1 := (h ^^^ (h >>> 33)) * 0xFF51AFD7ED558CCD
  let h2 := (h1 ^^^ (h1 >>> 33)) * 0xC4CEB9FE1A85EC53
  h2 ^^^ (h2 >>> 33)

/-- The reference hash `RH64(seed, item)` (R171). -/
def rh64 (seed : Byte) (item : List Byte) : Beat :=
  rh64Mix (item.foldl rh64Byte (rh64Byte 0xCBF29CE484222325 seed))

/-- The default assignment of the three functions (R172). -/
def defaultHash : HashUnit where
  hash1 := rh64 0x01
  hash2 := rh64 0x02
  hashX := rh64 0x03

/-- `Valid(item)`: not empty, and some byte outside `WS_SET` (R173). -/
def validItem (item : List Byte) : Bool :=
  !item.isEmpty && item.any (fun b => !Config.wsSet.contains b)

end Sys2Proof.Machine
end

