-- ==== Sys2Proof/Machine/State.lean ====
section
/-! DEFINITION. The state of the BFHLL core (spec/10_state.md): plain data, every element the spec gives the block, and
beside it two fields of the model's own for the two sides of the interface (assumption log 2). -/

namespace Sys2Proof.Machine

/-- Sparse storage in canonical form: cells at strictly rising addresses, none equal to 0, which is what an unlisted
address reads as (log 5). -/
abbrev Memory (w : Nat) : Type := List (Nat × BitVec w)

/-- The canonical form of a storage space. -/
abbrev Memory.wf {w : Nat} (mem : Memory w) : Prop :=
  mem.Pairwise (fun c d => c.1 < d.1) ∧ ∀ c ∈ mem, c.2 ≠ 0

/-- The failures a command can end in (R180). -/
inductive Failure where
  | illegalOpcode
  | illegalField
  | notConfigured
  | badParam
  | badAddr
  | estDomain
deriving DecidableEq, Repr

/-- A response record: `STATUS` in bits [7:0], `RESULT` in bits [71:8] (R77). -/
structure Response where
  status : BitVec 8
  result : BitVec 64
deriving DecidableEq, Repr

/-- A command of which the header and the first payload beats have arrived (R30, R84). -/
structure Pending where
  header : Beat
  payload : List Beat
deriving DecidableEq, Repr

/-- What the host does at the block's inputs (R70, R200, R206). -/
inductive HostEvent where
  /-- A beat is transferred on the command port. -/
  | beat (b : Beat)
  /-- The reset input is asserted and released between two beats. -/
  | reset
  /-- A beat is transferred and the reset input is asserted before the block has answered it: a command that the
  beat completes is abandoned without a response (R200, log 10). -/
  | beatCutByReset (b : Beat)
deriving DecidableEq, Repr

/-- The state of the machine. -/
structure State where
  /-- `bf_valid`: a filter has been constructed since the last reset (R22). -/
  bfValid : Bool
  /-- `bf_m`: bits of the filter (R22). -/
  bfM : BitVec 33
  /-- `bf_k`: indices per item (R22). -/
  bfK : BitVec 8
  /-- `bv`: the bit vector, stored in bytes (R23, R51). -/
  bv : List Host.Cell
  /-- `hll_valid`: an estimator has been constructed since the last reset (R25). -/
  hllValid : Bool
  /-- `hll_b`: precision (R25). -/
  hllB : BitVec 5
  /-- `reg`: the register array (R26). -/
  reg : List (Nat × BitVec 6)
  /-- `err`: sticky, a command has failed since the last reset (R28). -/
  err : Bool
  /-- `ecode`: status code of the most recent failed command (R28). -/
  ecode : BitVec 8
  /-- The command assembly buffer; `none` is the idle decoder (R30, R84). -/
  buffer : Option Pending
  /-- MODEL'S OWN (log 2): host events the block has not taken yet, oldest first. -/
  port : List HostEvent
  /-- MODEL'S OWN (log 2): the responses sent so far, oldest first. -/
  responses : List Response
deriving DecidableEq, Repr

/-- The machine right after reset (R34). Storage contents are unspecified there; the model takes all zero (DESIGN
CHOICE, log 4). No host event has arrived and no response has been sent (DESIGN CHOICE, log 2). -/
def State.reset : State where
  bfValid := false
  bfM := 0
  bfK := 0
  bv := []
  hllValid := false
  hllB := 0
  reg := []
  err := false
  ecode := 0
  buffer := none
  port := []
  responses := []

/-- Reasons for the machine to stop with a fault: there are none. A failure never stops the block (R181), so no
meaning and no step raises one (log 15; safe: the block goes on in every case). -/
inductive Fault : Type
deriving DecidableEq, Repr

/-- Reasons to refuse an instruction. -/
inductive Refusal where
  /-- Raised by the dispatch arm of an instruction that has no meaning yet; safe (the model stops where the hardware
  goes on). No arm raises it in this model. -/
  | notModelled (mnemonic : String)
deriving DecidableEq, Repr

end Sys2Proof.Machine
end

