-- ==== Sys2Proof/Machine/Flags.lean ====
section
/-! DEFINITION. Status codes (R180), the control and status registers (R29) and the results of construction (R77):
everything the block computes from its flags and configuration. -/

namespace Sys2Proof.Machine

/-- `code(Name)` (R180). -/
def failureCode : Failure → BitVec 8
  | .illegalOpcode => 0x01
  | .illegalField => 0x02
  | .notConfigured => 0x03
  | .badParam => 0x04
  | .badAddr => 0x05
  | .estDomain => 0x06

/-- The failure a rejected header stands for (R78, R79). -/
def rejectFailure : Reject → Failure
  | .illegalOpcode => .illegalOpcode
  | .illegalField => .illegalField

/-- A response record as its 72 bits (R77). -/
def responseBits (r : Response) : BitVec 72 := r.result ++ r.status

/-- `hll_m = 1 << hll_b` (R25). -/
def hllM (s : State) : Nat := 2 ^ s.hllB.toNat

/-- CSR 0, `STATUS`: `BF_VALID` [0], `HLL_VALID` [1], `ERR` [2], `ECODE` [15:8] (R29). -/
def csrStatus (s : State) : BitVec 64 :=
  BitVec.setWidth 64
    (s.ecode ++ (0 : BitVec 5) ++ BitVec.ofBool s.err ++ BitVec.ofBool s.hllValid ++ BitVec.ofBool s.bfValid)

/-- CSR 1, `BF_M` (R29). -/
def csrBfM (s : State) : BitVec 64 := if s.bfValid then s.bfM.setWidth 64 else 0

/-- CSR 2, `BF_K` (R29). -/
def csrBfK (s : State) : BitVec 64 := if s.bfValid then s.bfK.setWidth 64 else 0

/-- CSR 3, `HLL_B` (R29). -/
def csrHllB (s : State) : BitVec 64 := if s.hllValid then s.hllB.setWidth 64 else 0

/-- CSR 4, `HLL_M` (R29). -/
def csrHllM (s : State) : BitVec 64 := if s.hllValid then BitVec.ofNat 64 (hllM s) else 0

/-- `csr(n)` for the numbers that exist (R29, R55). -/
def csr (n : Nat) (s : State) : BitVec 64 :=
  match n with
  | 0 => csrStatus s
  | 1 => csrBfM s
  | 2 => csrBfK s
  | 3 => csrHllB s
  | 4 => csrHllM s
  | _ => 0

/-- The result of a construction of a filter: `{k[7:0], zext_23(0), m[32:0]}` (R77, R115). -/
def constructionResult (m : BitVec 33) (k : BitVec 8) : BitVec 64 := k ++ (0 : BitVec 23) ++ m

end Sys2Proof.Machine
end

