-- ==== Sys2Proof/Machine/Ops.lean ====
section
/-! DEFINITION. The named operations over storage and state: reading and writing a storage space (R50 to R54), ending a
command (R9), failing a command (R181), construction (R115, R145), reset (R34, R200, R201) and the assembly buffer
(R84). Taking a failure is `raise`; the spec has no operation that returns from one (R185, R187). -/

namespace Sys2Proof.Machine

/-- What a command or a step answers. -/
abbrev Result := Host.Outcome State Fault Refusal

/-! ## Storage spaces -/

/-- The value at an address; 0 at an unlisted one. -/
def memRead {w : Nat} (mem : Memory w) (a : Nat) : BitVec w :=
  match mem with
  | [] => 0
  | (k, v) :: rest => if k = a then v else memRead rest a

/-- The storage with the value at one address replaced; keeps the canonical form. -/
def memWrite {w : Nat} (mem : Memory w) (a : Nat) (v : BitVec w) : Memory w :=
  match mem with
  | [] => if v = 0 then [] else [(a, v)]
  | (k, x) :: rest =>
    if a < k then (if v = 0 then (k, x) :: rest else (a, v) :: (k, x) :: rest)
    else if a = k then (if v = 0 then rest else (a, v) :: rest)
    else (k, x) :: memWrite rest a v

/-! ## The bit vector -/

/-- `bv[i]`: bit `i mod 8` of storage byte `i div 8` (R52). -/
def bvBit (bv : Memory 8) (i : Nat) : Bool := (memRead bv (i / 8)).getLsbD (i % 8)

/-- `bv[i] <- 1` (R9, R52). -/
def bvSetBit (bv : Memory 8) (i : Nat) : Memory 8 :=
  memWrite bv (i / 8) (memRead bv (i / 8) ||| BitVec.ofNat 8 (2 ^ (i % 8)))

/-- Storage byte `a` of the bit-vector space: 0 at an address `>= ceil(bf_m / 8)` (R53). -/
def bvByte (s : State) (a : Nat) : Byte :=
  if a < ceilDiv s.bfM.toNat 8 then memRead s.bv a else 0

/-- `MemRead(BV, a, n)`: bytes `a .. a+n-1`, byte `a` least significant (R53). -/
def bvMemRead (s : State) (a : Nat) : Nat → Nat
  | 0 => 0
  | n + 1 => (bvByte s a).toNat + 256 * bvMemRead s (a + 1) n

/-! ## The register array -/

/-- `reg[j]` (R9, R54). -/
def regRead (s : State) (j : Nat) : RegVal := memRead s.reg j

/-- `reg[j] <- v` (R9, R54). -/
def regWrite (j : Nat) (v : RegVal) (s : State) : State := { s with reg := memWrite s.reg j v }

/-- The values of `reg[0] .. reg[hll_m - 1]`, in order (R26). -/
def regValues (s : State) : List Nat := (List.range (hllM s)).map (fun j => (regRead s j).toNat)

/-! ## Ending a command -/

/-- Send a response record (R77). -/
def send (status : BitVec 8) (result : BitVec 64) (s : State) : State :=
  { s with responses := s.responses ++ [⟨status, result⟩] }

/-- `respond(OK, r)` (R9). -/
def respond (r : BitVec 64) (s : State) : Result := .next (send 0x00 r s)

/-- The state of a failed command before its response: only the error summary changes (R181). -/
def recordFailure (f : Failure) (s : State) : State := { s with err := true, ecode := failureCode f }

/-- `raise <Name>`: the one way a command fails (R9, R181). -/
def raise (f : Failure) (s : State) : Result := .next (send (failureCode f) 0 (recordFailure f s))

/-! ## Construction and reset -/

/-- A new, empty filter of `m` bits and `k` hashes; the old one, if any, is discarded (R115, R116). -/
def constructFilter (m : BitVec 33) (k : BitVec 8) (s : State) : State :=
  { s with bfValid := true, bfM := m, bfK := k, bv := [] }

/-- A new, empty estimator of precision `b`; the old one, if any, is discarded (R145). -/
def constructEstimator (b : BitVec 5) (s : State) : State :=
  { s with hllValid := true, hllB := b, reg := [] }

/-- `SYS.RST`: the elements of R34 but the assembly buffer take their reset values (R101, R201). -/
def softReset (s : State) : State :=
  { s with
    bfValid := State.reset.bfValid, bfM := State.reset.bfM, bfK := State.reset.bfK, bv := State.reset.bv,
    hllValid := State.reset.hllValid, hllB := State.reset.hllB, reg := State.reset.reg,
    err := State.reset.err, ecode := State.reset.ecode }

/-- Hardware reset: every element of R34 takes its reset value and the assembly buffer is emptied (R200). The host's
later events and the responses it already has are the interface's and stay (log 2). -/
def hardwareReset (s : State) : State := { softReset s with buffer := State.reset.buffer }

/-! ## The assembly buffer -/

/-- The command being received once beat `b` is accepted: a header when the decoder is idle, else one more payload
beat (R84). -/
def receive (b : Beat) (buffer : Option Pending) : Pending :=
  match buffer with
  | none => ⟨b, []⟩
  | some p => ⟨p.header, p.payload ++ [b]⟩

/-- The assembly buffer holds `buffer`. -/
def setBuffer (buffer : Option Pending) (s : State) : State := { s with buffer := buffer }

/-- The host events still to come are `port`. -/
def setPort (port : List HostEvent) (s : State) : State := { s with port := port }

end Sys2Proof.Machine
end

