-- ==== Sys2Proof/Machine/Numerics.lean ====
section
/-! DEFINITION. The real-number formulas of the block (R8): sizing of the Bloom filter (R112, R113), the constant
`alphaMM` (R142) and the estimator (R144). The rational parts are exact fractions. A natural logarithm is given by an
enclosure made of natural numbers, and the value that is rounded (`ceil`, `round`, `trunc`) is taken where both ends of
the enclosure round to the same integer, at a precision that rises without a last one
(spec/93_implementation_defined.md U2 (b); logs 7 and 8). The result is the exact real formula's for every operand:
`bloomM_exact`, `bloomK_exact`, `linearCount_exact` and `largeRange_exact` of Laws/Exact.lean. -/

namespace Sys2Proof.Machine

/-- An enclosure `lo <= x <= hi`. -/
structure Bounds where
  lo : Nat
  hi : Nat
deriving DecidableEq, Repr

/-- Terms of the series at `prec` fraction bits: enough, because `9^terms > 2^prec`. -/
def seriesTerms (prec : Nat) : Nat := prec / 3 + 1

/-- Lower sum of `2^prec * artanh(u/v) = 2^prec * (z + z^3/3 + z^5/5 + ..)` with `z = u/v`: each term rounded down. -/
def artanhSum (u v prec : Nat) : Nat → Nat
  | 0 => 0
  | n + 1 => artanhSum u v prec n + 2 ^ prec * u ^ (2 * n + 1) / ((2 * n + 1) * v ^ (2 * n + 1))

/-- Lower bound of `2^prec * ln((v+u)/(v-u)) = 2^prec * 2 * artanh(u/v)`, for `3*u <= v`. -/
def lnRatioLow (u v prec : Nat) : Nat := 2 * artanhSum u v prec (seriesTerms prec)

/-- How far `lnRatioLow` can lie below the real value: one for each rounded term and one for the rest of the series,
twice. -/
def lnRatioSlack (prec : Nat) : Nat := 2 * (seriesTerms prec + 1)

/-- Enclosure of `2^prec * ln(a/c)` for `a >= c > 0`: with `2^t * c <= a < 2^(t+1) * c`,
`ln(a/c) = t * ln 2 + ln(a / (2^t * c))`. -/
def lnBounds (a c prec : Nat) : Bounds :=
  let t := Nat.log2 (a / c)
  let lo := t * lnRatioLow 1 3 prec + lnRatioLow (a - c * 2 ^ t) (a + c * 2 ^ t) prec
  ⟨lo, lo + (t + 1) * lnRatioSlack prec⟩

/-- Enclosure of `2^prec * ln 2`. -/
def ln2Bounds (prec : Nat) : Bounds := lnBounds 2 1 prec

/-- The first of the enclosures at `prec`, `2*prec`, `4*prec`, .. that singles out one integer, else the last. -/
def narrow (f : Nat → Bounds) : Nat → Nat → Bounds
  | 0, prec => f prec
  | n + 1, prec => if (f prec).lo = (f prec).hi then f prec else narrow f n (2 * prec)

/-- The enclosures of an integer value `f`, made narrower until one integer is left or `doublings` are used up. -/
def settle (f : Nat → Bounds) : Bounds := narrow f Config.doublings Config.basePrecision

/-- The integer that the first of the enclosures at `prec`, `2*prec`, `4*prec`, .. with equal ends singles out, however
far on it is; `none` where no enclosure ever does, which can only be where the real value before its rounding is an
integer itself. -/
def firstSettled (f : Nat → Bounds) (prec : Nat) : Option Nat :=
  if (f prec).lo = (f prec).hi then some (f prec).lo else firstSettled f (2 * prec)
partial_fixpoint

/-- The rounded real value that the enclosures `f` close in on. Where none of them singles out one integer, the real
value is an integer, and `atInteger` says at which end of the enclosure it stands: the lower one for `ceil`, the upper
one for `trunc` and `round` (log 8). -/
def exactly (f : Nat → Bounds) (atInteger : Bounds → Nat) : Nat :=
  if (settle f).lo = (settle f).hi then (settle f).lo
  else (firstSettled f (2 ^ Config.doublings * Config.basePrecision)).getD (atInteger (settle f))

/-! ## Sizing -/

/-- Enclosure of `ceil(-n * ln(P / 2^64) / (ln 2)^2)` (R112, R117). -/
def bloomMBounds (n p prec : Nat) : Bounds :=
  ⟨ceilDiv (n * (lnBounds (2 ^ 64) p prec).lo * 2 ^ prec) ((ln2Bounds prec).hi ^ 2),
   ceilDiv (n * (lnBounds (2 ^ 64) p prec).hi * 2 ^ prec) ((ln2Bounds prec).lo ^ 2)⟩

/-- `BloomM(n, P / 2^64)` (R112). -/
def bloomM (n p : Nat) : Nat := exactly (bloomMBounds n p) Bounds.lo

/-- Enclosure of `round((m / n) * ln 2) = floor((2 * m * ln 2 + n) / (2 * n))` (R8, R113). -/
def bloomKBounds (n m prec : Nat) : Bounds :=
  ⟨(2 * m * (ln2Bounds prec).lo + n * 2 ^ prec) / (2 * n * 2 ^ prec),
   (2 * m * (ln2Bounds prec).hi + n * 2 ^ prec) / (2 * n * 2 ^ prec)⟩

/-- `BloomK(n, m)` (R113). -/
def bloomK (n m : Nat) : Nat := max 1 (exactly (bloomKBounds n m) Bounds.hi)

/-! ## The estimator -/

/-- An exact fraction `num / den`. -/
structure Frac where
  num : Nat
  den : Nat
deriving DecidableEq, Repr

/-- `AlphaMM(m)` as an exact fraction (R142). -/
def alphaMM (m : Nat) : Frac :=
  if m = 16 then ⟨673 * m ^ 2, 1000⟩
  else if m = 32 then ⟨697 * m ^ 2, 1000⟩
  else if m = 64 then ⟨709 * m ^ 2, 1000⟩
  else ⟨7213 * m ^ 3, 10000 * m + 10790⟩

/-- `2^63 * S` with `S` the sum of `2^(-reg[i])`; exact, because a 6-bit register is at most 63 (R144 step 1). -/
def harmonicSum (regs : List Nat) : Nat := (regs.map (fun r => 2 ^ (63 - r))).sum

/-- The raw estimate `E = AlphaMM(m) * (1 / S)` (R144 steps 1 and 2). -/
def rawEstimate (m : Nat) (regs : List Nat) : Frac :=
  ⟨(alphaMM m).num * 2 ^ 63, (alphaMM m).den * harmonicSum regs⟩

/-- `V`: the number of registers equal to 0 (R144 step 3). -/
def zeroRegs (regs : List Nat) : Nat := regs.count 0

/-- Enclosure of `trunc(m * ln(m / V))` (R144 step 3). -/
def linearBounds (m v prec : Nat) : Bounds :=
  ⟨m * (lnBounds m v prec).lo / 2 ^ prec, m * (lnBounds m v prec).hi / 2 ^ prec⟩

/-- Linear counting, truncated (R144 steps 3 and 5). -/
def linearCount (m v : Nat) : Nat := exactly (linearBounds m v) Bounds.hi

/-- Enclosure of `trunc(-2^32 * ln(1 - E / 2^32))`, for `E < 2^32` (R144 step 4). -/
def largeBounds (e : Frac) (prec : Nat) : Bounds :=
  ⟨2 ^ 32 * (lnBounds (2 ^ 32 * e.den) (2 ^ 32 * e.den - e.num) prec).lo / 2 ^ prec,
   2 ^ 32 * (lnBounds (2 ^ 32 * e.den) (2 ^ 32 * e.den - e.num) prec).hi / 2 ^ prec⟩

/-- The large-range correction, truncated (R144 steps 4 and 5). -/
def largeRange (e : Frac) : Nat := exactly (largeBounds e) Bounds.hi

/-- The three regimes of R144 for `m` registers of which `v` are 0 and the raw estimate `e`, in their order: `E <= 2.5 m`
(with `V != 0`), then `E > 2^32 / 30` (with `1 - E / 2^32 <= 0`). Every comparison is between rationals; `none` where
the estimate is undefined. -/
def estimateOf (m v : Nat) (e : Frac) : Option Nat :=
  if 2 * e.num ≤ 5 * m * e.den then
    (if v ≠ 0 then some (linearCount m v) else some (e.num / e.den))
  else if 2 ^ 32 * e.den < 30 * e.num then
    (if 2 ^ 32 * e.den ≤ e.num then none else some (largeRange e))
  else some (e.num / e.den)

/-- `Est(reg, b)` of the `m` register values; `none` where it is undefined (R144). -/
def estimate (m : Nat) (regs : List Nat) : Option Nat := estimateOf m (zeroRegs regs) (rawEstimate m regs)

end Sys2Proof.Machine
end

