-- ==== Sys2Proof/Machine/Operands.lean ====
section
/-! DEFINITION. The operand forms of the data commands: double hashing (R111) and the index/remainder split with its
position-of-first-one detector (R141, R143). -/

namespace Sys2Proof.Machine

/-- `Idx(h1, h2, m, i) = (h1 + i * h2) mod m`, on mathematical integers (R111). -/
def bloomIdx (h1 h2 : Beat) (m i : Nat) : Nat := (h1.toNat + i * h2.toNat) % m

/-- The `k` bit indices of a pair of hashes (R111, R114). -/
def bloomIndices (h1 h2 : Beat) (m k : Nat) : List Nat := (List.range k).map (bloomIdx h1 h2 m)

/-- The register index `j = x[b-1:0]` (R143). -/
def splitIndex (x : Beat) (b : Nat) : Nat := x.toNat % 2 ^ b

/-- The remainder `w = x >> b` (R143). -/
def splitRemainder (x : Beat) (b : Nat) : Nat := x.toNat / 2 ^ b

/-- `clz_L(w)`: zero bits above the most significant 1 of `w` in a field of `len` bits (R141). -/
def clz (len w : Nat) : Nat := if w = 0 then len else len - 1 - Nat.log2 w

/-- `Rank(w, b) = min(clz_L(w) + 1, RANK_MAX(b))` with `L = W - b` (R141). -/
def rank (w b : Nat) : Nat := min (clz (Config.hashWidth - b) w + 1) (Config.rankMax b)

end Sys2Proof.Machine
end

