-- ==== Sys2Proof/Machine/Bloom.lean ====
section
/-! DEFINITION. The Bloom filter commands (spec/41_bloom.md): parallel set and test (R114), the operations over a pair
of hashes and over an item, and one meaning for each command. -/

namespace Sys2Proof.Machine

/-! ## Set and test -/

/-- `BfTest(h1, h2)` (R114). -/
def bfTestBits (h1 h2 : Beat) (s : State) : Bool :=
  (bloomIndices h1 h2 s.bfM.toNat s.bfK.toNat).all (bvBit s.bv)

/-- `BfSet(h1, h2)` (R114). -/
def bfSetBits (h1 h2 : Beat) (s : State) : State :=
  { s with bv := (bloomIndices h1 h2 s.bfM.toNat s.bfK.toNat).foldl bvSetBit s.bv }

/-! ## Operations over a pair of hashes and over an item -/

/-- The check every Bloom data command begins with (R110). -/
def requireFilter (s : State) (go : Result) : Result := if s.bfValid then go else raise .notConfigured s

/-- Add a pair (R118). -/
def addPair (h1 h2 : Beat) (s : State) : Result := respond 0 (bfSetBits h1 h2 s)

/-- Test a pair (R119). -/
def testPair (h1 h2 : Beat) (s : State) : Result := respond (if bfTestBits h1 h2 s then 1 else 0) s

/-- Test a pair and add it when it is absent (R120). -/
def uniqPair (h1 h2 : Beat) (s : State) : Result :=
  if bfTestBits h1 h2 s then respond 0 s else respond 1 (bfSetBits h1 h2 s)

/-- One step of the uniqueness check, with the hash unit as an argument (R123). -/
def uniqEntry (u : HashUnit) (entry : Entry) (s : State) : Result :=
  match entry with
  | .null => respond 2 s
  | .item bytes =>
    if validItem bytes then uniqPair (u.hash1 bytes) (u.hash2 bytes) s else respond 2 s

/-- Construct a filter and answer with the parameters taken (R115). -/
def buildFilter (m k : Nat) (s : State) : Result :=
  respond (constructionResult (BitVec.ofNat 33 m) (BitVec.ofNat 8 k))
    (constructFilter (BitVec.ofNat 33 m) (BitVec.ofNat 8 k) s)

/-- The two range checks of `BF.INIT` (R115). -/
def legalFilter (m k : Nat) : Bool := decide (1 ≤ m ∧ m ≤ Config.mMax) && decide (1 ≤ k ∧ k ≤ Config.kMax)

/-! ## Meanings -/

/-- `BF.INIT m, k` (R115). -/
def execBfInit (k : BitVec 16) (m : Beat) (s : State) : Result :=
  if legalFilter m.toNat k.toNat then buildFilter m.toNat k.toNat s else raise .badParam s

/-- `BF.INITNP n, P` (R117). -/
def execBfInitNp (n p : Beat) (s : State) : Result :=
  if n = 0 then raise .badParam s
  else if p = 0 then raise .badParam s
  else
    let m := bloomM n.toNat p.toNat
    let k := bloomK n.toNat m
    if Config.mMax < m ∨ Config.kMax < k then raise .badParam s else buildFilter m k s

/-- `BF.ADDH h1, h2` (R118). -/
def execBfAddH (h1 h2 : Beat) (s : State) : Result := requireFilter s (addPair h1 h2 s)

/-- `BF.TESTH h1, h2` (R119). -/
def execBfTestH (h1 h2 : Beat) (s : State) : Result := requireFilter s (testPair h1 h2 s)

/-- `BF.UNIQH h1, h2` (R120). -/
def execBfUniqH (h1 h2 : Beat) (s : State) : Result := requireFilter s (uniqPair h1 h2 s)

/-- `BF.ADD item` for a hash unit (R121). -/
def execBfAddWith (u : HashUnit) (item : List Byte) (s : State) : Result :=
  requireFilter s (addPair (u.hash1 item) (u.hash2 item) s)

/-- `BF.ADD item` with the default hash unit (R121, R172). -/
def execBfAdd (item : List Byte) (s : State) : Result := execBfAddWith defaultHash item s

/-- `BF.TEST item` for a hash unit (R122). -/
def execBfTestWith (u : HashUnit) (item : List Byte) (s : State) : Result :=
  requireFilter s (testPair (u.hash1 item) (u.hash2 item) s)

/-- `BF.TEST item` with the default hash unit (R122, R172). -/
def execBfTest (item : List Byte) (s : State) : Result := execBfTestWith defaultHash item s

/-- `BF.UNIQ item` and `BF.UNIQ null` for a hash unit (R123). -/
def execBfUniqWith (u : HashUnit) (entry : Entry) (s : State) : Result := requireFilter s (uniqEntry u entry s)

/-- `BF.UNIQ item` and `BF.UNIQ null` with the default hash unit (R123, R172). -/
def execBfUniq (entry : Entry) (s : State) : Result := execBfUniqWith defaultHash entry s

/-- `BF.RD A` (R126). -/
def execBfRd (a : Beat) (s : State) : Result :=
  requireFilter s
    (if a.toNat < ceilDiv s.bfM.toNat 64 then respond (BitVec.ofNat 64 (bvMemRead s (8 * a.toNat) 8)) s
     else raise .badAddr s)

end Sys2Proof.Machine
end

