-- ==== Sys2Proof/Machine/Hll.lean ====
section
/-! DEFINITION. The HyperLogLog commands (spec/42_hll.md): the running-maximum update and one meaning for each
command. -/

namespace Sys2Proof.Machine

/-- The check every HyperLogLog data command begins with (R140). -/
def requireEstimator (s : State) (go : Result) : Result := if s.hllValid then go else raise .notConfigured s

/-- `max(old, r)` as a register value (R146). -/
def raiseReg (old : RegVal) (r : Nat) : RegVal := BitVec.ofNat 6 (max old.toNat r)

/-- `reg[j] <- max(reg[j], Rank(w, b))` for the hash value `x` (R143, R141, R146). -/
def hllUpdate (x : Beat) (s : State) : State :=
  let b := s.hllB.toNat
  let j := splitIndex x b
  regWrite j (raiseReg (regRead s j) (rank (splitRemainder x b) b)) s

/-- The precision an `HLL.INIT` argument asks for (R145). -/
def askedPrecision (b : BitVec 16) : Nat := if b = 0 then Config.bDefault else b.toNat

/-- `HLL.INIT b` (R145). -/
def execHllInit (b : BitVec 16) (s : State) : Result :=
  if Config.bMin ≤ askedPrecision b ∧ askedPrecision b ≤ Config.bMax then
    respond (BitVec.ofNat 64 (askedPrecision b)) (constructEstimator (BitVec.ofNat 5 (askedPrecision b)) s)
  else raise .badParam s

/-- `HLL.ADDH x` (R146). -/
def execHllAddH (x : Beat) (s : State) : Result := requireEstimator s (respond 0 (hllUpdate x s))

/-- `HLL.ADD item` for a hash unit (R147). -/
def execHllAddWith (u : HashUnit) (item : List Byte) (s : State) : Result :=
  requireEstimator s (respond 0 (hllUpdate (u.hashX item) s))

/-- `HLL.ADD item` with the default hash unit (R147, R172). -/
def execHllAdd (item : List Byte) (s : State) : Result := execHllAddWith defaultHash item s

/-- Answer with an estimate, or fail where it is undefined (R148). -/
def answerEstimate (e : Option Nat) (s : State) : Result :=
  match e with
  | some e => respond (BitVec.ofNat 64 e) s
  | none => raise .estDomain s

/-- `HLL.EST` (R148). -/
def execHllEst (s : State) : Result := requireEstimator s (answerEstimate (estimate (hllM s) (regValues s)) s)

/-- `HLL.RDR j` (R149). -/
def execHllRdr (j : BitVec 16) (s : State) : Result :=
  requireEstimator s
    (if j.toNat < hllM s then respond ((regRead s j.toNat).setWidth 64) s else raise .badAddr s)

end Sys2Proof.Machine
end

