-- ==== Sys2Proof/Machine/System.lean ====
section
/-! DEFINITION. The system commands (spec/40_system.md). -/

namespace Sys2Proof.Machine

/-- `NOP` (R100). -/
def execNop (s : State) : Result := respond 0 s

/-- `SYS.RST` (R101, R201). -/
def execSysRst (s : State) : Result := respond 0 (softReset s)

/-- `CSR.RD n` (R102). -/
def execCsrRd (n : BitVec 16) (s : State) : Result :=
  if n.toNat < Config.csrCount then respond (csr n.toNat s) s else raise .badAddr s

end Sys2Proof.Machine
end

