-- ==== Sys2Proof/Machine/Dispatch.lean ====
section
/-! DEFINITION. One arm per command (R76): the meaning of each. -/

namespace Sys2Proof.Machine

def exec (i : Instr) (s : State) : Host.Outcome State Fault Refusal :=
  match i with
  | .nop => Sys2Proof.Machine.execNop s
  | .sysRst => Sys2Proof.Machine.execSysRst s
  | .csrRd n => Sys2Proof.Machine.execCsrRd n s
  | .bfInit k m => Sys2Proof.Machine.execBfInit k m s
  | .bfInitNp n p => Sys2Proof.Machine.execBfInitNp n p s
  | .bfAddH h1 h2 => Sys2Proof.Machine.execBfAddH h1 h2 s
  | .bfTestH h1 h2 => Sys2Proof.Machine.execBfTestH h1 h2 s
  | .bfUniqH h1 h2 => Sys2Proof.Machine.execBfUniqH h1 h2 s
  | .bfAdd item => Sys2Proof.Machine.execBfAdd item s
  | .bfTest item => Sys2Proof.Machine.execBfTest item s
  | .bfUniq entry => Sys2Proof.Machine.execBfUniq entry s
  | .bfRd a => Sys2Proof.Machine.execBfRd a s
  | .hllInit b => Sys2Proof.Machine.execHllInit b s
  | .hllAddH x => Sys2Proof.Machine.execHllAddH x s
  | .hllAdd item => Sys2Proof.Machine.execHllAdd item s
  | .hllEst => Sys2Proof.Machine.execHllEst s
  | .hllRdr j => Sys2Proof.Machine.execHllRdr j s

end Sys2Proof.Machine
end

