-- ==== Sys2Proof/Machine/Execute.lean ====
section
/-! DEFINITION. The commands of a block with any hash unit (R5), and the decoding algorithm of R84: a beat is accepted,
and the command it completes is executed. What executes a decoded command is an argument of the algorithm, so that one
text serves the default block (`exec`) and a block with any hash unit (`execWith u`). -/

namespace Sys2Proof.Machine

/-- A command of the block whose hash unit is `u` (R5, R170; U4 of spec/93_implementation_defined.md): only the four item
commands depend on it. -/
def execWith (u : HashUnit) (i : Instr) (s : State) : Result :=
  match i with
  | .bfAdd item => execBfAddWith u item s
  | .bfTest item => execBfTestWith u item s
  | .bfUniq entry => execBfUniqWith u entry s
  | .hllAdd item => execHllAddWith u item s
  | .nop | .sysRst | .csrRd _ => exec i s
  | .bfInit _ _ | .bfInitNp _ _ | .bfAddH _ _ | .bfTestH _ _ | .bfUniqH _ _ | .bfRd _ => exec i s
  | .hllInit _ | .hllAddH _ | .hllEst | .hllRdr _ => exec i s

/-- `execute(header, payload)`: classify the header, then run the command or fail (R84, R182). -/
def execute (run : Instr → State → Result) (p : Pending) (s : State) : Result :=
  match decode p.header p.payload with
  | .ok i => run i s
  | .error e => raise (rejectFailure e) s

/-- A beat is accepted while the rest of the state is `s` (R84): the command it completes runs with the buffer empty;
an incomplete one stays in the buffer, without a response (R85). -/
def acceptBeat (run : Instr → State → Result) (b : Beat) (s : State) : Result :=
  if (receive b s.buffer).payload.length = payloadBeats (receive b s.buffer).header then
    execute run (receive b s.buffer) (setBuffer none s)
  else .next (setBuffer (some (receive b s.buffer)) s)

/-- One host event arrives (R84, R200). A beat cut by a reset leaves the reset state and no response (log 10). -/
def takeEvent (run : Instr → State → Result) (e : HostEvent) (s : State) : Result :=
  match e with
  | .beat b => acceptBeat run b s
  | .reset => .next (hardwareReset s)
  | .beatCutByReset _ => .next (hardwareReset s)

/-- The block takes the oldest host event; with none, it waits and keeps all its state (R84, R85, R189; log 1). -/
def advance (run : Instr → State → Result) (s : State) : Result :=
  match s.port with
  | [] => .next s
  | e :: rest => takeEvent run e (setPort rest s)

/-- Place the command whose bits are `w` (numbered as the opcode table numbers them) at the block's input, so that the
next step completes and runs it: its last beat is the next host event, the beats before it are in the assembly buffer. -/
def placeCommand (nbits w : Nat) (s : State) : State :=
  match tablePayload nbits w with
  | [] => setPort (.beat (tableBeat nbits w 0) :: s.port) (setBuffer none s)
  | b :: rest =>
    setPort (.beat ((b :: rest).getLast?.getD 0) :: s.port)
      (setBuffer (some ⟨tableBeat nbits w 0, (b :: rest).dropLast⟩) s)

end Sys2Proof.Machine
end

