-- ==== Sys2Proof/Machine/Step.lean ====
section
/-! DEFINITION. One step of the machine, for the default hash unit and for any, and the machine with any hash unit. -/

namespace Sys2Proof.Machine

/-- One step of the block with the default hash unit (R84, R172). -/
def step (s : State) : Host.Outcome State Fault Refusal := advance exec s

/-- One step of the block whose hash unit is `u` (R5, R84). -/
def stepWith (u : HashUnit) (s : State) : Host.Outcome State Fault Refusal := advance (execWith u) s

/-- The machine whose hash unit is `u` (R5); `Sys2Proof.core` is the one with the default unit (log 6). -/
def coreWith (u : HashUnit) : Host.Core :=
  { State := State, Fault := Fault, Refusal := Refusal, step := stepWith u, reset := State.reset }

/-- `s` with the command whose bits are `w` placed where the next step takes it (log 3). -/
def State.withFetchWord (s : State) (nbits w : Nat) : State := placeCommand nbits w s

end Sys2Proof.Machine
end

