-- ==== Sys2Proof/Safety.lean ====
section
/-! DEFINITION. What a safe state of the block is, in the terms claims use: the invariants of R24, R27, R28, R51 and of
the assembly buffer (R84), the groups of commands (R2, R183), and runs of commands. -/

namespace Sys2Proof.Machine

/-- R22, R24 (a), R34: a constructed filter has `1 <= bf_m <= M_MAX` and `bf_k >= 1`; without one both are 0. -/
abbrev BloomConfigOk (s : State) : Prop :=
  (s.bfValid = true → 1 ≤ s.bfM.toNat ∧ s.bfM.toNat ≤ Config.mMax ∧ 1 ≤ s.bfK.toNat) ∧
    (s.bfValid = false → s.bfM = 0 ∧ s.bfK = 0)

/-- R23, R51: the storage has its canonical form and no bit at or beyond `bf_m` is 1. -/
abbrev BloomStorageOk (s : State) : Prop :=
  Memory.wf s.bv ∧ ∀ c ∈ s.bv, 8 * c.1 + Nat.log2 c.2.toNat < s.bfM.toNat

/-- R25, R34: a constructed estimator has a legal precision; without one it is 0. -/
abbrev HllConfigOk (s : State) : Prop :=
  (s.hllValid = true → Config.bMin ≤ s.hllB.toNat ∧ s.hllB.toNat ≤ Config.bMax) ∧
    (s.hllValid = false → s.hllB = 0)

/-- R26, R27 (a), (c): only the registers `0 .. 2^hll_b - 1` exist and each is at most `W - hll_b`. -/
abbrev HllStorageOk (s : State) : Prop :=
  Memory.wf s.reg ∧ ∀ c ∈ s.reg, c.1 < 2 ^ s.hllB.toNat ∧ c.2.toNat ≤ Config.rankMax s.hllB.toNat

/-- R28, R180: `ecode` is 0 exactly while `err` is 0, and is one of the six failure codes. -/
abbrev ErrorSummaryOk (s : State) : Prop :=
  (s.err = false ↔ s.ecode = 0) ∧ s.ecode.toNat ≤ 6

/-- R84: the assembly buffer holds fewer payload beats than its header calls for. -/
abbrev BufferOk (s : State) : Prop :=
  ∀ p ∈ s.buffer, p.payload.length < payloadBeats p.header

/-- R77, R180: a response has a known status, and result 0 when it is a failure. -/
abbrev ResponsesOk (s : State) : Prop :=
  ∀ r ∈ s.responses, r.status.toNat ≤ 6 ∧ (r.status ≠ 0 → r.result = 0)

/-- The invariant of the machine. -/
abbrev StateOk (s : State) : Prop :=
  BloomConfigOk s ∧ BloomStorageOk s ∧ HllConfigOk s ∧ HllStorageOk s ∧ ErrorSummaryOk s ∧ BufferOk s ∧ ResponsesOk s

/-- `bv[i]` of a state (R23). -/
abbrev bitOf (s : State) (i : Nat) : Bool := bvBit s.bv i

/-- The commands of the Bloom group (R2). -/
def isBloom : Instr → Bool
  | .bfInit _ _ | .bfInitNp _ _ | .bfAddH _ _ | .bfTestH _ _ | .bfUniqH _ _ => true
  | .bfAdd _ | .bfTest _ | .bfUniq _ | .bfRd _ => true
  | .nop | .sysRst | .csrRd _ => false
  | .hllInit _ | .hllAddH _ | .hllAdd _ | .hllEst | .hllRdr _ => false

/-- The commands of the HyperLogLog group (R2). -/
def isHll : Instr → Bool
  | .hllInit _ | .hllAddH _ | .hllAdd _ | .hllEst | .hllRdr _ => true
  | .bfInit _ _ | .bfInitNp _ _ | .bfAddH _ _ | .bfTestH _ _ | .bfUniqH _ _ => false
  | .bfAdd _ | .bfTest _ | .bfUniq _ | .bfRd _ => false
  | .nop | .sysRst | .csrRd _ => false

/-- The commands that discard or replace a filter (R22, R116). -/
def discardsFilter : Instr → Bool
  | .sysRst | .bfInit _ _ | .bfInitNp _ _ => true
  | .nop | .csrRd _ | .bfAddH _ _ | .bfTestH _ _ | .bfUniqH _ _ => false
  | .bfAdd _ | .bfTest _ | .bfUniq _ | .bfRd _ => false
  | .hllInit _ | .hllAddH _ | .hllAdd _ | .hllEst | .hllRdr _ => false

/-- The commands that discard or replace an estimator (R25). -/
def discardsEstimator : Instr → Bool
  | .sysRst | .hllInit _ => true
  | .nop | .csrRd _ | .hllAddH _ | .hllAdd _ | .hllEst | .hllRdr _ => false
  | .bfInit _ _ | .bfInitNp _ _ | .bfAddH _ _ | .bfTestH _ _ | .bfUniqH _ _ => false
  | .bfAdd _ | .bfTest _ | .bfUniq _ | .bfRd _ => false

/-- The Bloom data commands (R110). -/
def isBloomData : Instr → Bool
  | .bfAddH _ _ | .bfTestH _ _ | .bfUniqH _ _ | .bfAdd _ | .bfTest _ | .bfUniq _ | .bfRd _ => true
  | .bfInit _ _ | .bfInitNp _ _ | .nop | .sysRst | .csrRd _ => false
  | .hllInit _ | .hllAddH _ | .hllAdd _ | .hllEst | .hllRdr _ => false

/-- The HyperLogLog data commands (R140). -/
def isHllData : Instr → Bool
  | .hllAddH _ | .hllAdd _ | .hllEst | .hllRdr _ => true
  | .hllInit _ | .nop | .sysRst | .csrRd _ => false
  | .bfInit _ _ | .bfInitNp _ _ | .bfAddH _ _ | .bfTestH _ _ | .bfUniqH _ _ => false
  | .bfAdd _ | .bfTest _ | .bfUniq _ | .bfRd _ => false

/-- The command fails with this status (R181): the error summary is recorded, one response with result 0 is sent and
nothing else changes. -/
abbrev FailsWith (i : Instr) (code : BitVec 8) (s : State) : Prop :=
  exec i s = .next { s with err := true, ecode := code, responses := s.responses ++ [⟨code, 0⟩] }

/-- The reset table of R34, without the storage it leaves unspecified and without the assembly buffer. -/
abbrev AtResetTable (s : State) : Prop :=
  s.bfValid = false ∧ s.bfM = 0 ∧ s.bfK = 0 ∧ s.hllValid = false ∧ s.hllB = 0 ∧ s.err = false ∧ s.ecode = 0

/-- The pair of hashes an adding command adds to the filter; none for an invalid entry and for other commands (R118,
R120, R121, R123, R172, R173). -/
def addedPair : Instr → Option (Beat × Beat)
  | .bfAddH h1 h2 => some (h1, h2)
  | .bfUniqH h1 h2 => some (h1, h2)
  | .bfAdd item => some (rh64 1 item, rh64 2 item)
  | .bfUniq (.item item) => if validItem item then some (rh64 1 item, rh64 2 item) else none
  | .bfUniq .null => none
  | .nop | .sysRst | .csrRd _ | .bfInit _ _ | .bfInitNp _ _ | .bfTestH _ _ | .bfTest _ | .bfRd _ => none
  | .hllInit _ | .hllAddH _ | .hllAdd _ | .hllEst | .hllRdr _ => none

/-- The hash value an adding command adds to the estimator (R146, R147, R172). -/
def addedHash : Instr → Option Beat
  | .hllAddH x => some x
  | .hllAdd item => some (rh64 3 item)
  | .nop | .sysRst | .csrRd _ | .hllInit _ | .hllEst | .hllRdr _ => none
  | .bfInit _ _ | .bfInitNp _ _ | .bfAddH _ _ | .bfTestH _ _ | .bfUniqH _ _ => none
  | .bfAdd _ | .bfTest _ | .bfUniq _ | .bfRd _ => none

/-- A list of commands executed one after another (R61). -/
def execAll : List Instr → State → Host.Outcome State Fault Refusal
  | [], s => .next s
  | i :: rest, s =>
    match exec i s with
    | .next t => execAll rest t
    | .fault f => .fault f
    | .refused r => .refused r

end Sys2Proof.Machine
end

