-- ==== Sys2Proof/Certificates/Slice0/Obligations.lean ====
section
/-! DEFINITION. The statements about the BFHLL core for the provers. Each docstring names the rules of spec/ it
formalises. -/

open Sys2Proof Sys2Proof.Machine

/-! ## The real formulas of R142 and R144, as the spec writes them -/

/-- `AlphaMM(m)` over the reals (R142). -/
noncomputable def Sys2Proof.Spec.alphaMM (m : ℕ) : ℝ :=
  if m = 16 then 673 / 1000 * (m : ℝ) ^ 2
  else if m = 32 then 697 / 1000 * (m : ℝ) ^ 2
  else if m = 64 then 709 / 1000 * (m : ℝ) ^ 2
  else 7213 / 10000 / (1 + 1079 / 1000 / (m : ℝ)) * (m : ℝ) ^ 2

/-- The raw estimate `E = AlphaMM(m) * (1 / S)`, `S` the sum of `2^(-reg[j])` over the `2^hll_b` registers (R144). -/
noncomputable def Sys2Proof.Spec.rawE (s : State) : ℝ :=
  Sys2Proof.Spec.alphaMM (2 ^ s.hllB.toNat) *
    (1 / ∑ j ∈ Finset.range (2 ^ s.hllB.toNat), 1 / (2 : ℝ) ^ (regRead s j).toNat)

/-- `V`: the number of registers equal to 0 (R144). -/
def Sys2Proof.Spec.zeroCount (s : State) : ℕ :=
  ((Finset.range (2 ^ s.hllB.toNat)).filter (fun j => regRead s j = 0)).card

/-- `BloomM(n, P / 2^64)` over the reals (R112). -/
noncomputable def Sys2Proof.Spec.bloomM (n p : ℕ) : ℕ :=
  ⌈-(n : ℝ) * Real.log ((p : ℝ) / 2 ^ 64) / Real.log 2 ^ 2⌉₊

/-- `BloomK(n, m)` over the reals (R113, `round` of R8). -/
noncomputable def Sys2Proof.Spec.bloomK (n m : ℕ) : ℕ :=
  max 1 ⌊(m : ℝ) / n * Real.log 2 + 1 / 2⌋₊

/-! ## System commands -/

/-- R100. -/
def Obligations.NopAnswersZeroAndChangesNothing : Prop :=
  (∀ h p, opcOf h = 0x00 →
    decode h p = if flgOf h = 0 ∧ argOf h = 0 ∧ lenOf h = 0 then .ok .nop else .error .illegalField) ∧
  ∀ s, exec .nop s = .next { s with responses := s.responses ++ [⟨0, 0⟩] }

/-- R101: the reset table, a response, every data command unconfigured afterwards, and no other command clears
`err`. -/
def Obligations.SysRstReturnsToTheResetTable : Prop :=
  (∀ h p, opcOf h = 0x01 →
    decode h p = if flgOf h = 0 ∧ argOf h = 0 ∧ lenOf h = 0 then .ok .sysRst else .error .illegalField) ∧
  (∀ s, ∃ t, exec .sysRst s = .next t ∧ AtResetTable t ∧ t.buffer = s.buffer ∧ t.port = s.port ∧
    t.responses = s.responses ++ [⟨0, 0⟩] ∧ ∀ i, isBloomData i = true ∨ isHllData i = true → FailsWith i 3 t) ∧
  ∀ i s t, i ≠ .sysRst → exec i s = .next t → s.err = true → t.err = true

/-- R102 with the register table of R29. -/
def Obligations.CsrRdReadsTheFiveRegisters : Prop :=
  (∀ h p, opcOf h = 0x02 →
    decode h p = if flgOf h = 0 ∧ lenOf h = 0 then .ok (.csrRd (argOf h)) else .error .illegalField) ∧
  (∀ n s, 4 < n.toNat → FailsWith (.csrRd n) 5 s) ∧
  ∀ n s, n.toNat ≤ 4 → ∃ r, exec (.csrRd n) s = .next { s with responses := s.responses ++ [⟨0, r⟩] } ∧
    (n = 0 → r.getLsbD 0 = s.bfValid ∧ r.getLsbD 1 = s.hllValid ∧ r.getLsbD 2 = s.err ∧ r.extractLsb' 3 5 = 0 ∧
      r.extractLsb' 8 8 = s.ecode ∧ r.extractLsb' 16 48 = 0) ∧
    (n = 1 → r.toNat = if s.bfValid then s.bfM.toNat else 0) ∧
    (n = 2 → r.toNat = if s.bfValid then s.bfK.toNat else 0) ∧
    (n = 3 → r.toNat = if s.hllValid then s.hllB.toNat else 0) ∧
    (n = 4 → r.toNat = if s.hllValid then 2 ^ s.hllB.toNat else 0)

/-! ## Bloom filter: construction -/

/-- R115. -/
def Obligations.BfInitConstructsAnEmptyFilter : Prop :=
  (∀ h p, opcOf h = 0x10 →
    decode h p = if flgOf h = 0 ∧ lenOf h = 0 then .ok (.bfInit (argOf h) (operand p 0)) else .error .illegalField) ∧
  (∀ k m s, m.toNat < 1 ∨ 2 ^ 32 < m.toNat ∨ k.toNat < 1 ∨ 255 < k.toNat → FailsWith (.bfInit k m) 4 s) ∧
  ∀ k m s, 1 ≤ m.toNat → m.toNat ≤ 2 ^ 32 → 1 ≤ k.toNat → k.toNat ≤ 255 →
    ∃ t r, exec (.bfInit k m) s = .next t ∧
      t = { s with bfValid := true, bfM := m.setWidth 33, bfK := k.setWidth 8, bv := t.bv,
                   responses := s.responses ++ [⟨0, r⟩] } ∧
      (∀ i, bitOf t i = false) ∧ t.bfM.toNat = m.toNat ∧ t.bfK.toNat = k.toNat ∧
      r.extractLsb' 0 33 = m.setWidth 33 ∧ r.extractLsb' 33 23 = 0 ∧ r.extractLsb' 56 8 = k.setWidth 8

/-- R117 with R112 and R113, for every operand: the sizes are exactly those of the real formulas, with no assumption on
how they are computed; the command fails with `BAD_PARAM` when an operand is 0 or the size is too large, and otherwise
constructs an empty filter of those sizes. `k <= 65` is the rule's corner case. -/
def Obligations.BfInitNpSizesByTheRealFormulas : Prop :=
  (∀ h p, opcOf h = 0x11 →
    decode h p = if flgOf h = 0 ∧ argOf h = 0 ∧ lenOf h = 0 then .ok (.bfInitNp (operand p 0) (operand p 1))
      else .error .illegalField) ∧
  (∀ n p s, n = 0 ∨ p = 0 → FailsWith (.bfInitNp n p) 4 s) ∧
  ∀ n p s, n ≠ 0 → p ≠ 0 →
    ∀ m k, m = Sys2Proof.Spec.bloomM n.toNat p.toNat → k = Sys2Proof.Spec.bloomK n.toNat m →
      1 ≤ m ∧ k ≤ 65 ∧
      (2 ^ 32 < m ∨ 255 < k → FailsWith (.bfInitNp n p) 4 s) ∧
      (m ≤ 2 ^ 32 → k ≤ 255 → ∃ t r, exec (.bfInitNp n p) s = .next t ∧
        t = { s with bfValid := true, bfM := BitVec.ofNat 33 m, bfK := BitVec.ofNat 8 k, bv := t.bv,
                     responses := s.responses ++ [⟨0, r⟩] } ∧
        (∀ i, bitOf t i = false) ∧ t.bfM.toNat = m ∧ t.bfK.toNat = k ∧
        r.extractLsb' 0 33 = BitVec.ofNat 33 m ∧ r.extractLsb' 33 23 = 0 ∧ r.extractLsb' 56 8 = BitVec.ofNat 8 k)

/-- R117 for every operand: `n = 0` and `P = 0` fail; otherwise the command fails with `BAD_PARAM` or constructs an
empty filter of legal size. -/
def Obligations.BfInitNpAlwaysAnswers : Prop :=
  (∀ h p, opcOf h = 0x11 →
    decode h p = if flgOf h = 0 ∧ argOf h = 0 ∧ lenOf h = 0 then .ok (.bfInitNp (operand p 0) (operand p 1))
      else .error .illegalField) ∧
  (∀ n p s, n = 0 ∨ p = 0 → FailsWith (.bfInitNp n p) 4 s) ∧
  ∀ n p s, n ≠ 0 → p ≠ 0 → FailsWith (.bfInitNp n p) 4 s ∨
    ∃ t r, exec (.bfInitNp n p) s = .next t ∧
      t = { s with bfValid := true, bfM := t.bfM, bfK := t.bfK, bv := t.bv, responses := s.responses ++ [⟨0, r⟩] } ∧
      (∀ i, bitOf t i = false) ∧ 1 ≤ t.bfM.toNat ∧ t.bfM.toNat ≤ 2 ^ 32 ∧ 1 ≤ t.bfK.toNat ∧
      r.extractLsb' 0 33 = t.bfM ∧ r.extractLsb' 33 23 = 0 ∧ r.extractLsb' 56 8 = t.bfK

/-- R117 by bounds on the operands alone: with `n <= 2^25` and `p >= 2^-32` the
command constructs an empty filter; with `n >= 2^33` and `p <= 1/2` the size is above `M_MAX` and it fails. -/
def Obligations.BfInitNpCompletesOrFailsByOperandBounds : Prop :=
  ∀ n p s, n ≠ 0 → p ≠ 0 →
    (n.toNat ≤ 2 ^ 25 → 2 ^ 32 ≤ p.toNat → ∃ t r, exec (.bfInitNp n p) s = .next t ∧
      t = { s with bfValid := true, bfM := t.bfM, bfK := t.bfK, bv := t.bv, responses := s.responses ++ [⟨0, r⟩] } ∧
      (∀ i, bitOf t i = false) ∧ 1 ≤ t.bfM.toNat ∧ t.bfM.toNat ≤ 2 ^ 32 ∧ 1 ≤ t.bfK.toNat ∧
      r.extractLsb' 0 33 = t.bfM ∧ r.extractLsb' 33 23 = 0 ∧ r.extractLsb' 56 8 = t.bfK) ∧
    (2 ^ 33 ≤ n.toNat → p.toNat ≤ 2 ^ 63 → FailsWith (.bfInitNp n p) 4 s)

/-! ## Bloom filter: data commands -/

/-- R111: the indices, their range and the incremental form. -/
def Obligations.DoubleHashingIndices : Prop :=
  ∀ (h1 h2 : Beat) (m k : ℕ), 0 < m →
    (bloomIndices h1 h2 m k).length = k ∧
    (∀ i < k, (bloomIndices h1 h2 m k)[i]? = some ((h1.toNat + i * h2.toNat) % m)) ∧
    (∀ j ∈ bloomIndices h1 h2 m k, j < m) ∧
    bloomIdx h1 h2 m 0 = h1.toNat % m ∧
    ∀ i, bloomIdx h1 h2 m (i + 1) = (bloomIdx h1 h2 m i + h2.toNat % m) % m

/-- R118 with R114: the bits of the `k` indices are 1 afterwards and every other bit is as before; nothing else
changes. -/
def Obligations.BfAddHSetsExactlyItsBits : Prop :=
  (∀ h p, opcOf h = 0x12 →
    decode h p = if flgOf h = 0 ∧ argOf h = 0 ∧ lenOf h = 0 then .ok (.bfAddH (operand p 0) (operand p 1))
      else .error .illegalField) ∧
  (∀ h1 h2 s, s.bfValid = false → FailsWith (.bfAddH h1 h2) 3 s) ∧
  ∀ h1 h2 s, StateOk s → s.bfValid = true →
    ∃ t, exec (.bfAddH h1 h2) s = .next t ∧
      t = { s with bv := t.bv, responses := s.responses ++ [⟨0, 0⟩] } ∧
      ∀ i, bitOf t i = true ↔
        bitOf s i = true ∨ ∃ l < s.bfK.toNat, i = (h1.toNat + l * h2.toNat) % s.bfM.toNat

/-- R119: 1 exactly when all `k` bits are 1; no state change. -/
def Obligations.BfTestHAnswersTheAndOfItsBits : Prop :=
  (∀ h p, opcOf h = 0x13 →
    decode h p = if flgOf h = 0 ∧ argOf h = 0 ∧ lenOf h = 0 then .ok (.bfTestH (operand p 0) (operand p 1))
      else .error .illegalField) ∧
  (∀ h1 h2 s, s.bfValid = false → FailsWith (.bfTestH h1 h2) 3 s) ∧
  ∀ h1 h2 s, s.bfValid = true →
    ∃ r, exec (.bfTestH h1 h2) s = .next { s with responses := s.responses ++ [⟨0, r⟩] } ∧ (r = 0 ∨ r = 1) ∧
      (r = 1 ↔ ∀ l < s.bfK.toNat, bitOf s ((h1.toNat + l * h2.toNat) % s.bfM.toNat) = true)

/-- R120: not unique and nothing written when all `k` bits are 1, else the pair is added and 1 answered. -/
def Obligations.BfUniqHTestsAndSets : Prop :=
  (∀ h p, opcOf h = 0x14 →
    decode h p = if flgOf h = 0 ∧ argOf h = 0 ∧ lenOf h = 0 then .ok (.bfUniqH (operand p 0) (operand p 1))
      else .error .illegalField) ∧
  (∀ h1 h2 s, s.bfValid = false → FailsWith (.bfUniqH h1 h2) 3 s) ∧
  ∀ h1 h2 s, StateOk s → s.bfValid = true →
    ((∀ l < s.bfK.toNat, bitOf s ((h1.toNat + l * h2.toNat) % s.bfM.toNat) = true) →
      exec (.bfUniqH h1 h2) s = .next { s with responses := s.responses ++ [⟨0, 0⟩] }) ∧
    (¬(∀ l < s.bfK.toNat, bitOf s ((h1.toNat + l * h2.toNat) % s.bfM.toNat) = true) →
      ∃ t, exec (.bfUniqH h1 h2) s = .next t ∧
        t = { s with bv := t.bv, responses := s.responses ++ [⟨0, 1⟩] } ∧
        ∀ i, bitOf t i = true ↔
          bitOf s i = true ∨ ∃ l < s.bfK.toNat, i = (h1.toNat + l * h2.toNat) % s.bfM.toNat)

/-- R121 and R122 with the default hashes of R172 (the model's choice for `HASH1` and `HASH2`, log 6;
`ItemCommandsUseTheGivenHashFunctions` says it for any): adding an item sets the bits of its hash pair, and testing it
answers the AND of those bits. -/
def Obligations.BfAddAndBfTestUseTheHashPair : Prop :=
  (∀ h p, opcOf h = 0x15 →
    decode h p = if flgOf h = 0 ∧ argOf h = 0 then .ok (.bfAdd (itemOf (lenOf h).toNat p)) else .error .illegalField) ∧
  (∀ h p, opcOf h = 0x16 →
    decode h p = if flgOf h = 0 ∧ argOf h = 0 then .ok (.bfTest (itemOf (lenOf h).toNat p))
      else .error .illegalField) ∧
  (∀ item s, s.bfValid = false → FailsWith (.bfAdd item) 3 s ∧ FailsWith (.bfTest item) 3 s) ∧
  ∀ item s h1 h2, StateOk s → s.bfValid = true → h1 = rh64 1 item → h2 = rh64 2 item →
    (∃ t, exec (.bfAdd item) s = .next t ∧
      t = { s with bv := t.bv, responses := s.responses ++ [⟨0, 0⟩] } ∧
      ∀ i, bitOf t i = true ↔
        bitOf s i = true ∨ ∃ l < s.bfK.toNat, i = (h1.toNat + l * h2.toNat) % s.bfM.toNat) ∧
    ∃ r, exec (.bfTest item) s = .next { s with responses := s.responses ++ [⟨0, r⟩] } ∧ (r = 0 ∨ r = 1) ∧
      (r = 1 ↔ ∀ l < s.bfK.toNat, bitOf s ((h1.toNat + l * h2.toNat) % s.bfM.toNat) = true)

/-- R123 with the default hashes of R172 (the model's choice for `HASH1` and `HASH2`, log 6;
`ItemCommandsUseTheGivenHashFunctions` says it for any): invalid entries answer 2 and touch nothing; a valid item is tested, and added when it is new. -/
def Obligations.BfUniqIsOneStepOfTheUniquenessCheck : Prop :=
  (∀ h p, opcOf h = 0x17 →
    decode h p = if flgOf h &&& 0xFE = 0 ∧ argOf h = 0 ∧ (nullOf h = true → lenOf h = 0) then
      .ok (.bfUniq (if nullOf h then .null else .item (itemOf (lenOf h).toNat p))) else .error .illegalField) ∧
  (∀ e s, s.bfValid = false → FailsWith (.bfUniq e) 3 s) ∧
  (∀ s, s.bfValid = true →
    exec (.bfUniq .null) s = .next { s with responses := s.responses ++ [⟨0, 2⟩] } ∧
    ∀ item, validItem item = false →
      exec (.bfUniq (.item item)) s = .next { s with responses := s.responses ++ [⟨0, 2⟩] }) ∧
  ∀ item s h1 h2, StateOk s → s.bfValid = true → validItem item = true → h1 = rh64 1 item → h2 = rh64 2 item →
    ((∀ l < s.bfK.toNat, bitOf s ((h1.toNat + l * h2.toNat) % s.bfM.toNat) = true) →
      exec (.bfUniq (.item item)) s = .next { s with responses := s.responses ++ [⟨0, 0⟩] }) ∧
    (¬(∀ l < s.bfK.toNat, bitOf s ((h1.toNat + l * h2.toNat) % s.bfM.toNat) = true) →
      ∃ t, exec (.bfUniq (.item item)) s = .next t ∧
        t = { s with bv := t.bv, responses := s.responses ++ [⟨0, 1⟩] } ∧
        ∀ i, bitOf t i = true ↔
          bitOf s i = true ∨ ∃ l < s.bfK.toNat, i = (h1.toNat + l * h2.toNat) % s.bfM.toNat)

/-- R126 with R53: bit `t` of the word is `bv[64*A + t]` below `bf_m` and 0 beyond; a word address with no bit below
`bf_m` fails. -/
def Obligations.BfRdReadsAWordOfTheBitVector : Prop :=
  (∀ h p, opcOf h = 0x18 →
    decode h p = if flgOf h = 0 ∧ argOf h = 0 ∧ lenOf h = 0 then .ok (.bfRd (operand p 0))
      else .error .illegalField) ∧
  (∀ a s, s.bfValid = false → FailsWith (.bfRd a) 3 s) ∧
  (∀ a s, s.bfValid = true → s.bfM.toNat ≤ 64 * a.toNat → FailsWith (.bfRd a) 5 s) ∧
  ∀ a s, StateOk s → s.bfValid = true → 64 * a.toNat < s.bfM.toNat →
    ∃ r, exec (.bfRd a) s = .next { s with responses := s.responses ++ [⟨0, r⟩] } ∧
      ∀ t < 64, r.getLsbD t = (decide (64 * a.toNat + t < s.bfM.toNat) && bitOf s (64 * a.toNat + t))

/-! ## Hash unit -/

/-- R171 on natural numbers reduced modulo `2^64`. -/
def Obligations.RhIsTheReferenceHash : Prop :=
  ∀ (absorb : ℕ → ℕ → ℕ) (mix : ℕ → ℕ → ℕ),
    (∀ h b, absorb h b = (h ^^^ b) * 0x00000100000001B3 % 2 ^ 64) →
    (∀ h c, mix h c = (h ^^^ (h >>> 33)) * c % 2 ^ 64) →
    ∀ seed item, (rh64 seed item).toNat =
      (fun h => h ^^^ (h >>> 33)) (mix (mix ((item.map BitVec.toNat).foldl absorb
        (absorb 0xCBF29CE484222325 seed.toNat)) 0xFF51AFD7ED558CCD) 0xC4CEB9FE1A85EC53)

/-- R173. -/
def Obligations.ValidItemsHoldANonWhitespaceByte : Prop :=
  ∀ item : List Byte, validItem item = true ↔
    0 < item.length ∧ ∃ (t : ℕ) (b : Byte), item[t]? = some b ∧
      b ≠ 0x09 ∧ b ≠ 0x0A ∧ b ≠ 0x0B ∧ b ≠ 0x0C ∧ b ≠ 0x0D ∧ b ≠ 0x20

/-! ## HyperLogLog -/

/-- R145. -/
def Obligations.HllInitConstructsAnEmptyEstimator : Prop :=
  (∀ h p, opcOf h = 0x20 →
    decode h p = if flgOf h = 0 ∧ lenOf h = 0 then .ok (.hllInit (argOf h)) else .error .illegalField) ∧
  ∀ a b s, b = (if a = 0 then 14 else a.toNat) →
    (b < 4 ∨ 16 < b → FailsWith (.hllInit a) 4 s) ∧
    (4 ≤ b → b ≤ 16 → ∃ t, exec (.hllInit a) s = .next t ∧
      t = { s with hllValid := true, hllB := BitVec.ofNat 5 b, reg := t.reg,
                   responses := s.responses ++ [⟨0, BitVec.ofNat 64 b⟩] } ∧
      t.hllB.toNat = b ∧ ∀ j, regRead t j = 0)

/-- R143: the low `b` bits, the bits above them, and their ranges. -/
def Obligations.SplitIsIndexAndRemainder : Prop :=
  ∀ (x : Beat) (b : ℕ), b ≤ 64 →
    splitIndex x b = x.toNat &&& (2 ^ b - 1) ∧ splitRemainder x b = x.toNat >>> b ∧
    splitIndex x b < 2 ^ b ∧ splitRemainder x b < 2 ^ (64 - b) ∧
    x.toNat = 2 ^ b * splitRemainder x b + splitIndex x b

/-- R141: for `w` of `L = 64 - b` bits the rank is the place of the first 1 bit from the top, capped at `L`. -/
def Obligations.RankIsThePositionOfTheFirstOne : Prop :=
  ∀ b w, b < 64 → w < 2 ^ (64 - b) →
    1 ≤ rank w b ∧ rank w b ≤ 64 - b ∧ (w = 0 → rank w b = 64 - b) ∧
    (w ≠ 0 → 2 ^ (64 - b - rank w b) ≤ w ∧ w < 2 ^ (64 - b - rank w b + 1))

/-- R146: the register of the index becomes the maximum of its value and the rank; nothing else changes. -/
def Obligations.HllAddHRaisesOneRegister : Prop :=
  (∀ h p, opcOf h = 0x21 →
    decode h p = if flgOf h = 0 ∧ argOf h = 0 ∧ lenOf h = 0 then .ok (.hllAddH (operand p 0))
      else .error .illegalField) ∧
  (∀ x s, s.hllValid = false → FailsWith (.hllAddH x) 3 s) ∧
  ∀ x s, StateOk s → s.hllValid = true →
    ∃ t, exec (.hllAddH x) s = .next t ∧
      t = { s with reg := t.reg, responses := s.responses ++ [⟨0, 0⟩] } ∧
      (regRead t (x.toNat % 2 ^ s.hllB.toNat)).toNat =
        max (regRead s (x.toNat % 2 ^ s.hllB.toNat)).toNat (rank (x.toNat >>> s.hllB.toNat) s.hllB.toNat) ∧
      ∀ j, j ≠ x.toNat % 2 ^ s.hllB.toNat → regRead t j = regRead s j

/-- R147 with the default hash of R172 (the model's choice for `HASHX`, log 6;
`ItemCommandsUseTheGivenHashFunctions` says it for any). -/
def Obligations.HllAddRaisesTheRegisterOfItsHash : Prop :=
  (∀ h p, opcOf h = 0x22 →
    decode h p = if flgOf h = 0 ∧ argOf h = 0 then .ok (.hllAdd (itemOf (lenOf h).toNat p))
      else .error .illegalField) ∧
  (∀ item s, s.hllValid = false → FailsWith (.hllAdd item) 3 s) ∧
  ∀ item s x, StateOk s → s.hllValid = true → x = rh64 3 item →
    ∃ t, exec (.hllAdd item) s = .next t ∧
      t = { s with reg := t.reg, responses := s.responses ++ [⟨0, 0⟩] } ∧
      (regRead t (x.toNat % 2 ^ s.hllB.toNat)).toNat =
        max (regRead s (x.toNat % 2 ^ s.hllB.toNat)).toNat (rank (x.toNat >>> s.hllB.toNat) s.hllB.toNat) ∧
      ∀ j, j ≠ x.toNat % 2 ^ s.hllB.toNat → regRead t j = regRead s j

/-- R149. -/
def Obligations.HllRdrReadsOneRegister : Prop :=
  (∀ h p, opcOf h = 0x24 →
    decode h p = if flgOf h = 0 ∧ lenOf h = 0 then .ok (.hllRdr (argOf h)) else .error .illegalField) ∧
  (∀ j s, s.hllValid = false → FailsWith (.hllRdr j) 3 s) ∧
  (∀ j s, s.hllValid = true → 2 ^ s.hllB.toNat ≤ j.toNat → FailsWith (.hllRdr j) 5 s) ∧
  ∀ j s, s.hllValid = true → j.toNat < 2 ^ s.hllB.toNat →
    ∃ r, exec (.hllRdr j) s = .next { s with responses := s.responses ++ [⟨0, r⟩] } ∧
      r.toNat = (regRead s j.toNat).toNat

/-- R142: the model's fraction is the real constant, for every number of registers. -/
def Obligations.AlphaFractionIsTheRealConstant : Prop :=
  ∀ m : ℕ, 0 < m → 0 < (alphaMM m).den ∧ ((alphaMM m).num : ℝ) / (alphaMM m).den = Sys2Proof.Spec.alphaMM m

/-- R144 and R148, the regimes without a logarithm: the raw estimate truncated. -/
def Obligations.HllEstAnswersTheRawEstimate : Prop :=
  (∀ h p, opcOf h = 0x23 →
    decode h p = if flgOf h = 0 ∧ argOf h = 0 ∧ lenOf h = 0 then .ok .hllEst else .error .illegalField) ∧
  (∀ s, s.hllValid = false → FailsWith .hllEst 3 s) ∧
  ∀ (s : State) (m : ℕ), s.hllValid = true → m = 2 ^ s.hllB.toNat →
    (Sys2Proof.Spec.rawE s ≤ 5 / 2 * (m : ℝ) ∧ Sys2Proof.Spec.zeroCount s = 0) ∨
      (5 / 2 * (m : ℝ) < Sys2Proof.Spec.rawE s ∧ Sys2Proof.Spec.rawE s ≤ 1 / 30 * 2 ^ 32) →
    exec .hllEst s = .next
      { s with responses := s.responses ++ [⟨0, BitVec.ofNat 64 ⌊Sys2Proof.Spec.rawE s⌋₊⟩] }

/-- R144 and R148, linear counting: the exact real value, truncated. -/
def Obligations.HllEstAnswersTheLinearCount : Prop :=
  ∀ (s : State) (m v : ℕ), s.hllValid = true → m = 2 ^ s.hllB.toNat → v = Sys2Proof.Spec.zeroCount s →
    Sys2Proof.Spec.rawE s ≤ 5 / 2 * (m : ℝ) → v ≠ 0 →
    exec .hllEst s = .next
      { s with responses := s.responses ++ [⟨0, BitVec.ofNat 64 ⌊(m : ℝ) * Real.log ((m : ℝ) / v)⌋₊⟩] }

/-- R144 and R148, the large-range correction: the exact real value, truncated. -/
def Obligations.HllEstAnswersTheLargeRangeCorrection : Prop :=
  ∀ (s : State) (m : ℕ), s.hllValid = true → m = 2 ^ s.hllB.toNat →
    5 / 2 * (m : ℝ) < Sys2Proof.Spec.rawE s → 1 / 30 * 2 ^ 32 < Sys2Proof.Spec.rawE s →
    Sys2Proof.Spec.rawE s < 2 ^ 32 →
    exec .hllEst s = .next
      { s with responses := s.responses ++
        [⟨0, BitVec.ofNat 64 ⌊-2 ^ 32 * Real.log (1 - Sys2Proof.Spec.rawE s / 2 ^ 32)⌋₊⟩] }

/-- R144 step 4 and R148: no estimate exists where the logarithm has none; otherwise the command always answers. -/
def Obligations.HllEstFailsExactlyOutsideTheDomain : Prop :=
  ∀ (s : State) (m : ℕ), s.hllValid = true → m = 2 ^ s.hllB.toNat →
    (5 / 2 * (m : ℝ) < Sys2Proof.Spec.rawE s → 1 / 30 * 2 ^ 32 < Sys2Proof.Spec.rawE s →
      2 ^ 32 ≤ Sys2Proof.Spec.rawE s → FailsWith .hllEst 6 s) ∧
    (Sys2Proof.Spec.rawE s ≤ 5 / 2 * (m : ℝ) ∨ Sys2Proof.Spec.rawE s < 2 ^ 32 →
      ∃ r, exec .hllEst s = .next { s with responses := s.responses ++ [⟨0, r⟩] })

/-- R151: every estimate is below `2^39`. -/
def Obligations.EstimatesStayBelowTwoToTheThirtyNine : Prop :=
  ∀ s e, StateOk s → s.hllValid = true → estimate (hllM s) (regValues s) = some e → e < 2 ^ 39

/-- R148, corner cases: once the estimate is undefined, adding keeps it undefined. -/
def Obligations.EstDomainFailureIsStickyUnderAdds : Prop :=
  ∀ s i x t, StateOk s → s.hllValid = true → FailsWith .hllEst 6 s → addedHash i = some x →
    exec i s = .next t → FailsWith .hllEst 6 t

/-! ## Encoding -/

/-- R79: the 239 opcodes outside the map are illegal and take no payload beat. -/
def Obligations.UnknownOpcodesAreIllegalAndTakeNoPayload : Prop :=
  ∀ h p, (0x02 < (opcOf h).toNat ∧ (opcOf h).toNat < 0x10) ∨ (0x18 < (opcOf h).toNat ∧ (opcOf h).toNat < 0x20) ∨
      0x24 < (opcOf h).toNat →
    payloadBeats h = 0 ∧ decode h p = .error .illegalOpcode

/-- R78: a known opcode with a reserved field set, or `NULL` with a length, is an illegal form; nothing else is. -/
def Obligations.ReservedFieldsMakeAnIllegalForm : Prop :=
  ∀ h p,
    (opcOf h ∈ [0x00, 0x01, 0x11, 0x12, 0x13, 0x14, 0x18, 0x21, 0x23] →
      (decode h p = .error .illegalField ↔ flgOf h ≠ 0 ∨ argOf h ≠ 0 ∨ lenOf h ≠ 0)) ∧
    (opcOf h ∈ [0x02, 0x10, 0x20, 0x24] →
      (decode h p = .error .illegalField ↔ flgOf h ≠ 0 ∨ lenOf h ≠ 0)) ∧
    (opcOf h ∈ [0x15, 0x16, 0x22] →
      (decode h p = .error .illegalField ↔ flgOf h ≠ 0 ∨ argOf h ≠ 0)) ∧
    (opcOf h = 0x17 →
      (decode h p = .error .illegalField ↔
        (∃ i, 0 < i ∧ (flgOf h).getLsbD i = true) ∨ argOf h ≠ 0 ∨ (h.getLsbD 8 = true ∧ lenOf h ≠ 0)))

/-- R73: the number of payload beats of every header, from `OPC` and `LEN` alone. -/
def Obligations.PayloadBeatsDependOnOpcodeAndLengthOnly : Prop :=
  ∀ h,
    (opcOf h ∈ [0x00, 0x01, 0x02, 0x20, 0x23, 0x24] → payloadBeats h = 0) ∧
    (opcOf h ∈ [0x10, 0x18, 0x21] → payloadBeats h = 1) ∧
    (opcOf h ∈ [0x11, 0x12, 0x13, 0x14] → payloadBeats h = 2) ∧
    (opcOf h ∈ [0x15, 0x16, 0x17, 0x22] → payloadBeats h = ((lenOf h).toNat + 7) / 8) ∧
    (opcOf h ∉ [0x00, 0x01, 0x02, 0x10, 0x11, 0x12, 0x13, 0x14, 0x15, 0x16, 0x17, 0x18, 0x20, 0x21, 0x22, 0x23, 0x24] →
      payloadBeats h = 0)

/-- R56, R75: item byte `t` is its lane of its payload beat, and lanes at or beyond `LEN` do not matter. -/
def Obligations.ItemBytesComeFromTheirLanes : Prop :=
  (∀ len p, (itemOf len p).length = len ∧
    ∀ t < len, (itemOf len p)[t]? = some ((p.getD (t / 8) 0).extractLsb' (8 * (t % 8)) 8)) ∧
  ∀ h p q, opcOf h ∈ [0x15, 0x16, 0x17, 0x22] →
    (∀ t < (lenOf h).toNat,
      (p.getD (t / 8) 0).extractLsb' (8 * (t % 8)) 8 = (q.getD (t / 8) 0).extractLsb' (8 * (t % 8)) 8) →
    decode h p = decode h q

/-- Every well-formed command, encoded and put before any further beats, decodes to itself and leaves them (R71 to
R76, R81). -/
def Obligations.DecodeOfEncodeIsTheCommand : Prop :=
  ∀ i rest, i.wellFormed = true → decodeBeats (encode i ++ rest) = some (.ok i, rest)

/-- Beats written out from the spec's encodings decode to the commands they stand for (R76; the model's own sanity
check). -/
def Obligations.WrittenOutBeatsDecode : Prop :=
  decode 0x0000000000040002 [] = .ok (.csrRd 4) ∧
  decode 0x0000000000070010 [0x2572] = .ok (.bfInit 7 9586) ∧
  decode 0x0000000000000014 [0x0A, 0x03] = .ok (.bfUniqH 10 3) ∧
  decode 0x0000000B00000022 [0x2E3836312E323931, 0x0000000000312E30] =
    .ok (.hllAdd [0x31, 0x39, 0x32, 0x2E, 0x31, 0x36, 0x38, 0x2E, 0x30, 0x2E, 0x31]) ∧
  decode 0x0000000000000117 [] = .ok (.bfUniq .null) ∧
  decode 0x00000000000F0024 [] = .ok (.hllRdr 15)

/-- R77: the 72 bits of a response record. -/
def Obligations.ResponseRecordLayout : Prop :=
  ∀ r : Response, (responseBits r).extractLsb' 0 8 = r.status ∧ (responseBits r).extractLsb' 8 64 = r.result

/-! ## The decoder and the step -/

/-- R84: the beat that completes a command runs it, in the state with the beat taken and the buffer empty. -/
def Obligations.StepRunsTheDecodedCommand : Prop :=
  ∀ s b rest i, s.port = .beat b :: rest →
    (s.buffer = none → payloadBeats b = 0 → decode b [] = .ok i →
      step s = exec i { s with port := rest, buffer := none }) ∧
    ∀ h p, s.buffer = some ⟨h, p⟩ → p.length + 1 = payloadBeats h → decode h (p ++ [b]) = .ok i →
      step s = exec i { s with port := rest, buffer := none }

/-- R78, R79, R181: a complete command that is no legal form fails, with its payload consumed, and only the error
summary and the response change. -/
def Obligations.StepFailsAnIllegalCommand : Prop :=
  ∀ s b rest e, s.port = .beat b :: rest →
    (s.buffer = none → payloadBeats b = 0 → decode b [] = .error e →
      step s = .next { s with
        port := rest, buffer := none, err := true, ecode := if e = .illegalOpcode then 1 else 2,
        responses := s.responses ++ [⟨if e = .illegalOpcode then 1 else 2, 0⟩] }) ∧
    ∀ h p, s.buffer = some ⟨h, p⟩ → p.length + 1 = payloadBeats h → decode h (p ++ [b]) = .error e →
      step s = .next { s with
        port := rest, buffer := none, err := true, ecode := if e = .illegalOpcode then 1 else 2,
        responses := s.responses ++ [⟨if e = .illegalOpcode then 1 else 2, 0⟩] }

/-- R85: while a command is incomplete the block collects and answers nothing; with no beat it waits as it is (R189;
log 1). -/
def Obligations.IncompleteCommandsChangeOnlyTheBuffer : Prop :=
  (∀ s b rest, s.port = .beat b :: rest →
    (s.buffer = none → 0 < payloadBeats b → step s = .next { s with port := rest, buffer := some ⟨b, []⟩ }) ∧
    ∀ h p, s.buffer = some ⟨h, p⟩ → p.length + 1 < payloadBeats h →
      step s = .next { s with port := rest, buffer := some ⟨h, p ++ [b]⟩ }) ∧
  ∀ s, s.port = [] → step s = .next s

/-- R84 over whole commands: from the idle decoder, a header and the payload beats it calls for take that many steps
and end in the command's own rule or in its failure. -/
def Obligations.BeatsOfOneCommandExecuteIt : Prop :=
  ∀ h p (s : State) rest, s.buffer = none → p.length = payloadBeats h → s.port = (h :: p).map HostEvent.beat ++ rest →
    Host.Core.run Sys2Proof.core (p.length + 1) s =
      (match decode h p with
       | .ok i => exec i { s with port := rest }
       | .error e => .next { s with
           port := rest, err := true, ecode := if e = .illegalOpcode then 1 else 2,
           responses := s.responses ++ [⟨if e = .illegalOpcode then 1 else 2, 0⟩] } : Result)

/-- R200 and R34: the reset input leaves the reset table and an empty buffer without a response, also in the middle of
a command and also when it cuts a command in execution off. -/
def Obligations.HardwareResetLeavesTheResetTable : Prop :=
  (AtResetTable State.reset ∧ State.reset.buffer = none) ∧
  ∀ s e rest, s.port = e :: rest → (e = .reset ∨ ∃ b, e = .beatCutByReset b) →
    ∃ t, step s = .next t ∧ AtResetTable t ∧ t.buffer = none ∧ t.port = rest ∧ t.responses = s.responses ∧
      ∀ i, isBloomData i = true ∨ isHllData i = true → FailsWith i 3 t

/-- The command the host places by its opcode-table bits is the one the next step runs (the model's interface; log
3). -/
def Obligations.StepOfAPlacedWordRunsIt : Prop :=
  ∀ (s : State) nbits w i, decodeTableWord nbits w = some i →
    step (s.withFetchWord nbits w) = exec i { s with buffer := none }

/-! ## The machine as a whole -/

/-- R10, R181: every step answers a next state; no command and no failure stops the block. -/
def Obligations.EveryStepAnswers : Prop :=
  ∀ s, ∃ t, step s = .next t

/-- R77, R10: a command sends exactly one response, with result 0 when its status is not 0. -/
def Obligations.EveryCommandSendsOneResponse : Prop :=
  ∀ i s t, exec i s = .next t →
    ∃ r, t.responses = s.responses ++ [r] ∧ (r.status ≠ 0 → r.result = 0) ∧
      t.buffer = s.buffer ∧ t.port = s.port

/-- R181: a failed command changes nothing but the error summary. -/
def Obligations.FailedCommandsChangeOnlyTheErrorSummary : Prop :=
  ∀ i s t r, exec i s = .next t → t.responses = s.responses ++ [r] → r.status ≠ 0 →
    t = { s with err := true, ecode := r.status, responses := s.responses ++ [⟨r.status, 0⟩] }

/-- R184: which command can return which status once its header is legal. -/
def Obligations.StatusesByCommand : Prop :=
  ∀ i s t r, exec i s = .next t → t.responses = s.responses ++ [r] →
    (i = .nop ∨ i = .sysRst → r.status = 0) ∧
    (∀ n, i = .csrRd n → r.status = 0 ∨ r.status = 5) ∧
    ((∃ k m, i = .bfInit k m) ∨ (∃ n p, i = .bfInitNp n p) ∨ (∃ b, i = .hllInit b) → r.status = 0 ∨ r.status = 4) ∧
    ((∃ a, i = .bfRd a) ∨ (∃ j, i = .hllRdr j) → r.status = 0 ∨ r.status = 3 ∨ r.status = 5) ∧
    ((∃ h1 h2, i = .bfAddH h1 h2 ∨ i = .bfTestH h1 h2 ∨ i = .bfUniqH h1 h2) ∨
      (∃ item, i = .bfAdd item ∨ i = .bfTest item ∨ i = .hllAdd item) ∨ (∃ e, i = .bfUniq e) ∨ (∃ x, i = .hllAddH x) →
      r.status = 0 ∨ r.status = 3) ∧
    (i = .hllEst → r.status = 0 ∨ r.status = 3 ∨ r.status = 6)

/-- R28, R187: a successful command leaves the error summary alone unless it is `SYS.RST`; a failed one sets `err` and
overwrites `ecode` with its own status. -/
def Obligations.TheErrorSummaryIsSticky : Prop :=
  ∀ i s t r, exec i s = .next t → t.responses = s.responses ++ [r] →
    (r.status = 0 → i ≠ .sysRst → t.err = s.err ∧ t.ecode = s.ecode) ∧
    (r.status ≠ 0 → t.err = true ∧ t.ecode = r.status)

/-- R22, R25: only construction and reset change a configuration. -/
def Obligations.ConfigurationsAreImmutable : Prop :=
  ∀ i s t, exec i s = .next t →
    (discardsFilter i = false → t.bfValid = s.bfValid ∧ t.bfM = s.bfM ∧ t.bfK = s.bfK) ∧
    (discardsEstimator i = false → t.hllValid = s.hllValid ∧ t.hllB = s.hllB)

/-- R2: a Bloom command neither writes nor reads HyperLogLog state, and the other way round: with that state replaced
by any other the command does the same. -/
def Obligations.TheTwoStructuresAreIndependent : Prop :=
  (∀ i s t v b g, isBloom i = true → exec i s = .next t →
    (t.hllValid = s.hllValid ∧ t.hllB = s.hllB ∧ t.reg = s.reg) ∧
    exec i { s with hllValid := v, hllB := b, reg := g } = .next { t with hllValid := v, hllB := b, reg := g }) ∧
  ∀ i s t v m k c, isHll i = true → exec i s = .next t →
    (t.bfValid = s.bfValid ∧ t.bfM = s.bfM ∧ t.bfK = s.bfK ∧ t.bv = s.bv) ∧
    exec i { s with bfValid := v, bfM := m, bfK := k, bv := c } =
      .next { t with bfValid := v, bfM := m, bfK := k, bv := c }

/-- R58: the reading commands change no state when they succeed. -/
def Obligations.QueriesChangeNoState : Prop :=
  ∀ i s t r, exec i s = .next t → t.responses = s.responses ++ [r] → r.status = 0 →
    (∃ n, i = .csrRd n) ∨ (∃ h1 h2, i = .bfTestH h1 h2) ∨ (∃ item, i = .bfTest item) ∨ (∃ a, i = .bfRd a) ∨
      i = .hllEst ∨ (∃ j, i = .hllRdr j) →
    t = { s with responses := s.responses ++ [r] }

/-- R110, R140, R183: a data command on a structure that is not constructed fails with `NOT_CONFIGURED`, whatever its
operands. -/
def Obligations.DataCommandsNeedTheirStructure : Prop :=
  ∀ i s, (isBloomData i = true → s.bfValid = false → FailsWith i 3 s) ∧
    (isHllData i = true → s.hllValid = false → FailsWith i 3 s) ∧
    (isBloomData i = false → isHllData i = false → ¬FailsWith i 3 s)

/-- R24 (b): a bit that is 1 stays 1 under every command that does not discard the filter; R23: only the adding
commands write bits. -/
def Obligations.BitsAreNeverCleared : Prop :=
  ∀ i s t, StateOk s → exec i s = .next t → discardsFilter i = false →
    (∀ j, bitOf s j = true → bitOf t j = true) ∧ (addedPair i = none → t.bv = s.bv)

/-- R27 (b): no register decreases under a command that does not discard the estimator; R26: only the adding commands
write registers. -/
def Obligations.RegistersNeverDecrease : Prop :=
  ∀ i s t, StateOk s → exec i s = .next t → discardsEstimator i = false →
    (∀ j, (regRead s j).toNat ≤ (regRead t j).toNat) ∧ (addedHash i = none → t.reg = s.reg)

/-- R22, R24 (a), R27, R28, R51, R77, R84: every step keeps the invariant. -/
def Obligations.EveryStepKeepsTheInvariant : Prop :=
  ∀ s t, StateOk s → step s = .next t → StateOk t

/-- The reset state has the invariant. -/
def Obligations.ResetHasTheInvariant : Prop :=
  StateOk State.reset

/-- R24 (c), items with the default hashes of R172 (log 6): no false negatives: a pair or an item that has been added
tests 1 after any further commands that do not discard the filter. -/
def Obligations.NoFalseNegatives : Prop :=
  ∀ s t u is, StateOk s → s.bfValid = true → (∀ i ∈ is, discardsFilter i = false) → execAll is t = .next u →
    (∀ h1 h2, exec (.bfAddH h1 h2) s = .next t →
      exec (.bfTestH h1 h2) u = .next { u with responses := u.responses ++ [⟨0, 1⟩] }) ∧
    (∀ item, exec (.bfAdd item) s = .next t →
      exec (.bfTest item) u = .next { u with responses := u.responses ++ [⟨0, 1⟩] })

/-- R127: the bit vector after commands that do not discard the filter depends only on the set of pairs they add. -/
def Obligations.TheBitVectorIsOrderIndependent : Prop :=
  ∀ s t u is js, StateOk s → s.bfValid = true →
    (∀ i ∈ is, discardsFilter i = false) → (∀ i ∈ js, discardsFilter i = false) →
    (∀ q, (∃ i ∈ is, addedPair i = some q) ↔ ∃ i ∈ js, addedPair i = some q) →
    execAll is s = .next t → execAll js s = .next u → t.bv = u.bv

/-- R150: the registers after commands that do not discard the estimator depend only on the set of hash values they
add, and so does the estimate. -/
def Obligations.TheRegistersAreOrderIndependent : Prop :=
  ∀ s t u is js, StateOk s → s.hllValid = true →
    (∀ i ∈ is, discardsEstimator i = false) → (∀ i ∈ js, discardsEstimator i = false) →
    (∀ x, (∃ i ∈ is, addedHash i = some x) ↔ ∃ i ∈ js, addedHash i = some x) →
    execAll is s = .next t → execAll js s = .next u →
    t.reg = u.reg ∧ ∀ t' u', exec .hllEst t = .next t' → exec .hllEst u = .next u' →
      t'.responses.getLast? = u'.responses.getLast?

/-! ## Every hash unit (R5, R170) -/

/-- R121, R122, R123 and R147 for every choice of `HASH1`, `HASH2`, `HASHX` (R170: functions of the item bytes alone), and
the default unit of R172 is the one of `exec` (log 6). -/
def Obligations.ItemCommandsUseTheGivenHashFunctions : Prop :=
  (∀ h p, opcOf h = 0x15 →
    decode h p = if flgOf h = 0 ∧ argOf h = 0 then .ok (.bfAdd (itemOf (lenOf h).toNat p)) else .error .illegalField) ∧
  (∀ h p, opcOf h = 0x16 →
    decode h p = if flgOf h = 0 ∧ argOf h = 0 then .ok (.bfTest (itemOf (lenOf h).toNat p))
      else .error .illegalField) ∧
  (∀ h p, opcOf h = 0x17 →
    decode h p = if flgOf h &&& 0xFE = 0 ∧ argOf h = 0 ∧ (nullOf h = true → lenOf h = 0) then
      .ok (.bfUniq (if nullOf h then .null else .item (itemOf (lenOf h).toNat p))) else .error .illegalField) ∧
  (∀ h p, opcOf h = 0x22 →
    decode h p = if flgOf h = 0 ∧ argOf h = 0 then .ok (.hllAdd (itemOf (lenOf h).toNat p))
      else .error .illegalField) ∧
  (∀ i s, execWith defaultHash i s = exec i s) ∧
  ∀ (u : HashUnit) (item : List Byte) (s : State),
    (s.bfValid = false → ∀ i, i = .bfAdd item ∨ i = .bfTest item ∨ i = .bfUniq (.item item) ∨ i = .bfUniq .null →
      execWith u i s = .next { s with err := true, ecode := 3, responses := s.responses ++ [⟨3, 0⟩] }) ∧
    (s.hllValid = false →
      execWith u (.hllAdd item) s =
        .next { s with err := true, ecode := 3, responses := s.responses ++ [⟨3, 0⟩] }) ∧
    (StateOk s → s.bfValid = true → ∀ h1 h2, h1 = u.hash1 item → h2 = u.hash2 item →
      execWith u (.bfAdd item) s = execWith u (.bfAddH h1 h2) s ∧
      (∃ t, execWith u (.bfAdd item) s = .next t ∧
        t = { s with bv := t.bv, responses := s.responses ++ [⟨0, 0⟩] } ∧
        ∀ i, bitOf t i = true ↔
          bitOf s i = true ∨ ∃ l < s.bfK.toNat, i = (h1.toNat + l * h2.toNat) % s.bfM.toNat) ∧
      (∃ r, execWith u (.bfTest item) s = .next { s with responses := s.responses ++ [⟨0, r⟩] } ∧ (r = 0 ∨ r = 1) ∧
        (r = 1 ↔ ∀ l < s.bfK.toNat, bitOf s ((h1.toNat + l * h2.toNat) % s.bfM.toNat) = true)) ∧
      execWith u (.bfUniq .null) s = .next { s with responses := s.responses ++ [⟨0, 2⟩] } ∧
      (validItem item = false →
        execWith u (.bfUniq (.item item)) s = .next { s with responses := s.responses ++ [⟨0, 2⟩] }) ∧
      (validItem item = true →
        ((∀ l < s.bfK.toNat, bitOf s ((h1.toNat + l * h2.toNat) % s.bfM.toNat) = true) →
          execWith u (.bfUniq (.item item)) s = .next { s with responses := s.responses ++ [⟨0, 0⟩] }) ∧
        (¬(∀ l < s.bfK.toNat, bitOf s ((h1.toNat + l * h2.toNat) % s.bfM.toNat) = true) →
          ∃ t, execWith u (.bfUniq (.item item)) s = .next t ∧
            t = { s with bv := t.bv, responses := s.responses ++ [⟨0, 1⟩] } ∧
            ∀ i, bitOf t i = true ↔
              bitOf s i = true ∨ ∃ l < s.bfK.toNat, i = (h1.toNat + l * h2.toNat) % s.bfM.toNat))) ∧
    (StateOk s → s.hllValid = true → ∀ x, x = u.hashX item →
      ∃ t, execWith u (.hllAdd item) s = .next t ∧
        t = { s with reg := t.reg, responses := s.responses ++ [⟨0, 0⟩] } ∧
        (regRead t (x.toNat % 2 ^ s.hllB.toNat)).toNat =
          max (regRead s (x.toNat % 2 ^ s.hllB.toNat)).toNat (rank (x.toNat >>> s.hllB.toNat) s.hllB.toNat) ∧
        ∀ j, j ≠ x.toNat % 2 ^ s.hllB.toNat → regRead t j = regRead s j)

/-- R22, R24 (a), R27, R28, R51, R77, R84 for a block with any hash functions (R5, R170): every step keeps the
invariant. -/
def Obligations.EveryStepKeepsTheInvariantForEveryHashUnit : Prop :=
  ∀ (u : HashUnit) (s t : State), StateOk s → stepWith u s = .next t → StateOk t
end

