-- ==== Sys2Proof/Laws/Memory.lean ====
section
/-! SUPPORT. The laws of a storage space: a write keeps the canonical form, a read after a write, and two canonical
storages that read alike are equal; and what they say of the bits of the bit vector. -/

namespace Sys2Proof.Machine

variable {w : Nat}

@[simp] theorem memRead_nil (a : Nat) : memRead ([] : Memory w) a = 0 := rfl

theorem memRead_cons (k : Nat) (v : BitVec w) (rest : Memory w) (a : Nat) :
    memRead ((k, v) :: rest) a = if k = a then v else memRead rest a := rfl

theorem Memory.wf_nil : Memory.wf ([] : Memory w) := by simp [Memory.wf]

theorem Memory.wf_cons {k : Nat} {v : BitVec w} {rest : Memory w} :
    Memory.wf ((k, v) :: rest) ↔ (∀ c ∈ rest, k < c.1) ∧ v ≠ 0 ∧ Memory.wf rest := by
  simp only [Memory.wf, List.pairwise_cons, List.forall_mem_cons]
  tauto

/-- A cell of a canonical storage is what its address reads as. -/
theorem memRead_of_mem {mem : Memory w} (h : Memory.wf mem) {c : Nat × BitVec w} (hc : c ∈ mem) :
    memRead mem c.1 = c.2 := by
  induction mem with
  | nil => cases hc
  | cons d rest ih =>
    obtain ⟨k, v⟩ := d
    obtain ⟨hlt, -, hr⟩ := Memory.wf_cons.1 h
    rcases List.mem_cons.1 hc with rfl | hc
    · simp [memRead_cons]
    · rw [memRead_cons, if_neg (Nat.ne_of_lt (hlt c hc)), ih hr hc]

/-- An address that reads as something else than 0 has a cell. -/
theorem mem_of_memRead_ne {mem : Memory w} {a : Nat} (h : memRead mem a ≠ 0) : (a, memRead mem a) ∈ mem := by
  induction mem with
  | nil => exact absurd rfl h
  | cons d rest ih =>
    obtain ⟨k, v⟩ := d
    rw [memRead_cons] at h ⊢
    split at h <;> rename_i hk
    · subst hk; simp
    · rw [if_neg hk]; exact List.mem_cons_of_mem _ (ih h)

/-- Below the first address of the storage everything reads as 0. -/
theorem memRead_of_lt {mem : Memory w} {a : Nat} (h : ∀ c ∈ mem, a < c.1) : memRead mem a = 0 := by
  by_contra hne
  exact Nat.lt_irrefl _ (h _ (mem_of_memRead_ne hne))

/-- The cells of a written storage: the new cell, or an old one. -/
theorem mem_memWrite {mem : Memory w} {a : Nat} {v : BitVec w} {c : Nat × BitVec w}
    (h : c ∈ memWrite mem a v) : (c = (a, v) ∧ v ≠ 0) ∨ c ∈ mem := by
  induction mem with
  | nil =>
    simp only [memWrite] at h
    split at h <;> simp_all
  | cons d rest ih =>
    obtain ⟨k, x⟩ := d
    simp only [memWrite] at h
    split at h
    · split at h
      · exact .inr h
      · rcases List.mem_cons.1 h with rfl | h
        · exact .inl ⟨rfl, ‹_›⟩
        · exact .inr h
    · split at h
      · split at h
        · exact .inr (List.mem_cons_of_mem _ h)
        · rcases List.mem_cons.1 h with rfl | h
          · exact .inl ⟨rfl, ‹_›⟩
          · exact .inr (List.mem_cons_of_mem _ h)
      · rcases List.mem_cons.1 h with rfl | h
        · exact .inr List.mem_cons_self
        · exact (ih h).imp_right (List.mem_cons_of_mem _)

/-- A write keeps the canonical form. -/
theorem memWrite_wf {mem : Memory w} (h : Memory.wf mem) (a : Nat) (v : BitVec w) :
    Memory.wf (memWrite mem a v) := by
  induction mem with
  | nil =>
    simp only [memWrite]
    split
    · exact Memory.wf_nil
    · exact Memory.wf_cons.2 ⟨by simp, ‹_›, Memory.wf_nil⟩
  | cons d rest ih =>
    obtain ⟨k, x⟩ := d
    obtain ⟨hlt, hx, hr⟩ := Memory.wf_cons.1 h
    simp only [memWrite]
    split <;> rename_i hak
    · split
      · exact h
      · refine Memory.wf_cons.2 ⟨?_, ‹_›, h⟩
        intro c hc
        rcases List.mem_cons.1 hc with rfl | hc
        · exact hak
        · exact Nat.lt_trans hak (hlt c hc)
    · split <;> rename_i hk
      · subst hk
        split
        · exact hr
        · exact Memory.wf_cons.2 ⟨hlt, ‹_›, hr⟩
      · refine Memory.wf_cons.2 ⟨?_, hx, ih hr⟩
        intro c hc
        rcases mem_memWrite hc with ⟨rfl, -⟩ | hc
        · show k < a; omega
        · exact hlt c hc

/-- A read after a write: the written value at its address, every other address as before. -/
theorem memRead_memWrite {mem : Memory w} (h : Memory.wf mem) (a : Nat) (v : BitVec w) (b : Nat) :
    memRead (memWrite mem a v) b = if b = a then v else memRead mem b := by
  induction mem with
  | nil =>
    simp only [memWrite]
    split
    · subst v; simp
    · simp [memRead_cons, eq_comm]
  | cons d rest ih =>
    obtain ⟨k, x⟩ := d
    obtain ⟨hlt, -, hr⟩ := Memory.wf_cons.1 h
    simp only [memWrite]
    split <;> rename_i hak
    · have h0 : memRead ((k, x) :: rest) a = 0 :=
        memRead_of_lt (fun c hc => by
          rcases List.mem_cons.1 hc with rfl | hc
          · exact hak
          · exact Nat.lt_trans hak (hlt c hc))
      split
      · subst v
        split
        · subst b; exact h0
        · rfl
      · rw [memRead_cons]
        by_cases hb : a = b
        · simp [hb]
        · rw [if_neg hb, if_neg (Ne.symm hb)]
    · split <;> rename_i hk
      · subst hk
        have h0 : memRead rest a = 0 := memRead_of_lt hlt
        split
        · subst v
          by_cases hb : b = a
          · subst hb; rw [h0, if_pos rfl]
          · rw [if_neg hb, memRead_cons, if_neg (Ne.symm hb)]
        · rw [memRead_cons, memRead_cons]
          by_cases hb : b = a
          · subst hb; simp
          · rw [if_neg (Ne.symm hb), if_neg hb, if_neg (Ne.symm hb)]
      · rw [memRead_cons, memRead_cons, ih hr]
        by_cases hb : b = a
        · subst hb; rw [if_neg (by omega), if_pos rfl, if_pos rfl]
        · rw [if_neg hb, if_neg hb]

/-- Two canonical storages that read alike are equal. -/
theorem memory_ext {m₁ m₂ : Memory w} (h₁ : Memory.wf m₁) (h₂ : Memory.wf m₂)
    (h : ∀ a, memRead m₁ a = memRead m₂ a) : m₁ = m₂ := by
  induction m₁ generalizing m₂ with
  | nil =>
    cases m₂ with
    | nil => rfl
    | cons d rest =>
      have hd := memRead_of_mem h₂ (List.mem_cons_self (a := d) (l := rest))
      rw [← h] at hd
      exact absurd hd.symm (h₂.2 d List.mem_cons_self)
  | cons c rest₁ ih =>
    cases m₂ with
    | nil =>
      have hc := memRead_of_mem h₁ (List.mem_cons_self (a := c) (l := rest₁))
      rw [h] at hc
      exact absurd hc.symm (h₁.2 c List.mem_cons_self)
    | cons d rest₂ =>
      obtain ⟨k, v⟩ := c
      obtain ⟨l, u⟩ := d
      obtain ⟨hk, hv, hr₁⟩ := Memory.wf_cons.1 h₁
      obtain ⟨hl, hu, hr₂⟩ := Memory.wf_cons.1 h₂
      have hkl : k = l := by
        rcases Nat.lt_trichotomy k l with hlt | heq | hgt
        · have := h k
          rw [memRead_cons, if_pos rfl, memRead_of_lt (mem := (l, u) :: rest₂) (fun c hc => by
            rcases List.mem_cons.1 hc with rfl | hc
            · exact hlt
            · exact Nat.lt_trans hlt (hl c hc))] at this
          exact absurd this hv
        · exact heq
        · have := h l
          rw [memRead_cons (a := l) (k := l), if_pos rfl, memRead_of_lt (mem := (k, v) :: rest₁) (fun c hc => by
            rcases List.mem_cons.1 hc with rfl | hc
            · exact hgt
            · exact Nat.lt_trans hgt (hk c hc))] at this
          exact absurd this.symm hu
      subst hkl
      have hvu : v = u := by simpa [memRead_cons] using h k
      subst hvu
      congr 1
      refine ih hr₁ hr₂ fun a => ?_
      by_cases ha : k = a
      · subst ha; rw [memRead_of_lt hk, memRead_of_lt hl]
      · simpa [memRead_cons, ha] using h a

/-! ## Bits of the bit vector (R52) -/

theorem getLsbD_two_pow (i j : Nat) (hj : j < 8) : (BitVec.ofNat 8 (2 ^ i)).getLsbD j = decide (i = j) := by
  rw [BitVec.getLsbD_ofNat, Nat.testBit_two_pow, decide_eq_true hj, Bool.true_and]

@[simp] theorem bvBit_nil (i : Nat) : bvBit [] i = false := by simp [bvBit]

theorem bvSetBit_wf {bv : Memory 8} (h : Memory.wf bv) (i : Nat) : Memory.wf (bvSetBit bv i) := memWrite_wf h _ _

/-- Setting a bit sets that bit and no other. -/
theorem bvBit_bvSetBit {bv : Memory 8} (h : Memory.wf bv) (i j : Nat) :
    bvBit (bvSetBit bv i) j = (bvBit bv j || decide (i = j)) := by
  unfold bvBit bvSetBit
  rw [memRead_memWrite h]
  have hj : j % 8 < 8 := Nat.mod_lt _ (by decide)
  split <;> rename_i hij
  · rw [BitVec.getLsbD_or, getLsbD_two_pow _ _ hj, hij]
    congr 1
    exact decide_eq_decide.2 (by omega)
  · rw [decide_eq_false (by omega), Bool.or_false]

theorem foldl_bvSetBit_wf {bv : Memory 8} (h : Memory.wf bv) (is : List Nat) :
    Memory.wf (is.foldl bvSetBit bv) := by
  induction is generalizing bv with
  | nil => exact h
  | cons i rest ih => exact ih (bvSetBit_wf h i)

/-- The parallel set (R114): a bit is 1 afterwards when it was 1 or its index is one of those set. -/
theorem bvBit_foldl_bvSetBit {bv : Memory 8} (h : Memory.wf bv) (is : List Nat) (j : Nat) :
    bvBit (is.foldl bvSetBit bv) j = (bvBit bv j || is.contains j) := by
  induction is generalizing bv with
  | nil => simp
  | cons i rest ih =>
    rw [List.foldl_cons, ih (bvSetBit_wf h i), bvBit_bvSetBit h, List.contains_cons, Bool.or_assoc]
    congr 2
    exact decide_eq_decide.2 eq_comm

/-- Two canonical bit vectors with the same bits are equal. -/
theorem bv_ext {b₁ b₂ : Memory 8} (h₁ : Memory.wf b₁) (h₂ : Memory.wf b₂)
    (h : ∀ i, bvBit b₁ i = bvBit b₂ i) : b₁ = b₂ := by
  refine memory_ext h₁ h₂ fun a => BitVec.eq_of_getLsbD_eq fun i hi => ?_
  have := h (8 * a + i)
  simpa [bvBit, Nat.mul_add_div, Nat.div_eq_of_lt hi, Nat.mod_eq_of_lt hi] using this

/-- No bit at or beyond `m` is 1, in terms of the cells (R51). -/
theorem cells_below_iff {bv : Memory 8} (h : Memory.wf bv) (m : Nat) :
    (∀ c ∈ bv, 8 * c.1 + Nat.log2 c.2.toNat < m) ↔ ∀ i, bvBit bv i = true → i < m := by
  constructor
  · intro hc i hi
    have hne : memRead bv (i / 8) ≠ 0 := by
      intro h0; rw [bvBit, h0] at hi; simp at hi
    have := hc _ (mem_of_memRead_ne hne)
    have hle : i % 8 ≤ Nat.log2 (memRead bv (i / 8)).toNat := by
      rw [bvBit, BitVec.getLsbD, ] at hi
      have h2 := Nat.ge_two_pow_of_testBit hi
      have hnz : (memRead bv (i / 8)).toNat ≠ 0 := by
        intro h0; rw [h0] at h2; exact absurd h2 (by simp)
      exact (Nat.le_log2 hnz).2 h2
    simp only at this
    omega
  · intro hb c hc
    have hr := memRead_of_mem h hc
    have hnz : c.2.toNat ≠ 0 := by
      intro h0; exact h.2 c hc (BitVec.eq_of_toNat_eq (by simpa using h0))
    have hlt : Nat.log2 c.2.toNat < 8 := (Nat.log2_lt hnz).2 c.2.isLt
    apply hb
    rw [bvBit, Nat.mul_add_div (by decide), Nat.div_eq_of_lt hlt, Nat.mul_add_mod, Nat.mod_eq_of_lt hlt,
      Nat.add_zero, hr, BitVec.getLsbD]
    exact Nat.testBit_log2 hnz

end Sys2Proof.Machine
end

