-- ==== Sys2Proof/Laws/Bloom.lean ====
section
/-! SUPPORT. What the shared operations of the Bloom commands do: the parallel set and test by their bits (R111, R114),
the read-back word (R53) and the construction result (R115). -/

namespace Sys2Proof.Machine

theorem bfSetBits_bit {s : State} (h : Memory.wf s.bv) (h1 h2 : Beat) (i : Nat) :
    bvBit (bfSetBits h1 h2 s).bv i = true ↔
      bvBit s.bv i = true ∨ ∃ l < s.bfK.toNat, i = (h1.toNat + l * h2.toNat) % s.bfM.toNat := by
  show bvBit ((bloomIndices h1 h2 s.bfM.toNat s.bfK.toNat).foldl bvSetBit s.bv) i = true ↔ _
  rw [bvBit_foldl_bvSetBit h, Bool.or_eq_true, List.contains_iff_mem]
  simp only [bloomIndices, bloomIdx, List.mem_map, List.mem_range]
  exact or_congr_right ⟨fun ⟨l, h, e⟩ => ⟨l, h, e.symm⟩, fun ⟨l, h, e⟩ => ⟨l, h, e.symm⟩⟩

theorem bfTestBits_iff (h1 h2 : Beat) (s : State) :
    bfTestBits h1 h2 s = true ↔
      ∀ l < s.bfK.toNat, bvBit s.bv ((h1.toNat + l * h2.toNat) % s.bfM.toNat) = true := by
  simp only [bfTestBits, List.all_eq_true, bloomIndices, bloomIdx, List.mem_map, List.mem_range]
  exact ⟨fun h l hl => h _ ⟨l, hl, rfl⟩, fun h i ⟨l, hl, e⟩ => e ▸ h l hl⟩

theorem bvByte_bit (s : State) (a i : Nat) (hi : i < 8) :
    (bvByte s a).getLsbD i = (decide (a < ceilDiv s.bfM.toNat 8) && bvBit s.bv (8 * a + i)) := by
  unfold bvByte bvBit
  rw [show (8 * a + i) / 8 = a by omega, show (8 * a + i) % 8 = i by omega]
  split <;> simp [*]

/-- Bit `t` of `MemRead(BV, a, n)`. -/
theorem bvMemRead_bit (s : State) (n a t : Nat) :
    (bvMemRead s a n).testBit t = (decide (t < 8 * n) && (bvByte s (a + t / 8)).getLsbD (t % 8)) := by
  induction n generalizing a t with
  | zero => simp [bvMemRead]
  | succ n ih =>
    have : bvMemRead s a (n + 1) = 2 ^ 8 * bvMemRead s (a + 1) n + (bvByte s a).toNat := by simp [bvMemRead]; omega
    rw [this, Nat.testBit_two_pow_mul_add _ (bvByte s a).isLt]
    by_cases h8 : t < 8
    · simp [h8, show t < 8 * (n + 1) by omega, Nat.div_eq_of_lt h8, Nat.mod_eq_of_lt h8, BitVec.getLsbD]
    · rw [if_neg h8, ih]
      rw [show (t - 8) / 8 = t / 8 - 1 by omega, show (t - 8) % 8 = t % 8 by omega,
        show a + 1 + (t / 8 - 1) = a + t / 8 by omega]
      congr 1; exact decide_eq_decide.2 (by omega)

theorem legalFilter_iff (m k : Nat) : legalFilter m k = true ↔ 1 ≤ m ∧ m ≤ 2 ^ 32 ∧ 1 ≤ k ∧ k ≤ 255 := by
  unfold legalFilter Config.mMax Config.kMax
  rw [Bool.and_eq_true, decide_eq_true_iff, decide_eq_true_iff]
  tauto

theorem constructionResult_getLsbD (m : BitVec 33) (k : BitVec 8) (i : Nat) :
    (constructionResult m k).getLsbD i =
      if i < 33 then m.getLsbD i else if i < 56 then false else k.getLsbD (i - 56) := by
  have h : (constructionResult m k).getLsbD i = BitVec.getLsbD (w := 8 + 23 + 33) (k ++ (0 : BitVec 23) ++ m) i := rfl
  rw [h, BitVec.getLsbD_append, BitVec.getLsbD_append]
  by_cases h1 : i < 33
  · simp [h1]
  by_cases h2 : i < 56
  · simp [h1, h2, show i - 33 < 23 by omega]
  · simp [h1, h2, show ¬i - 33 < 23 by omega, show i - 33 - 23 = i - 56 by omega]

theorem requireFilter_of_valid {s : State} (h : s.bfValid = true) (go : Result) : requireFilter s go = go := by
  simp [requireFilter, h]

theorem requireFilter_of_not {s : State} (h : s.bfValid = false) (go : Result) :
    requireFilter s go = raise .notConfigured s := by simp [requireFilter, h]

end Sys2Proof.Machine
end

