-- ==== Sys2Proof/Laws/Decode.lean ====
section
/-! SUPPORT. Laws of the decoder and the encoder: the fields of a header, the legal form of each command in terms of
its fields (R71, R76, R78), the number of payload beats (R73) and the bytes of an item (R56, R75). -/

namespace Sys2Proof

/-! ## Header fields -/

theorem getLsbD_header (o f : BitVec 8) (a : BitVec 16) (l : BitVec 32) (i : Nat) :
    (header o f a l).getLsbD i =
      if i < 8 then o.getLsbD i else if i < 16 then f.getLsbD (i - 8)
      else if i < 32 then a.getLsbD (i - 16) else l.getLsbD (i - 32) := by
  have h : (header o f a l).getLsbD i = BitVec.getLsbD (w := 32 + 16 + 8 + 8) (l ++ a ++ f ++ o) i := rfl
  rw [h, BitVec.getLsbD_append, BitVec.getLsbD_append, BitVec.getLsbD_append]
  by_cases h1 : i < 8
  · simp [h1]
  by_cases h2 : i < 16
  · simp [h1, h2, show i - 8 < 8 by omega]
  by_cases h3 : i < 32
  · simp [h1, h2, h3, show ¬ i - 8 < 8 by omega, show i - 8 - 8 = i - 16 by omega, show i - 16 < 16 by omega]
  · simp [h1, h2, h3, show ¬ i - 8 < 8 by omega, show ¬ i - 8 - 8 < 16 by omega, show i - 8 - 8 - 16 = i - 32 by omega]

@[simp] theorem opcOf_header (o f : BitVec 8) (a : BitVec 16) (l : BitVec 32) : opcOf (header o f a l) = o := by
  refine BitVec.eq_of_getLsbD_eq fun i hi => ?_
  rw [opcOf, BitVec.getLsbD_extractLsb', getLsbD_header]
  simp [hi]

@[simp] theorem flgOf_header (o f : BitVec 8) (a : BitVec 16) (l : BitVec 32) : flgOf (header o f a l) = f := by
  refine BitVec.eq_of_getLsbD_eq fun i hi => ?_
  rw [flgOf, BitVec.getLsbD_extractLsb', getLsbD_header]
  simp [hi, show 8 + i < 16 by omega]

@[simp] theorem argOf_header (o f : BitVec 8) (a : BitVec 16) (l : BitVec 32) : argOf (header o f a l) = a := by
  refine BitVec.eq_of_getLsbD_eq fun i hi => ?_
  rw [argOf, BitVec.getLsbD_extractLsb', getLsbD_header]
  simp [hi, show ¬ 16 + i < 8 by omega, show 16 + i < 32 by omega]

@[simp] theorem lenOf_header (o f : BitVec 8) (a : BitVec 16) (l : BitVec 32) : lenOf (header o f a l) = l := by
  refine BitVec.eq_of_getLsbD_eq fun i hi => ?_
  rw [lenOf, BitVec.getLsbD_extractLsb', getLsbD_header]
  simp [hi, show ¬ 32 + i < 8 by omega, show ¬ 32 + i < 16 by omega]

@[simp] theorem nullOf_header (o f : BitVec 8) (a : BitVec 16) (l : BitVec 32) : nullOf (header o f a l) = f.getLsbD 0 := by
  rw [nullOf, getLsbD_header]; simp

theorem header_fields (h : Beat) : header (opcOf h) (flgOf h) (argOf h) (lenOf h) = h := by
  refine BitVec.eq_of_getLsbD_eq fun i hi => ?_
  rw [getLsbD_header]
  simp only [opcOf, flgOf, argOf, lenOf, BitVec.getLsbD_extractLsb']
  split
  · simp [*]
  split
  · rw [decide_eq_true (by omega), Bool.true_and]; congr 1; omega
  split
  · rw [decide_eq_true (by omega), Bool.true_and]; congr 1; omega
  · rw [decide_eq_true (by omega), Bool.true_and]; congr 1; omega

theorem header_and (o f o' f' : BitVec 8) (a a': BitVec 16) (l l': BitVec 32) :
    header o f a l &&& header o' f' a' l' = header (o &&& o') (f &&& f') (a &&& a') (l &&& l') := by
  refine BitVec.eq_of_getLsbD_eq fun i hi => ?_
  rw [BitVec.getLsbD_and]
  simp only [getLsbD_header, BitVec.getLsbD_and]
  split_ifs <;> rfl

theorem header_inj (o f o' f' : BitVec 8) (a a': BitVec 16) (l l': BitVec 32) :
    header o f a l = header o' f' a' l' ↔ o = o' ∧ f = f' ∧ a = a' ∧ l = l' := by
  constructor
  · intro h
    refine ⟨?_, ?_, ?_, ?_⟩
    · rw [← opcOf_header o f a l, h, opcOf_header]
    · rw [← flgOf_header o f a l, h, flgOf_header]
    · rw [← argOf_header o f a l, h, argOf_header]
    · rw [← lenOf_header o f a l, h, lenOf_header]
  · rintro ⟨rfl, rfl, rfl, rfl⟩; rfl

/-- A mask test of a header, field by field. -/
theorem mask_eq_iff (h : Beat) (o mf : BitVec 8) (ma : BitVec 16) (ml : BitVec 32) :
    (h &&& header 0xFF mf ma ml == header o 0 0 0) =
      decide (opcOf h = o ∧ flgOf h &&& mf = 0 ∧ argOf h &&& ma = 0 ∧ lenOf h &&& ml = 0) := by
  rw [Bool.eq_iff_iff, beq_iff_eq, decide_eq_true_iff]
  conv_lhs => rw [← header_fields h]
  rw [header_and, header_inj]
  have : opcOf h &&& 0xFF = opcOf h := BitVec.and_allOnes
  rw [this]

theorem and_ones8 (x : BitVec 8) : x &&& 0xFF = x := BitVec.and_allOnes

theorem and_ones16 (x : BitVec 16) : x &&& 0xFFFF = x := BitVec.and_allOnes

theorem and_ones32 (x : BitVec 32) : x &&& 0xFFFFFFFF = x := BitVec.and_allOnes

theorem and_zero16 (x : BitVec 16) : x &&& 0 = 0 := BitVec.and_zero

theorem and_zero32 (x : BitVec 32) : x &&& 0 = 0 := BitVec.and_zero

theorem if_mask {α : Type} (c : Prop) [Decidable c] (o : Op) (n z : Bool) (ho : o ≠ .bfUniq) (a b : α) :
    (if (decide c && !(o == .bfUniq && n && z)) = true then a else b) = if c then a else b := by
  have : (o == Op.bfUniq) = false := by simpa using ho
  simp [this]

/-! ## Each command: its legal form by fields, and its payload beats -/

theorem rowOf_nop : rowOf 0x00 = some ⟨.nop, 0x00, .Z, header 0xFF 0xFF 0xFFFF 0xFFFFFFFF, header 0x00 0 0 0⟩ := by decide

theorem decode_nop (h : Beat) (p : List Beat) (ho : opcOf h = 0x00) :
    decode h p = if flgOf h = 0 ∧ argOf h = 0 ∧ lenOf h = 0 then .ok (.nop) else .error .illegalField := by
  simp only [decode, ho, rowOf_nop, legalHeader, mask_eq_iff, assemble]
  rw [if_mask _ _ _ _ (by decide)]
  simp only [true_and, and_ones8, and_ones16, and_ones32]

theorem payloadBeats_nop (h : Beat) (ho : opcOf h = 0x00) : payloadBeats h = 0 := by
  simp only [payloadBeats, ho, rowOf_nop, beatsOfFormat]

theorem rowOf_sysRst : rowOf 0x01 = some ⟨.sysRst, 0x01, .Z, header 0xFF 0xFF 0xFFFF 0xFFFFFFFF, header 0x01 0 0 0⟩ := by decide

theorem decode_sysRst (h : Beat) (p : List Beat) (ho : opcOf h = 0x01) :
    decode h p = if flgOf h = 0 ∧ argOf h = 0 ∧ lenOf h = 0 then .ok (.sysRst) else .error .illegalField := by
  simp only [decode, ho, rowOf_sysRst, legalHeader, mask_eq_iff, assemble]
  rw [if_mask _ _ _ _ (by decide)]
  simp only [true_and, and_ones8, and_ones16, and_ones32]

theorem payloadBeats_sysRst (h : Beat) (ho : opcOf h = 0x01) : payloadBeats h = 0 := by
  simp only [payloadBeats, ho, rowOf_sysRst, beatsOfFormat]

theorem rowOf_csrRd : rowOf 0x02 = some ⟨.csrRd, 0x02, .A, header 0xFF 0xFF 0 0xFFFFFFFF, header 0x02 0 0 0⟩ := by decide

theorem decode_csrRd (h : Beat) (p : List Beat) (ho : opcOf h = 0x02) :
    decode h p = if flgOf h = 0 ∧ lenOf h = 0 then .ok (.csrRd (argOf h)) else .error .illegalField := by
  simp only [decode, ho, rowOf_csrRd, legalHeader, mask_eq_iff, assemble]
  rw [if_mask _ _ _ _ (by decide)]
  simp only [true_and, and_ones8, and_ones32, and_zero16]

theorem payloadBeats_csrRd (h : Beat) (ho : opcOf h = 0x02) : payloadBeats h = 0 := by
  simp only [payloadBeats, ho, rowOf_csrRd, beatsOfFormat]

theorem rowOf_bfInit : rowOf 0x10 = some ⟨.bfInit, 0x10, .P1, header 0xFF 0xFF 0 0xFFFFFFFF, header 0x10 0 0 0⟩ := by decide

theorem decode_bfInit (h : Beat) (p : List Beat) (ho : opcOf h = 0x10) :
    decode h p = if flgOf h = 0 ∧ lenOf h = 0 then .ok (.bfInit (argOf h) (operand p 0)) else .error .illegalField := by
  simp only [decode, ho, rowOf_bfInit, legalHeader, mask_eq_iff, assemble]
  rw [if_mask _ _ _ _ (by decide)]
  simp only [true_and, and_ones8, and_ones32, and_zero16]

theorem payloadBeats_bfInit (h : Beat) (ho : opcOf h = 0x10) : payloadBeats h = 1 := by
  simp only [payloadBeats, ho, rowOf_bfInit, beatsOfFormat]

theorem rowOf_bfInitNp : rowOf 0x11 = some ⟨.bfInitNp, 0x11, .P2, header 0xFF 0xFF 0xFFFF 0xFFFFFFFF, header 0x11 0 0 0⟩ := by decide

theorem decode_bfInitNp (h : Beat) (p : List Beat) (ho : opcOf h = 0x11) :
    decode h p = if flgOf h = 0 ∧ argOf h = 0 ∧ lenOf h = 0 then .ok (.bfInitNp (operand p 0) (operand p 1)) else .error .illegalField := by
  simp only [decode, ho, rowOf_bfInitNp, legalHeader, mask_eq_iff, assemble]
  rw [if_mask _ _ _ _ (by decide)]
  simp only [true_and, and_ones8, and_ones16, and_ones32]

theorem payloadBeats_bfInitNp (h : Beat) (ho : opcOf h = 0x11) : payloadBeats h = 2 := by
  simp only [payloadBeats, ho, rowOf_bfInitNp, beatsOfFormat]

theorem rowOf_bfAddH : rowOf 0x12 = some ⟨.bfAddH, 0x12, .P2, header 0xFF 0xFF 0xFFFF 0xFFFFFFFF, header 0x12 0 0 0⟩ := by decide

theorem decode_bfAddH (h : Beat) (p : List Beat) (ho : opcOf h = 0x12) :
    decode h p = if flgOf h = 0 ∧ argOf h = 0 ∧ lenOf h = 0 then .ok (.bfAddH (operand p 0) (operand p 1)) else .error .illegalField := by
  simp only [decode, ho, rowOf_bfAddH, legalHeader, mask_eq_iff, assemble]
  rw [if_mask _ _ _ _ (by decide)]
  simp only [true_and, and_ones8, and_ones16, and_ones32]

theorem payloadBeats_bfAddH (h : Beat) (ho : opcOf h = 0x12) : payloadBeats h = 2 := by
  simp only [payloadBeats, ho, rowOf_bfAddH, beatsOfFormat]

theorem rowOf_bfTestH : rowOf 0x13 = some ⟨.bfTestH, 0x13, .P2, header 0xFF 0xFF 0xFFFF 0xFFFFFFFF, header 0x13 0 0 0⟩ := by decide

theorem decode_bfTestH (h : Beat) (p : List Beat) (ho : opcOf h = 0x13) :
    decode h p = if flgOf h = 0 ∧ argOf h = 0 ∧ lenOf h = 0 then .ok (.bfTestH (operand p 0) (operand p 1)) else .error .illegalField := by
  simp only [decode, ho, rowOf_bfTestH, legalHeader, mask_eq_iff, assemble]
  rw [if_mask _ _ _ _ (by decide)]
  simp only [true_and, and_ones8, and_ones16, and_ones32]

theorem payloadBeats_bfTestH (h : Beat) (ho : opcOf h = 0x13) : payloadBeats h = 2 := by
  simp only [payloadBeats, ho, rowOf_bfTestH, beatsOfFormat]

theorem rowOf_bfUniqH : rowOf 0x14 = some ⟨.bfUniqH, 0x14, .P2, header 0xFF 0xFF 0xFFFF 0xFFFFFFFF, header 0x14 0 0 0⟩ := by decide

theorem decode_bfUniqH (h : Beat) (p : List Beat) (ho : opcOf h = 0x14) :
    decode h p = if flgOf h = 0 ∧ argOf h = 0 ∧ lenOf h = 0 then .ok (.bfUniqH (operand p 0) (operand p 1)) else .error .illegalField := by
  simp only [decode, ho, rowOf_bfUniqH, legalHeader, mask_eq_iff, assemble]
  rw [if_mask _ _ _ _ (by decide)]
  simp only [true_and, and_ones8, and_ones16, and_ones32]

theorem payloadBeats_bfUniqH (h : Beat) (ho : opcOf h = 0x14) : payloadBeats h = 2 := by
  simp only [payloadBeats, ho, rowOf_bfUniqH, beatsOfFormat]

theorem rowOf_bfAdd : rowOf 0x15 = some ⟨.bfAdd, 0x15, .I, header 0xFF 0xFF 0xFFFF 0, header 0x15 0 0 0⟩ := by decide

theorem decode_bfAdd (h : Beat) (p : List Beat) (ho : opcOf h = 0x15) :
    decode h p = if flgOf h = 0 ∧ argOf h = 0 then .ok (.bfAdd (itemOf (lenOf h).toNat p)) else .error .illegalField := by
  simp only [decode, ho, rowOf_bfAdd, legalHeader, mask_eq_iff, assemble]
  rw [if_mask _ _ _ _ (by decide)]
  simp only [true_and, and_true, and_ones8, and_ones16, and_zero32]

theorem payloadBeats_bfAdd (h : Beat) (ho : opcOf h = 0x15) : payloadBeats h = ((lenOf h).toNat + 7) / 8 := by
  simp only [payloadBeats, ho, rowOf_bfAdd, beatsOfFormat]

theorem rowOf_bfTest : rowOf 0x16 = some ⟨.bfTest, 0x16, .I, header 0xFF 0xFF 0xFFFF 0, header 0x16 0 0 0⟩ := by decide

theorem decode_bfTest (h : Beat) (p : List Beat) (ho : opcOf h = 0x16) :
    decode h p = if flgOf h = 0 ∧ argOf h = 0 then .ok (.bfTest (itemOf (lenOf h).toNat p)) else .error .illegalField := by
  simp only [decode, ho, rowOf_bfTest, legalHeader, mask_eq_iff, assemble]
  rw [if_mask _ _ _ _ (by decide)]
  simp only [true_and, and_true, and_ones8, and_ones16, and_zero32]

theorem payloadBeats_bfTest (h : Beat) (ho : opcOf h = 0x16) : payloadBeats h = ((lenOf h).toNat + 7) / 8 := by
  simp only [payloadBeats, ho, rowOf_bfTest, beatsOfFormat]

theorem rowOf_bfUniq : rowOf 0x17 = some ⟨.bfUniq, 0x17, .I, header 0xFF 0xFE 0xFFFF 0, header 0x17 0 0 0⟩ := by decide

theorem decode_bfUniq (h : Beat) (p : List Beat) (ho : opcOf h = 0x17) :
    decode h p = if flgOf h &&& 0xFE = 0 ∧ argOf h = 0 ∧ (nullOf h = true → lenOf h = 0) then .ok (.bfUniq (entryOf h p)) else .error .illegalField := by
  simp only [decode, ho, rowOf_bfUniq, legalHeader, mask_eq_iff, assemble]
  simp only [true_and, and_ones16, and_zero32, and_true]
  by_cases h1 : flgOf h &&& 0xFE = 0 ∧ argOf h = 0
  · by_cases h2 : nullOf h = true <;> by_cases h3 : lenOf h = 0 <;> simp [h1, h2, h3]
  · rw [if_neg (by simpa using fun a b => absurd ⟨a, b⟩ h1), if_neg (fun h => h1 ⟨h.1, h.2.1⟩)]

theorem payloadBeats_bfUniq (h : Beat) (ho : opcOf h = 0x17) : payloadBeats h = ((lenOf h).toNat + 7) / 8 := by
  simp only [payloadBeats, ho, rowOf_bfUniq, beatsOfFormat]

theorem rowOf_bfRd : rowOf 0x18 = some ⟨.bfRd, 0x18, .P1, header 0xFF 0xFF 0xFFFF 0xFFFFFFFF, header 0x18 0 0 0⟩ := by decide

theorem decode_bfRd (h : Beat) (p : List Beat) (ho : opcOf h = 0x18) :
    decode h p = if flgOf h = 0 ∧ argOf h = 0 ∧ lenOf h = 0 then .ok (.bfRd (operand p 0)) else .error .illegalField := by
  simp only [decode, ho, rowOf_bfRd, legalHeader, mask_eq_iff, assemble]
  rw [if_mask _ _ _ _ (by decide)]
  simp only [true_and, and_ones8, and_ones16, and_ones32]

theorem payloadBeats_bfRd (h : Beat) (ho : opcOf h = 0x18) : payloadBeats h = 1 := by
  simp only [payloadBeats, ho, rowOf_bfRd, beatsOfFormat]

theorem rowOf_hllInit : rowOf 0x20 = some ⟨.hllInit, 0x20, .A, header 0xFF 0xFF 0 0xFFFFFFFF, header 0x20 0 0 0⟩ := by decide

theorem decode_hllInit (h : Beat) (p : List Beat) (ho : opcOf h = 0x20) :
    decode h p = if flgOf h = 0 ∧ lenOf h = 0 then .ok (.hllInit (argOf h)) else .error .illegalField := by
  simp only [decode, ho, rowOf_hllInit, legalHeader, mask_eq_iff, assemble]
  rw [if_mask _ _ _ _ (by decide)]
  simp only [true_and, and_ones8, and_ones32, and_zero16]

theorem payloadBeats_hllInit (h : Beat) (ho : opcOf h = 0x20) : payloadBeats h = 0 := by
  simp only [payloadBeats, ho, rowOf_hllInit, beatsOfFormat]

theorem rowOf_hllAddH : rowOf 0x21 = some ⟨.hllAddH, 0x21, .P1, header 0xFF 0xFF 0xFFFF 0xFFFFFFFF, header 0x21 0 0 0⟩ := by decide

theorem decode_hllAddH (h : Beat) (p : List Beat) (ho : opcOf h = 0x21) :
    decode h p = if flgOf h = 0 ∧ argOf h = 0 ∧ lenOf h = 0 then .ok (.hllAddH (operand p 0)) else .error .illegalField := by
  simp only [decode, ho, rowOf_hllAddH, legalHeader, mask_eq_iff, assemble]
  rw [if_mask _ _ _ _ (by decide)]
  simp only [true_and, and_ones8, and_ones16, and_ones32]

theorem payloadBeats_hllAddH (h : Beat) (ho : opcOf h = 0x21) : payloadBeats h = 1 := by
  simp only [payloadBeats, ho, rowOf_hllAddH, beatsOfFormat]

theorem rowOf_hllAdd : rowOf 0x22 = some ⟨.hllAdd, 0x22, .I, header 0xFF 0xFF 0xFFFF 0, header 0x22 0 0 0⟩ := by decide

theorem decode_hllAdd (h : Beat) (p : List Beat) (ho : opcOf h = 0x22) :
    decode h p = if flgOf h = 0 ∧ argOf h = 0 then .ok (.hllAdd (itemOf (lenOf h).toNat p)) else .error .illegalField := by
  simp only [decode, ho, rowOf_hllAdd, legalHeader, mask_eq_iff, assemble]
  rw [if_mask _ _ _ _ (by decide)]
  simp only [true_and, and_true, and_ones8, and_ones16, and_zero32]

theorem payloadBeats_hllAdd (h : Beat) (ho : opcOf h = 0x22) : payloadBeats h = ((lenOf h).toNat + 7) / 8 := by
  simp only [payloadBeats, ho, rowOf_hllAdd, beatsOfFormat]

theorem rowOf_hllEst : rowOf 0x23 = some ⟨.hllEst, 0x23, .Z, header 0xFF 0xFF 0xFFFF 0xFFFFFFFF, header 0x23 0 0 0⟩ := by decide

theorem decode_hllEst (h : Beat) (p : List Beat) (ho : opcOf h = 0x23) :
    decode h p = if flgOf h = 0 ∧ argOf h = 0 ∧ lenOf h = 0 then .ok (.hllEst) else .error .illegalField := by
  simp only [decode, ho, rowOf_hllEst, legalHeader, mask_eq_iff, assemble]
  rw [if_mask _ _ _ _ (by decide)]
  simp only [true_and, and_ones8, and_ones16, and_ones32]

theorem payloadBeats_hllEst (h : Beat) (ho : opcOf h = 0x23) : payloadBeats h = 0 := by
  simp only [payloadBeats, ho, rowOf_hllEst, beatsOfFormat]

theorem rowOf_hllRdr : rowOf 0x24 = some ⟨.hllRdr, 0x24, .A, header 0xFF 0xFF 0 0xFFFFFFFF, header 0x24 0 0 0⟩ := by decide

theorem decode_hllRdr (h : Beat) (p : List Beat) (ho : opcOf h = 0x24) :
    decode h p = if flgOf h = 0 ∧ lenOf h = 0 then .ok (.hllRdr (argOf h)) else .error .illegalField := by
  simp only [decode, ho, rowOf_hllRdr, legalHeader, mask_eq_iff, assemble]
  rw [if_mask _ _ _ _ (by decide)]
  simp only [true_and, and_ones8, and_ones32, and_zero16]

theorem payloadBeats_hllRdr (h : Beat) (ho : opcOf h = 0x24) : payloadBeats h = 0 := by
  simp only [payloadBeats, ho, rowOf_hllRdr, beatsOfFormat]

/-! ## Bytes of an item -/

theorem bytesValue_lt (l : List Byte) : bytesValue l < 256 ^ l.length := by
  induction l with
  | nil => simp [bytesValue]
  | cons b rest ih =>
    have hb := b.isLt
    simp only [bytesValue, List.length_cons, pow_succ]
    omega

/-- Byte `t` of the value of a byte sequence. -/
theorem bytesValue_byte (l : List Byte) (t : Nat) :
    bytesValue l / 256 ^ t % 256 = (l.getD t 0).toNat := by
  induction l generalizing t with
  | nil => simp [bytesValue]
  | cons b rest ih =>
    have hb := b.isLt
    cases t with
    | zero => simp only [bytesValue, pow_zero, Nat.div_one, List.getD_cons_zero]; omega
    | succ t =>
      simp only [bytesValue, List.getD_cons_succ]
      rw [pow_succ', ← Nat.div_div_eq_div_mul, ← ih t]
      congr 2
      omega

/-- Lane `t` of a packed beat. -/
theorem extract_packed (l : List Byte) (hl : l.length ≤ 8) (t : Nat) :
    (BitVec.ofNat 64 (bytesValue l)).extractLsb' (8 * t) 8 = l.getD t 0 := by
  apply BitVec.eq_of_toNat_eq
  have hlt : bytesValue l < 2 ^ 64 :=
    calc bytesValue l < 256 ^ l.length := bytesValue_lt l
      _ ≤ 256 ^ 8 := Nat.pow_le_pow_right (by decide) hl
      _ = 2 ^ 64 := by norm_num
  rw [BitVec.extractLsb'_toNat, BitVec.toNat_ofNat, Nat.mod_eq_of_lt hlt, Nat.shiftRight_eq_div_pow, pow_mul]
  exact bytesValue_byte l t

theorem length_packBeats (n : Nat) (l : List Byte) : (packBeats n l).length = n := by
  induction n generalizing l with
  | zero => rfl
  | succ n ih => simp [packBeats, ih]

/-- The bytes read back from packed beats (R56). -/
theorem itemByte_packBeats (n : Nat) (l : List Byte) (t : Nat) (ht : t < 8 * n) :
    itemByte (packBeats n l) t = l.getD t 0 := by
  induction n generalizing l t with
  | zero => omega
  | succ n ih =>
    unfold itemByte operand packBeats
    by_cases h8 : t < 8
    · rw [Nat.div_eq_of_lt h8, List.getD_cons_zero, extract_packed _ (by simp), Nat.mod_eq_of_lt h8]
      simp only [List.getD_eq_getElem?_getD, List.getElem?_take, if_pos h8]
    · have hd : t / 8 = (t - 8) / 8 + 1 := by omega
      have hm : t % 8 = (t - 8) % 8 := by omega
      rw [hd, hm, List.getD_cons_succ]
      have := ih (l.drop 8) (t - 8) (by omega)
      unfold itemByte operand at this
      rw [this]
      simp only [List.getD_eq_getElem?_getD, List.getElem?_drop]
      congr 2
      omega

/-- An item survives packing into beats and assembly from them (R56, R75). -/
theorem itemOf_packBeats (l : List Byte) : itemOf l.length (packBeats ((l.length + 7) / 8) l) = l := by
  apply List.ext_getElem
  · simp [itemOf]
  · intro t h1 h2
    simp only [itemOf, List.getElem_map, List.getElem_range]
    rw [itemByte_packBeats _ _ _ (by omega)]
    simp [List.getD_eq_getElem?_getD, h2]

/-- The item depends on the lanes below `len` only (R56, R75). -/
theorem itemOf_congr {len : Nat} {p q : List Beat} (h : ∀ t < len, itemByte p t = itemByte q t) :
    itemOf len p = itemOf len q :=
  List.map_congr_left fun t ht => h t (List.mem_range.1 ht)

theorem toNat_ofNat_length {l : List Byte} (h : wellFormedItem l = true) :
    (BitVec.ofNat 32 l.length).toNat = l.length := by
  have := of_decide_eq_true h
  rw [BitVec.toNat_ofNat, Nat.mod_eq_of_lt]
  unfold Config.lenMax at this
  omega

end Sys2Proof
end

