-- ==== Sys2Proof/Laws/Numerics.lean ====
section
/-! SUPPORT. The enclosures of Machine/Numerics.lean hold: `lnBounds` encloses the natural logarithm (R8) and
`bloomMBounds` the size of R112. Laws/Exact.lean draws the exact results from them. -/

namespace Sys2Proof.Machine

/-! ## The series -/

/-- The real partial sum that `artanhSum` rounds down. -/
theorem artanhSum_bounds (u v prec n : Nat) (hv : 0 < v) :
    (artanhSum u v prec n : ℝ) ≤
        2 ^ prec * ∑ i ∈ Finset.range n, (1 / (2 * (i : ℝ) + 1)) * ((u : ℝ) / v) ^ (2 * i + 1) ∧
      2 ^ prec * ∑ i ∈ Finset.range n, (1 / (2 * (i : ℝ) + 1)) * ((u : ℝ) / v) ^ (2 * i + 1) ≤
        artanhSum u v prec n + n := by
  induction n with
  | zero => simp [artanhSum]
  | succ n ih =>
    have hd : 0 < (2 * n + 1) * v ^ (2 * n + 1) := by positivity
    have hterm : (2 : ℝ) ^ prec * ((1 / (2 * (n : ℝ) + 1)) * ((u : ℝ) / v) ^ (2 * n + 1)) =
        ((2 ^ prec * u ^ (2 * n + 1) : ℕ) : ℝ) / (((2 * n + 1) * v ^ (2 * n + 1) : ℕ) : ℝ) := by
      push_cast; rw [div_pow]; field_simp
    have hlo := Nat.cast_div_le (α := ℝ) (m := 2 ^ prec * u ^ (2 * n + 1)) (n := (2 * n + 1) * v ^ (2 * n + 1))
    have hhi : ((2 ^ prec * u ^ (2 * n + 1) : ℕ) : ℝ) / (((2 * n + 1) * v ^ (2 * n + 1) : ℕ) : ℝ) ≤
        ((2 ^ prec * u ^ (2 * n + 1) / ((2 * n + 1) * v ^ (2 * n + 1)) : ℕ) : ℝ) + 1 := by
      rw [div_le_iff₀ (by exact_mod_cast hd)]
      have := (Nat.lt_mul_div_succ (2 ^ prec * u ^ (2 * n + 1)) hd).le
      rw [Nat.mul_comm ((2 * n + 1) * v ^ (2 * n + 1))] at this
      exact_mod_cast this
    rw [Finset.sum_range_succ, mul_add, hterm]
    simp only [artanhSum, Nat.cast_add, Nat.cast_one]
    constructor
    · linarith [ih.1]
    · linarith [ih.2]

/-- `2^prec` is at most `9^terms`: the rest of the series is below one unit. -/
theorem two_pow_le_nine_pow_terms (prec : Nat) : 2 ^ prec ≤ 9 ^ seriesTerms prec := by
  calc 2 ^ prec ≤ 2 ^ (3 * seriesTerms prec) := Nat.pow_le_pow_right (by decide) (by unfold seriesTerms; omega)
    _ = 8 ^ seriesTerms prec := by rw [pow_mul]; norm_num
    _ ≤ 9 ^ seriesTerms prec := Nat.pow_le_pow_left (by decide) _

/-- The series of `log (1+z) - log (1-z)` cut after `n` terms, for `0 <= z <= 1/3`. -/
theorem log_series_tail (z : ℝ) (hz : 0 ≤ z) (hz3 : z ≤ 1 / 3) (n : Nat) :
    2 * ∑ i ∈ Finset.range n, (1 / (2 * (i : ℝ) + 1)) * z ^ (2 * i + 1) ≤ Real.log (1 + z) - Real.log (1 - z) ∧
      Real.log (1 + z) - Real.log (1 - z) ≤
        2 * ∑ i ∈ Finset.range n, (1 / (2 * (i : ℝ) + 1)) * z ^ (2 * i + 1) + (1 / 9) ^ n := by
  have hs := Real.hasSum_log_sub_log_of_abs_lt_one (x := z) (by rw [abs_of_nonneg hz]; linarith)
  have hrw : 2 * ∑ i ∈ Finset.range n, (1 / (2 * (i : ℝ) + 1)) * z ^ (2 * i + 1) =
      ∑ i ∈ Finset.range n, 2 * (1 / (2 * (i : ℝ) + 1)) * z ^ (2 * i + 1) := by
    rw [Finset.mul_sum]; exact Finset.sum_congr rfl fun i _ => by ring
  rw [hrw]
  have hnn : ∀ i : ℕ, 0 ≤ 2 * (1 / (2 * (i : ℝ) + 1)) * z ^ (2 * i + 1) := fun i => by positivity
  refine ⟨sum_le_hasSum _ (fun i _ => hnn i) hs, ?_⟩
  have htail := (hasSum_nat_add_iff' n).2 hs
  have hgeo : HasSum (fun i : ℕ => (2 / 3) * (1 / 9 : ℝ) ^ n * (1 / 9) ^ i) ((2 / 3) * (1 / 9 : ℝ) ^ n * (1 - 1 / 9)⁻¹) :=
    (hasSum_geometric_of_lt_one (by norm_num) (by norm_num)).mul_left _
  have hle : ∀ i : ℕ, 2 * (1 / (2 * ((i + n : ℕ) : ℝ) + 1)) * z ^ (2 * (i + n) + 1) ≤
      (2 / 3) * (1 / 9 : ℝ) ^ n * (1 / 9) ^ i := by
    intro i
    have h1 : (1 / (2 * ((i + n : ℕ) : ℝ) + 1)) ≤ 1 := by
      rw [div_le_one (by positivity)]
      have : (0 : ℝ) ≤ ((i + n : ℕ) : ℝ) := by positivity
      linarith
    have h2 : z ^ (2 * (i + n) + 1) ≤ (1 / 3 : ℝ) ^ (2 * (i + n) + 1) := pow_le_pow_left₀ hz hz3 _
    have h3 : (1 / 3 : ℝ) ^ (2 * (i + n) + 1) = (1 / 3) * (1 / 9 : ℝ) ^ n * (1 / 9) ^ i := by
      rw [pow_succ, pow_mul, pow_add]; norm_num; ring
    have h4 : (0 : ℝ) ≤ z ^ (2 * (i + n) + 1) := by positivity
    calc 2 * (1 / (2 * ((i + n : ℕ) : ℝ) + 1)) * z ^ (2 * (i + n) + 1)
        ≤ 2 * 1 * z ^ (2 * (i + n) + 1) := by gcongr
      _ ≤ 2 * 1 * (1 / 3 : ℝ) ^ (2 * (i + n) + 1) := by gcongr
      _ = (2 / 3) * (1 / 9 : ℝ) ^ n * (1 / 9) ^ i := by rw [h3]; ring
  have := hasSum_le hle htail hgeo
  have hp : (0 : ℝ) ≤ (1 / 9) ^ n := by positivity
  have h5 : (2 / 3) * (1 / 9 : ℝ) ^ n * (1 - 1 / 9)⁻¹ ≤ (1 / 9) ^ n := by
    have : (1 - 1 / 9 : ℝ)⁻¹ = 9 / 8 := by norm_num
    rw [this]; nlinarith
  linarith

/-- `lnRatioLow` and its slack enclose `2^prec * ln((v+u)/(v-u))`. -/
theorem lnRatio_bounds (u v prec : Nat) (hv : 0 < v) (h : 3 * u ≤ v) :
    (lnRatioLow u v prec : ℝ) ≤ 2 ^ prec * Real.log (((v : ℝ) + u) / (v - u)) ∧
      2 ^ prec * Real.log (((v : ℝ) + u) / (v - u)) ≤ lnRatioLow u v prec + lnRatioSlack prec := by
  have hv' : (0 : ℝ) < v := by exact_mod_cast hv
  have hz : (0 : ℝ) ≤ (u : ℝ) / v := by positivity
  have hz3 : (u : ℝ) / v ≤ 1 / 3 := by
    rw [div_le_div_iff₀ hv' (by norm_num)]
    have : ((3 * u : ℕ) : ℝ) ≤ v := by exact_mod_cast h
    push_cast at this; linarith
  have hlog : Real.log (1 + (u : ℝ) / v) - Real.log (1 - (u : ℝ) / v) = Real.log (((v : ℝ) + u) / (v - u)) := by
    rw [← Real.log_div (by linarith) (by linarith)]
    congr 1
    have : (v : ℝ) - u ≠ 0 := by
      have : (u : ℝ) / v * v = u := div_mul_cancel₀ _ hv'.ne'
      nlinarith
    field_simp
  have hs := log_series_tail ((u : ℝ) / v) hz hz3 (seriesTerms prec)
  rw [hlog] at hs
  have ha := artanhSum_bounds u v prec (seriesTerms prec) hv
  have h9 : (2 : ℝ) ^ prec * (1 / 9) ^ seriesTerms prec ≤ 1 := by
    rw [one_div, inv_pow, ← div_eq_mul_inv, div_le_one (by positivity)]
    exact_mod_cast two_pow_le_nine_pow_terms prec
  have hp : (0 : ℝ) < 2 ^ prec := by positivity
  unfold lnRatioLow lnRatioSlack
  push_cast
  constructor
  · have := mul_le_mul_of_nonneg_left hs.1 hp.le
    linarith [ha.1]
  · have := mul_le_mul_of_nonneg_left hs.2 hp.le
    rw [mul_add] at this
    linarith [ha.2]

/-- `2^t * c <= a < 2^(t+1) * c` for the shift `t` that `lnBounds` takes. -/
theorem log2_div_spec {a c : Nat} (hc : 0 < c) (h : c ≤ a) :
    c * 2 ^ Nat.log2 (a / c) ≤ a ∧ a < 2 * (c * 2 ^ Nat.log2 (a / c)) := by
  have hq : a / c ≠ 0 := by rw [Ne, Nat.div_eq_zero_iff]; omega
  constructor
  · calc c * 2 ^ Nat.log2 (a / c) ≤ c * (a / c) := Nat.mul_le_mul_left _ (Nat.log2_self_le hq)
      _ ≤ a := Nat.mul_div_le a c
  · have h1 : a / c < 2 ^ (Nat.log2 (a / c) + 1) := Nat.lt_log2_self
    have h2 := Nat.lt_mul_of_div_lt h1 hc
    calc a < 2 ^ (Nat.log2 (a / c) + 1) * c := by rw [mul_comm]; linarith
      _ = 2 * (c * 2 ^ Nat.log2 (a / c)) := by rw [pow_succ]; ring

/-- `lnBounds` encloses `2^prec * ln(a/c)` (R8; U2 of spec/93_implementation_defined.md). -/
theorem lnBounds_encloses (a c prec : Nat) (hc : 0 < c) (h : c ≤ a) :
    ((lnBounds a c prec).lo : ℝ) ≤ 2 ^ prec * Real.log ((a : ℝ) / c) ∧
      2 ^ prec * Real.log ((a : ℝ) / c) ≤ (lnBounds a c prec).hi := by
  obtain ⟨h1, h2⟩ := log2_div_spec hc h
  have hd0 : 0 < c * 2 ^ Nat.log2 (a / c) := by positivity
  simp only [lnBounds]
  generalize Nat.log2 (a / c) = t at *
  generalize hd : c * 2 ^ t = d at *
  have hc' : (0 : ℝ) < c := by exact_mod_cast hc
  have ha' : (0 : ℝ) < a := by exact_mod_cast (by omega : 0 < a)
  have hd' : (0 : ℝ) < d := by exact_mod_cast hd0
  have h2b := lnRatio_bounds 1 3 prec (by decide) (by decide)
  have hrb := lnRatio_bounds (a - d) (a + d) prec (by omega) (by omega)
  have e1 : Real.log ((((3 : ℕ) : ℝ) + (1 : ℕ)) / ((3 : ℕ) - (1 : ℕ))) = Real.log 2 := by norm_num
  have e2 : ((((a + d : ℕ) : ℝ)) + ((a - d : ℕ) : ℝ)) / (((a + d : ℕ) : ℝ) - ((a - d : ℕ) : ℝ)) = (a : ℝ) / d := by
    rw [Nat.cast_sub h1, Nat.cast_add, div_eq_div_iff (by linarith) hd'.ne']; ring
  rw [e1] at h2b
  rw [e2] at hrb
  have hlog : Real.log ((a : ℝ) / c) = t * Real.log 2 + Real.log ((a : ℝ) / d) := by
    have : (a : ℝ) / c = 2 ^ t * ((a : ℝ) / d) := by
      rw [← hd]; push_cast; field_simp
    rw [this, Real.log_mul (by positivity) (by positivity), Real.log_pow]
  rw [hlog]
  push_cast
  have ht : (0 : ℝ) ≤ t := by positivity
  constructor
  · nlinarith [mul_le_mul_of_nonneg_left h2b.1 ht, hrb.1]
  · nlinarith [mul_le_mul_of_nonneg_left h2b.2 ht, hrb.2]

/-! ## Lower ends stay away from 0 -/

theorem le_artanhSum (u v prec n : Nat) (hn : 0 < n) : 2 ^ prec * u / v ≤ artanhSum u v prec n := by
  induction n with
  | zero => omega
  | succ n ih =>
    rcases Nat.eq_zero_or_pos n with rfl | hn
    · simp [artanhSum]
    · exact (ih hn).trans (Nat.le_add_right _ _)

theorem lnRatioLow_pos {u v prec : Nat} (hu : 0 < u) (hv : 0 < v) (h : v ≤ 2 ^ prec) : 0 < lnRatioLow u v prec := by
  have h1 : 0 < 2 ^ prec * u / v := Nat.div_pos (h.trans (Nat.le_mul_of_pos_right _ hu)) hv
  have h2 := le_artanhSum u v prec (seriesTerms prec) (Nat.succ_pos _)
  unfold lnRatioLow
  omega

theorem lnBounds_hi_pos (a c prec : Nat) : 0 < (lnBounds a c prec).hi := by
  simp only [lnBounds, lnRatioSlack]
  positivity

/-! ## The rounded formulas are enclosed (R8, R112, R113, R144) -/

theorem ceilDiv_eq_ceil (a b : ℕ) (hb : 0 < b) : ceilDiv a b = ⌈(a:ℝ)/b⌉₊ := by
  refine eq_of_forall_ge_iff fun c => ?_
  rw [Nat.ceil_le, div_le_iff₀ (by exact_mod_cast hb)]
  rw [← Nat.cast_mul, Nat.cast_le]
  unfold ceilDiv
  rw [← Nat.lt_succ_iff, Nat.div_lt_iff_lt_mul hb, Nat.succ_mul]
  omega

/-- R112 for every precision of 65 bits or more. -/
theorem bloomMBounds_encloses (n p k : ℕ) (hp : 0 < p) (h : p < 2 ^ 64) :
    (bloomMBounds n p k).lo ≤ ⌈-(n : ℝ) * Real.log ((p : ℝ) / 2 ^ 64) / Real.log 2 ^ 2⌉₊ ∧
      (65 ≤ k → ⌈-(n : ℝ) * Real.log ((p : ℝ) / 2 ^ 64) / Real.log 2 ^ 2⌉₊ ≤ (bloomMBounds n p k).hi) := by
  obtain ⟨a, b⟩ := lnBounds_encloses (2^64) p k hp h.le
  obtain ⟨c, d⟩ := lnBounds_encloses 2 1 k (by decide) (by decide)
  have hl2 : Real.log (((2:ℕ) : ℝ) / (1:ℕ)) = Real.log 2 := by norm_num
  rw [hl2] at c d
  have hl2p : 0 < Real.log 2 := Real.log_pos (by norm_num)
  have hp' : (0:ℝ) < p := by exact_mod_cast hp
  have e : Real.log (((2^64 : ℕ) : ℝ) / p) = - Real.log ((p : ℝ) / 2^64) := by
    rw [← Real.log_inv, inv_div]; norm_num
  have hx : 0 ≤ Real.log (((2^64 : ℕ) : ℝ) / p) := by
    refine Real.log_nonneg ?_
    rw [le_div_iff₀ hp', one_mul]; exact_mod_cast h.le
  have hreal : ⌈-(n : ℝ) * Real.log ((p : ℝ) / 2 ^ 64) / Real.log 2 ^ 2⌉₊ =
      ⌈(n : ℝ) * Real.log (((2 ^ 64 : ℕ) : ℝ) / p) / Real.log 2 ^ 2⌉₊ := by
    rw [e]; congr 2; ring
  rw [hreal]
  generalize Real.log (((2^64 : ℕ) : ℝ) / p) = X at *
  generalize Real.log 2 = Y at *
  simp only [bloomMBounds, ln2Bounds]
  have hk : (0:ℝ) < 2^k := by positivity
  have hn : (0:ℝ) ≤ n := by positivity
  constructor
  · have hhi : 0 < (lnBounds 2 1 k).hi := lnBounds_hi_pos _ _ _
    rw [ceilDiv_eq_ceil _ _ (by positivity)]
    refine Nat.ceil_mono ?_
    push_cast
    have hhi' : (0:ℝ) < (lnBounds 2 1 k).hi := by exact_mod_cast hhi
    rw [div_le_div_iff₀ (by positivity) (by positivity)]
    have h1 : (2^k * Y)^2 ≤ ((lnBounds 2 1 k).hi : ℝ)^2 := pow_le_pow_left₀ (by positivity) d 2
    calc (n:ℝ) * ((lnBounds (2^64) p k).lo : ℝ) * 2^k * Y^2 ≤ n * (2^k * X) * 2^k * Y^2 := by gcongr
      _ = n * X * (2^k * Y)^2 := by ring
      _ ≤ _ := by gcongr
  · intro h65
    have hlo : 0 < (lnBounds 2 1 k).lo := by
      simp only [lnBounds]
      exact Nat.add_pos_left (Nat.mul_pos (by decide) (lnRatioLow_pos (by decide) (by decide) ((show 3 ≤ 2^65 by decide).trans (Nat.pow_le_pow_right (by decide) h65)))) _
    rw [ceilDiv_eq_ceil _ ((lnBounds 2 1 k).lo ^ 2) (by positivity)]
    refine Nat.ceil_mono ?_
    push_cast
    have hlo' : (0:ℝ) < (lnBounds 2 1 k).lo := by exact_mod_cast hlo
    rw [div_le_div_iff₀ (by positivity) (by positivity)]
    have h1 : ((lnBounds 2 1 k).lo : ℝ)^2 ≤ (2^k * Y)^2 := pow_le_pow_left₀ (by positivity) c 2
    calc (n:ℝ) * X * ((lnBounds 2 1 k).lo : ℝ)^2 ≤ n * X * (2^k * Y)^2 := by gcongr
      _ = n * (2^k * X) * 2^k * Y^2 := by ring
      _ ≤ _ := by gcongr; exact b

/-- The argument of the logarithm of R144 step 4 turned over, as `largeBounds` takes it. -/
theorem log_large_range {E : Frac} (hd : 0 < E.den) (hu : E.num < 2 ^ 32 * E.den) :
    Real.log (((2 ^ 32 * E.den : ℕ) : ℝ) / ((2 ^ 32 * E.den - E.num : ℕ))) =
      -Real.log (1 - (E.num : ℝ) / E.den / 2 ^ 32) := by
  rw [← Real.log_inv]
  congr 1
  rw [Nat.cast_sub (by omega)]
  have hd' : (E.den : ℝ) ≠ 0 := by exact_mod_cast hd.ne'
  have hc' : ((2 ^ 32 * E.den : ℕ) : ℝ) - E.num ≠ 0 := by
    have : (E.num : ℝ) < ((2 ^ 32 * E.den : ℕ) : ℝ) := by exact_mod_cast hu
    linarith
  rw [show ((2 ^ 32 * E.den : ℕ) : ℝ) = 2 ^ 32 * (E.den : ℝ) by norm_num] at hc' ⊢
  have : (1 - (E.num : ℝ) / E.den / 2 ^ 32) = (2 ^ 32 * E.den - E.num) / (2 ^ 32 * E.den) := by field_simp
  rw [this, inv_div]

theorem alphaMM_den_pos (m : ℕ) : 0 < (alphaMM m).den := by
  unfold alphaMM; repeat' split
  all_goals simp

theorem alphaMM_den_lt {m : ℕ} (h : m < 2 ^ 32) : (alphaMM m).den < 2 ^ 46 := by
  unfold alphaMM; repeat' split
  all_goals simp only []; omega

/-! ## The regimes of the estimator (R144) -/

theorem estimateOf_linear {m v : Nat} {e : Frac} (h : 2 * e.num ≤ 5 * m * e.den) (hv : v ≠ 0) :
    estimateOf m v e = some (linearCount m v) := by rw [estimateOf, if_pos h, if_pos hv]

theorem estimateOf_small {m v : Nat} {e : Frac} (h : 2 * e.num ≤ 5 * m * e.den) (hv : v = 0) :
    estimateOf m v e = some (e.num / e.den) := by rw [estimateOf, if_pos h, if_neg (fun h => h hv)]

theorem estimateOf_middle {m v : Nat} {e : Frac} (h : ¬2 * e.num ≤ 5 * m * e.den) (hl : ¬2 ^ 32 * e.den < 30 * e.num) :
    estimateOf m v e = some (e.num / e.den) := by rw [estimateOf, if_neg h, if_neg hl]

theorem estimateOf_large {m v : Nat} {e : Frac} (h : ¬2 * e.num ≤ 5 * m * e.den) (hl : 2 ^ 32 * e.den < 30 * e.num)
    (hu : ¬2 ^ 32 * e.den ≤ e.num) : estimateOf m v e = some (largeRange e) := by
  rw [estimateOf, if_neg h, if_pos hl, if_neg hu]

/-- The estimate is undefined exactly where step 4 asks for a logarithm that does not exist. -/
theorem estimateOf_eq_none {m v : Nat} {e : Frac} :
    estimateOf m v e = none ↔
      ¬2 * e.num ≤ 5 * m * e.den ∧ 2 ^ 32 * e.den < 30 * e.num ∧ 2 ^ 32 * e.den ≤ e.num := by
  unfold estimateOf
  split <;> rename_i h1
  · refine ⟨fun h => ?_, fun h => absurd h1 h.1⟩
    split at h <;> cases h
  · split <;> rename_i h2
    · split <;> rename_i h3
      · exact ⟨fun _ => ⟨h1, h2, h3⟩, fun _ => rfl⟩
      · exact ⟨fun h => (nomatch h), fun h => absurd h.2.2 h3⟩
    · exact ⟨fun h => (nomatch h), fun h => absurd h.2.1 h2⟩

end Sys2Proof.Machine
end

