-- ==== Sys2Proof/Laws/Exact.lean ====
section
/-! SUPPORT. The four rounded formulas are the exact real ones for every operand (R8, R112, R113, R144): the enclosures
close in on the real value, so one of them singles out its rounding unless the real value is an integer, and then the
end that `exactly` takes is that integer (U2 (b) of spec/93_implementation_defined.md, without a last precision). -/

namespace Sys2Proof.Machine

/-! ## The search for an enclosure with equal ends -/

theorem narrow_cases (f : Nat → Bounds) (n prec : Nat) : ∃ k, prec ≤ k ∧ narrow f n prec = f k := by
  induction n generalizing prec with
  | zero => exact ⟨prec, Nat.le_refl _, rfl⟩
  | succ n ih =>
    simp only [narrow]
    split
    · exact ⟨prec, Nat.le_refl _, rfl⟩
    · obtain ⟨k, hk, h⟩ := ih (2 * prec)
      exact ⟨k, by omega, h⟩

/-- What is settled is one of the enclosures, at `basePrecision` fraction bits or more. -/
theorem settle_cases (f : Nat → Bounds) : ∃ k, Config.basePrecision ≤ k ∧ settle f = f k := narrow_cases _ _ _

/-- Where no enclosure has equal ends, `narrow` gives the last one it makes. -/
theorem narrow_last {f : Nat → Bounds} {n prec : Nat} (h : (narrow f n prec).lo ≠ (narrow f n prec).hi) :
    narrow f n prec = f (2 ^ n * prec) := by
  induction n generalizing prec with
  | zero => simp [narrow]
  | succ n ih =>
    simp only [narrow] at h ⊢
    split <;> rename_i h0
    · rw [if_pos h0] at h; exact absurd h0 h
    · rw [if_neg h0] at h
      rw [ih h, pow_succ, mul_assoc]

theorem firstSettled_some {f : Nat → Bounds} {prec v : Nat} (h : firstSettled f prec = some v) :
    ∃ k, prec ≤ k ∧ (f k).lo = (f k).hi ∧ (f k).lo = v := by
  refine firstSettled.partial_correctness f (fun prec v => ∃ k, prec ≤ k ∧ (f k).lo = (f k).hi ∧ (f k).lo = v) ?_ prec v h
  intro search ih prec v h
  split at h <;> rename_i h0
  · exact ⟨prec, Nat.le_refl _, h0, by simpa using h⟩
  · obtain ⟨k, hk, h1⟩ := ih _ _ h
    exact ⟨k, by omega, h1⟩

theorem firstSettled_none {f : Nat → Bounds} {prec : Nat} (h : firstSettled f prec = none) (j : Nat) :
    (f (2 ^ j * prec)).lo ≠ (f (2 ^ j * prec)).hi := by
  induction j generalizing prec with
  | zero =>
    rw [firstSettled] at h
    split at h
    · cases h
    · simpa
  | succ j ih =>
    rw [firstSettled] at h
    split at h
    · cases h
    · rw [pow_succ, mul_assoc]; exact ih h

/-- What `exactly` answers: a value that every enclosure holds, if that value stands at the chosen end in case no
enclosure at `2^j * 2048` fraction bits ever singles one out. -/
theorem exactly_eq {f : Nat → Bounds} {atInteger : Bounds → Nat} {v : Nat}
    (h : ∀ k, 128 ≤ k → (f k).lo ≤ v ∧ v ≤ (f k).hi)
    (hint : (∀ j, (f (2 ^ j * 2048)).lo ≠ (f (2 ^ j * 2048)).hi) → atInteger (f 2048) = v) :
    exactly f atInteger = v := by
  unfold exactly
  split <;> rename_i h0
  · obtain ⟨k, hk, e⟩ := settle_cases f
    rw [e] at h0 ⊢
    have := h k hk
    omega
  · rw [show settle f = f 2048 from narrow_last h0]
    cases hs : firstSettled f (2 ^ Config.doublings * Config.basePrecision) with
    | none => exact hint (firstSettled_none hs)
    | some w =>
      obtain ⟨k, hk, e, rfl⟩ := firstSettled_some hs
      have := h k (le_trans (by decide) hk)
      simp only [Option.getD_some]
      omega

/-! ## Enclosures that close in -/

/-- A distance that halves with every two fraction bits falls below any other. -/
theorem exists_precision (c : ℝ) {δ : ℝ} (h : 0 < δ) : ∃ j, c / 2 ^ (2 ^ j * 2048 / 2) < δ := by
  obtain ⟨n, hn⟩ := pow_unbounded_of_one_lt (c / δ) (one_lt_two (α := ℝ))
  refine ⟨n, ?_⟩
  rw [div_lt_iff₀ (by positivity)]
  have h1 : n ≤ 2 ^ n * 2048 / 2 := by have := Nat.lt_two_pow_self (n := n); omega
  have h2 : (2 : ℝ) ^ n ≤ 2 ^ (2 ^ n * 2048 / 2) := pow_le_pow_right₀ one_le_two h1
  rw [div_lt_iff₀ h] at hn
  nlinarith

/-- At 2048 fraction bits the distance is below one unit. -/
theorem last_width_lt {c : ℝ} (h : c < 2 ^ 200) : c / 2 ^ (2048 / 2) < 1 := by
  rw [div_lt_one (by positivity)]
  exact h.trans_le (pow_le_pow_right₀ one_le_two (by decide))

/-- `trunc` (R8) of a real value that the enclosures close in on. -/
theorem exactly_floor {f : Nat → Bounds} {x c : ℝ} (hx : 0 ≤ x) (hc : c < 2 ^ 200)
    (h : ∀ k, 128 ≤ k → (f k).lo ≤ ⌊x⌋₊ ∧ ⌊x⌋₊ ≤ (f k).hi)
    (hclose : ∀ k, 128 ≤ k → ((f k).hi : ℝ) ≤ x + c / 2 ^ (k / 2) ∧ x < (f k).lo + 1 + c / 2 ^ (k / 2)) :
    exactly f Bounds.hi = ⌊x⌋₊ := by
  refine exactly_eq h fun hne => ?_
  have hle := Nat.floor_le hx
  have hlt := Nat.lt_floor_add_one x
  have hxN : x = ⌊x⌋₊ := by
    by_contra hxN
    have hlt' := lt_of_le_of_ne hle (Ne.symm hxN)
    obtain ⟨j, hj⟩ := exists_precision c (lt_min (sub_pos.2 hlt') (sub_pos.2 hlt))
    have hk : 128 ≤ 2 ^ j * 2048 := by have := Nat.one_le_two_pow (n := j); omega
    obtain ⟨a, b⟩ := hclose _ hk
    have h1 : (f (2 ^ j * 2048)).hi < ⌊x⌋₊ + 1 := by
      have := hj.trans_le (min_le_right _ _)
      exact_mod_cast (show ((f (2 ^ j * 2048)).hi : ℝ) < ⌊x⌋₊ + 1 by linarith)
    have h2 : ⌊x⌋₊ < (f (2 ^ j * 2048)).lo + 1 := by
      have := hj.trans_le (min_le_left _ _)
      exact_mod_cast (show (⌊x⌋₊ : ℝ) < (f (2 ^ j * 2048)).lo + 1 by linarith)
    have := h _ hk
    exact hne j (by omega)
  have h1 : (f 2048).hi < ⌊x⌋₊ + 1 := by
    have h2 := (hclose 2048 (by decide)).1
    have h3 : c / 2 ^ (2048 / 2) < 1 := last_width_lt hc
    generalize c / 2 ^ (2048 / 2) = w at h2 h3
    exact_mod_cast (show ((f 2048).hi : ℝ) < ⌊x⌋₊ + 1 by linarith)
  have := h 2048 (by decide)
  omega

/-- `ceil` (R8) of a real value that the enclosures close in on. -/
theorem exactly_ceil {f : Nat → Bounds} {x c : ℝ} (hx : 0 ≤ x) (hc : c < 2 ^ 200)
    (h : ∀ k, 128 ≤ k → (f k).lo ≤ ⌈x⌉₊ ∧ ⌈x⌉₊ ≤ (f k).hi)
    (hclose : ∀ k, 128 ≤ k → ((f k).hi : ℝ) < x + 1 + c / 2 ^ (k / 2) ∧ x ≤ (f k).lo + c / 2 ^ (k / 2)) :
    exactly f Bounds.lo = ⌈x⌉₊ := by
  refine exactly_eq h fun hne => ?_
  have hle := Nat.le_ceil x
  have hlt := Nat.ceil_lt_add_one hx
  have hxN : x = ⌈x⌉₊ := by
    by_contra hxN
    have hlt' := lt_of_le_of_ne hle hxN
    obtain ⟨j, hj⟩ := exists_precision c (lt_min (sub_pos.2 hlt') (sub_pos.2 hlt))
    have hk : 128 ≤ 2 ^ j * 2048 := by have := Nat.one_le_two_pow (n := j); omega
    obtain ⟨a, b⟩ := hclose _ hk
    have h1 : (f (2 ^ j * 2048)).hi < ⌈x⌉₊ + 1 := by
      have := hj.trans_le (min_le_left _ _)
      exact_mod_cast (show ((f (2 ^ j * 2048)).hi : ℝ) < ⌈x⌉₊ + 1 by linarith)
    have h2 : ⌈x⌉₊ < (f (2 ^ j * 2048)).lo + 1 := by
      have := hj.trans_le (min_le_right _ _)
      exact_mod_cast (show (⌈x⌉₊ : ℝ) < (f (2 ^ j * 2048)).lo + 1 by linarith)
    have := h _ hk
    exact hne j (by omega)
  have h1 : ⌈x⌉₊ < (f 2048).lo + 1 := by
    have h2 := (hclose 2048 (by decide)).2
    have h3 : c / 2 ^ (2048 / 2) < 1 := last_width_lt hc
    generalize c / 2 ^ (2048 / 2) = w at h2 h3
    exact_mod_cast (show (⌈x⌉₊ : ℝ) < (f 2048).lo + 1 by linarith)
  have := h 2048 (by decide)
  omega

/-! ## How far the ends of an enclosure stand apart -/

theorem lnRatioSlack_le {k : Nat} (h : 128 ≤ k) : lnRatioSlack k ≤ 2 ^ (k / 2) := by
  have h1 : ∀ n, 64 ≤ n → 2 * n + 8 ≤ 2 ^ n := by
    intro n hn
    induction n, hn using Nat.le_induction with
    | base => norm_num
    | succ n hn ih => rw [pow_succ]; omega
  have := h1 (k / 2) (by omega)
  unfold lnRatioSlack seriesTerms
  omega

/-- The two ends for an argument `a/c` with `a < 2^T`. -/
theorem lnBounds_hi_le_lo {a c k T : Nat} (hc : 0 < c) (h : c ≤ a) (ha : a < 2 ^ T) (hk : 128 ≤ k) :
    ((lnBounds a c k).hi : ℝ) ≤ (lnBounds a c k).lo + T * 2 ^ (k / 2) := by
  have ht : Nat.log2 (a / c) < T :=
    (Nat.log2_lt (Nat.div_pos h hc).ne').2 (lt_of_le_of_lt (Nat.div_le_self _ _) ha)
  have : (lnBounds a c k).hi ≤ (lnBounds a c k).lo + T * 2 ^ (k / 2) :=
    Nat.add_le_add_left (Nat.mul_le_mul ht (lnRatioSlack_le hk)) _
  exact_mod_cast this

theorem two_pow_half_mul_le (k : Nat) : (2 : ℝ) ^ (k / 2) * 2 ^ (k / 2) ≤ 2 ^ k := by
  rw [← pow_add]; exact pow_le_pow_right₀ one_le_two (by omega)

/-- A unit of the width, scaled down by the precision. -/
theorem width_scaled {T : ℝ} (hT : 0 ≤ T) (k : Nat) : T * 2 ^ (k / 2) / 2 ^ k ≤ T / 2 ^ (k / 2) := by
  rw [div_le_div_iff₀ (by positivity) (by positivity), mul_assoc]
  exact mul_le_mul_of_nonneg_left (two_pow_half_mul_le k) hT

/-- `trunc` of an affine function of an enclosed logarithm `x`. -/
theorem floor_affine_close {A B x T : ℝ} {lo hi k : Nat} (hA : 0 ≤ A) (hB : 0 ≤ B) (hT : 0 ≤ T)
    (h1 : (lo : ℝ) ≤ 2 ^ k * x) (h2 : 2 ^ k * x ≤ hi) (hw : (hi : ℝ) ≤ lo + T * 2 ^ (k / 2)) :
    (⌊A * hi / 2 ^ k + B⌋₊ : ℝ) ≤ A * x + B + A * T / 2 ^ (k / 2) ∧
      A * x + B < ⌊A * lo / 2 ^ k + B⌋₊ + 1 + A * T / 2 ^ (k / 2) := by
  have hk : (0 : ℝ) < 2 ^ k := by positivity
  have hs : A * T * 2 ^ (k / 2) / 2 ^ k ≤ A * T / 2 ^ (k / 2) := width_scaled (mul_nonneg hA hT) k
  have e : ∀ y : ℝ, A * y / 2 ^ k = A / 2 ^ k * y := fun y => by ring
  have hd : 0 ≤ A / 2 ^ k := by positivity
  have ex : A / 2 ^ k * (2 ^ k * x) = A * x := by field_simp
  have ew : A / 2 ^ k * (lo + T * 2 ^ (k / 2)) = A / 2 ^ k * lo + A * T * 2 ^ (k / 2) / 2 ^ k := by ring
  have l1 := mul_le_mul_of_nonneg_left h1 hd
  have l2 := mul_le_mul_of_nonneg_left h2 hd
  have l3 := mul_le_mul_of_nonneg_left hw hd
  rw [ex] at l1 l2
  rw [ew] at l3
  rw [e, e]
  constructor
  · refine (Nat.floor_le (by positivity)).trans ?_
    linarith
  · have := Nat.lt_floor_add_one (A / 2 ^ k * lo + B)
    linarith

/-! ## The rounded formulas, exactly -/

/-- `trunc(A * ln(a / c) + B)` from an enclosure that is made of the two ends of `lnBounds a c`. -/
theorem exactly_floor_ln {f : Nat → Bounds} {a c T : Nat} {A B : ℝ} (hA : 0 ≤ A) (hB : 0 ≤ B) (hc : 0 < c) (h : c ≤ a)
    (ha : a < 2 ^ T) (hAT : A * T < 2 ^ 200)
    (hlo : ∀ k, (f k).lo = ⌊A * (lnBounds a c k).lo / 2 ^ k + B⌋₊)
    (hhi : ∀ k, (f k).hi = ⌊A * (lnBounds a c k).hi / 2 ^ k + B⌋₊) :
    exactly f Bounds.hi = ⌊A * Real.log ((a : ℝ) / c) + B⌋₊ := by
  have hx : 0 ≤ Real.log ((a : ℝ) / c) :=
    Real.log_nonneg ((one_le_div (by exact_mod_cast hc)).2 (by exact_mod_cast h))
  refine exactly_floor (c := A * T) (by positivity) hAT (fun k hk => ?_) (fun k hk => ?_)
  · obtain ⟨l, u⟩ := lnBounds_encloses a c k hc h
    have hk : (0 : ℝ) < 2 ^ k := by positivity
    rw [hlo, hhi]
    constructor
    · refine Nat.floor_le_floor (add_le_add_left ?_ _)
      rw [div_le_iff₀ hk]; nlinarith
    · refine Nat.floor_le_floor (add_le_add_left ?_ _)
      rw [le_div_iff₀ hk]; nlinarith
  · obtain ⟨l, u⟩ := lnBounds_encloses a c k hc h
    rw [hlo, hhi]
    exact floor_affine_close hA hB (by positivity) l u (lnBounds_hi_le_lo hc h ha hk)

theorem floor_div_two_pow (m l k : ℕ) : m * l / 2 ^ k = ⌊(m : ℝ) * l / 2 ^ k + 0⌋₊ := by
  rw [add_zero, ← Nat.floor_div_eq_div (K := ℝ)]; push_cast; rfl

/-- R144 step 3 and step 5: linear counting is `trunc(m * ln(m / V))`. -/
theorem linearCount_exact {m v : Nat} (hv : 0 < v) (h : v ≤ m) (hm : m < 2 ^ 64) :
    linearCount m v = ⌊(m : ℝ) * Real.log ((m : ℝ) / v)⌋₊ := by
  have hm' : (m : ℝ) < 2 ^ 64 := by exact_mod_cast hm
  have := exactly_floor_ln (f := linearBounds m v) (A := m) (B := 0) (T := 64) (by positivity) le_rfl hv h hm
    (by push_cast; linarith) (fun k => floor_div_two_pow _ _ _) (fun k => floor_div_two_pow _ _ _)
  rw [add_zero] at this
  exact this

/-- R144 step 4 and step 5: the large-range correction is `trunc(-2^32 * ln(1 - E / 2^32))`. -/
theorem largeRange_exact {e : Frac} (hd : 0 < e.den) (hd' : e.den < 2 ^ 160) (hu : e.num < 2 ^ 32 * e.den) :
    largeRange e = ⌊-2 ^ 32 * Real.log (1 - (e.num : ℝ) / e.den / 2 ^ 32)⌋₊ := by
  have := exactly_floor_ln (f := largeBounds e) (A := ((2 ^ 32 : ℕ) : ℝ)) (B := 0) (a := 2 ^ 32 * e.den)
    (c := 2 ^ 32 * e.den - e.num) (T := 192) (by positivity) le_rfl (by omega) (by omega)
    (by omega) (by norm_num) (fun k => floor_div_two_pow _ _ _) (fun k => floor_div_two_pow _ _ _)
  rw [add_zero, log_large_range hd hu] at this
  rw [largeRange, this]
  congr 1
  push_cast
  ring

/-- R113: `BloomK(n, m) = max(1, round((m / n) * ln 2))`. -/
theorem bloomK_exact {n m : Nat} (hn : 0 < n) (hm : m < 2 ^ 128) :
    bloomK n m = max 1 ⌊(m : ℝ) / n * Real.log 2 + 1 / 2⌋₊ := by
  have hn' : (1 : ℝ) ≤ n := by exact_mod_cast hn
  have hm' : (m : ℝ) < 2 ^ 128 := by exact_mod_cast hm
  have e : ∀ l k : ℕ, (2 * m * l + n * 2 ^ k) / (2 * n * 2 ^ k) = ⌊(m : ℝ) / n * l / 2 ^ k + 1 / 2⌋₊ := by
    intro l k
    rw [← Nat.floor_div_eq_div (K := ℝ)]
    congr 1
    push_cast
    field_simp
  have := exactly_floor_ln (f := bloomKBounds n m) (A := (m : ℝ) / n) (B := 1 / 2) (a := 2) (c := 1) (T := 2)
    (by positivity) (by norm_num) (by decide) (by decide) (by decide)
    (by have := div_le_self (by positivity : (0 : ℝ) ≤ m) hn'; push_cast; linarith)
    (fun k => e _ k) (fun k => e _ k)
  rw [bloomK, this]
  norm_num

/-- The two ends of the enclosure of `n * x / y^2` for `0 <= x <= 45` and `1/2 <= y <= 0.9`, when each of `x` and `y` is
known to within `w <= 1/10`. -/
theorem quotient_close {n x y w l h yl yh : ℝ} (hn : 0 ≤ n) (hx : 0 ≤ x) (hx' : x ≤ 45) (hy : 6 / 10 ≤ y)
    (hy' : y ≤ 9 / 10) (hw : 0 ≤ w) (hw' : w ≤ 1 / 10) (hl : x - w ≤ l) (hh : h ≤ x + w) (hyl : y - w ≤ yl)
    (hyh : y ≤ yh) (hyh' : yh ≤ y + w) :
    n * h / yl ^ 2 ≤ n * x / y ^ 2 + n * (2048 * w) ∧ n * x / y ^ 2 - n * (2048 * w) ≤ n * l / yh ^ 2 := by
  have key : h / yl ^ 2 ≤ x / y ^ 2 + 2048 * w ∧ x / y ^ 2 - 2048 * w ≤ l / yh ^ 2 := by
    have hyl0 : 1 / 2 ≤ yl := by linarith
    have hyh0 : 6 / 10 ≤ yh := by linarith
    constructor
    · have h1 : y ^ 2 - 2 * w * y ≤ yl ^ 2 := by nlinarith [pow_le_pow_left₀ (by linarith : 0 ≤ y - w) hyl 2, sq_nonneg w]
      rw [div_add' _ _ _ (by positivity), div_le_div_iff₀ (by positivity) (by positivity)]
      have h2 : 0 ≤ x + 2048 * w * y ^ 2 := by positivity
      have h3 : 0 ≤ w * y * (2048 * y ^ 3 - 4096 * w * y ^ 2 - 2 * x - y) := by
        refine mul_nonneg (by positivity) ?_
        have : 36 / 100 * (2048 * (6 / 10) - 4096 * (1 / 10)) ≤ y ^ 2 * (2048 * y - 4096 * w) :=
          mul_le_mul (by nlinarith) (by linarith) (by norm_num) (by positivity)
        nlinarith
      nlinarith [mul_le_mul_of_nonneg_left h1 h2, mul_le_mul_of_nonneg_right hh (sq_nonneg y)]
    · have h1 : yh ^ 2 ≤ y ^ 2 + 2 * w * y + w ^ 2 := by nlinarith [pow_le_pow_left₀ (by linarith : 0 ≤ yh) hyh' 2]
      rw [div_sub' (by positivity), div_le_div_iff₀ (by positivity) (by positivity)]
      have h2 : 36 / 100 ≤ y ^ 2 := by nlinarith
      have h3 : 36 / 100 ≤ yh ^ 2 := by nlinarith
      have h4 : 0 ≤ w * (2048 * (y ^ 2 * yh ^ 2) - x * (2 * y + w) - y ^ 2) := by
        refine mul_nonneg hw ?_
        have a := mul_le_mul h2 h3 (by norm_num) (by positivity)
        have b : x * (2 * y + w) ≤ 45 * 2 := mul_le_mul hx' (by linarith) (by positivity) (by norm_num)
        nlinarith
      nlinarith [mul_le_mul_of_nonneg_left h1 hx, mul_le_mul_of_nonneg_right hl (sq_nonneg y)]
  rw [mul_div_assoc, mul_div_assoc, mul_div_assoc]
  constructor
  · nlinarith [mul_le_mul_of_nonneg_left key.1 hn]
  · nlinarith [mul_le_mul_of_nonneg_left key.2 hn]

/-- The ends of an enclosure of a logarithm, scaled to the logarithm. -/
theorem scaled_close {x T : ℝ} {lo hi k : Nat} (hT : 0 ≤ T) (h1 : (lo : ℝ) ≤ 2 ^ k * x) (h2 : 2 ^ k * x ≤ hi)
    (hw : (hi : ℝ) ≤ lo + T * 2 ^ (k / 2)) :
    x - T / 2 ^ (k / 2) ≤ lo / 2 ^ k ∧ (lo : ℝ) / 2 ^ k ≤ x ∧ x ≤ hi / 2 ^ k ∧ (hi : ℝ) / 2 ^ k ≤ x + T / 2 ^ (k / 2) := by
  have hk : (0 : ℝ) < 2 ^ k := by positivity
  have hs := width_scaled hT k
  have l1 : (lo : ℝ) / 2 ^ k ≤ x := by rw [div_le_iff₀ hk]; linarith
  have l2 : x ≤ hi / 2 ^ k := by rw [le_div_iff₀ hk]; linarith
  have l3 : (hi : ℝ) / 2 ^ k ≤ lo / 2 ^ k + T * 2 ^ (k / 2) / 2 ^ k := by
    rw [← add_div]; exact div_le_div_of_nonneg_right hw hk.le
  exact ⟨by linarith, l1, l2, by linarith⟩

/-- R112, R117: `BloomM(n, P / 2^64) = ceil(-n * ln(P / 2^64) / (ln 2)^2)`. -/
theorem bloomM_exact {n p : Nat} (hn : n < 2 ^ 64) (hp : 0 < p) (h : p < 2 ^ 64) :
    bloomM n p = ⌈-(n : ℝ) * Real.log ((p : ℝ) / 2 ^ 64) / Real.log 2 ^ 2⌉₊ := by
  have hn' : (n : ℝ) < 2 ^ 64 := by exact_mod_cast hn
  have hp' : (1 : ℝ) ≤ p := by exact_mod_cast hp
  have hY1 : 6 / 10 ≤ Real.log 2 := by linarith [Real.log_two_gt_d9]
  have hY2 : Real.log 2 ≤ 7 / 10 := by linarith [Real.log_two_lt_d9]
  have hX : Real.log (((2 ^ 64 : ℕ) : ℝ) / p) = 64 * Real.log 2 - Real.log p := by
    rw [Real.log_div (by norm_num) (by linarith), Nat.cast_pow, Real.log_pow]; norm_num
  have hx0 : 0 ≤ Real.log (((2 ^ 64 : ℕ) : ℝ) / p) :=
    Real.log_nonneg ((one_le_div (by linarith)).2 (by exact_mod_cast h.le))
  have hx45 : Real.log (((2 ^ 64 : ℕ) : ℝ) / p) ≤ 45 := by rw [hX]; linarith [Real.log_nonneg hp']
  have hneg : -(n : ℝ) * Real.log ((p : ℝ) / 2 ^ 64) = n * Real.log (((2 ^ 64 : ℕ) : ℝ) / p) := by
    rw [← inv_div, Real.log_inv, Nat.cast_pow, Nat.cast_ofNat]; ring
  refine exactly_ceil (c := n * (2048 * 65)) ?_ (by linarith) (fun k hk => ?_) (fun k hk => ?_)
  · rw [hneg]; positivity
  · obtain ⟨a, b⟩ := bloomMBounds_encloses n p k hp h
    exact ⟨a, b (by omega)⟩
  · rw [hneg]
    obtain ⟨a1, a2⟩ := lnBounds_encloses (2 ^ 64) p k hp h.le
    obtain ⟨-, -, -, a3⟩ := scaled_close (by positivity) a1 a2
      (lnBounds_hi_le_lo (T := 65) hp h.le (Nat.pow_lt_pow_right (by decide) (by decide)) hk)
    obtain ⟨a4, -, -, -⟩ := scaled_close (by positivity) a1 a2
      (lnBounds_hi_le_lo (T := 65) hp h.le (Nat.pow_lt_pow_right (by decide) (by decide)) hk)
    obtain ⟨b1, b2⟩ := lnBounds_encloses 2 1 k (by decide) (by decide)
    obtain ⟨b3, -, b4, b5⟩ := scaled_close (T := ((65 : ℕ) : ℝ)) (by positivity) b1 b2
      (lnBounds_hi_le_lo (T := 65) (by decide) (by decide) (by decide) hk)
    rw [show ((2 : ℕ) : ℝ) / ((1 : ℕ) : ℝ) = 2 by norm_num] at b3 b4 b5
    have hw : (0 : ℝ) ≤ ((65 : ℕ) : ℝ) / 2 ^ (k / 2) := by positivity
    have hw' : ((65 : ℕ) : ℝ) / 2 ^ (k / 2) ≤ 1 / 10 := by
      rw [div_le_div_iff₀ (by positivity) (by norm_num)]
      have : (2 : ℝ) ^ 64 ≤ 2 ^ (k / 2) := pow_le_pow_right₀ one_le_two (by omega)
      push_cast
      linarith
    obtain ⟨q1, q2⟩ := quotient_close (n := n) (by positivity) hx0 hx45 hY1 (by linarith) hw hw' a4 a3 b3 b4 b5
    have e : (n : ℝ) * (2048 * (((65 : ℕ) : ℝ) / 2 ^ (k / 2))) = n * (2048 * 65) / 2 ^ (k / 2) := by push_cast; ring
    have e2 : ∀ u v : ℕ, (n : ℝ) * (u / 2 ^ k) / (v / 2 ^ k) ^ 2 = ((n * u * 2 ^ k : ℕ) : ℝ) / ((v ^ 2 : ℕ) : ℝ) := by
      intro u v
      rcases Nat.eq_zero_or_pos v with rfl | hv
      · simp
      · push_cast; field_simp
    rw [e, e2] at q1 q2
    have hlo : 0 < (lnBounds 2 1 k).lo := by
      have : (0 : ℝ) < (lnBounds 2 1 k).lo / 2 ^ k := by linarith
      exact_mod_cast (div_pos_iff_of_pos_right (by positivity)).1 this
    have hhi : 0 < (lnBounds 2 1 k).hi := lnBounds_hi_pos _ _ _
    have f1 : (bloomMBounds n p k).lo = ⌈((n * (lnBounds (2 ^ 64) p k).lo * 2 ^ k : ℕ) : ℝ) / (((lnBounds 2 1 k).hi ^ 2 : ℕ) : ℝ)⌉₊ :=
      ceilDiv_eq_ceil _ _ (by positivity)
    have f2 : (bloomMBounds n p k).hi = ⌈((n * (lnBounds (2 ^ 64) p k).hi * 2 ^ k : ℕ) : ℝ) / (((lnBounds 2 1 k).lo ^ 2 : ℕ) : ℝ)⌉₊ :=
      ceilDiv_eq_ceil _ _ (by positivity)
    rw [f1, f2]
    constructor
    · linarith [Nat.ceil_lt_add_one (show (0 : ℝ) ≤ ((n * (lnBounds (2 ^ 64) p k).hi * 2 ^ k : ℕ) : ℝ) / (((lnBounds 2 1 k).lo ^ 2 : ℕ) : ℝ) by positivity)]
    · linarith [Nat.le_ceil (((n * (lnBounds (2 ^ 64) p k).lo * 2 ^ k : ℕ) : ℝ) / (((lnBounds 2 1 k).hi ^ 2 : ℕ) : ℝ))]

/-- `BloomM(n, P / 2^64) >= 1` (R112). -/
theorem bloomM_pos {n p : Nat} (hn : 0 < n) (hn' : n < 2 ^ 64) (hp : 0 < p) (h : p < 2 ^ 64) : 0 < bloomM n p := by
  rw [bloomM_exact hn' hp h, Nat.ceil_pos]
  have hlog : Real.log ((p : ℝ) / 2 ^ 64) < 0 :=
    Real.log_neg (by positivity) ((div_lt_one (by positivity)).2 (by exact_mod_cast h))
  have hl2 := Real.log_pos (one_lt_two (α := ℝ))
  have hn0 : (0 : ℝ) < n := by exact_mod_cast hn
  exact div_pos (by nlinarith) (by positivity)

/-- A generous bound on the size, so that `bloomK_exact` applies to it. -/
theorem bloomM_lt {n p : Nat} (hn : n < 2 ^ 64) (hp : 0 < p) (h : p < 2 ^ 64) : bloomM n p < 2 ^ 128 := by
  have hn' : (n : ℝ) < 2 ^ 64 := by exact_mod_cast hn
  have hn0 : (0 : ℝ) ≤ n := by positivity
  have hp' : (1 : ℝ) ≤ p := by exact_mod_cast hp
  have hlog : -Real.log ((p : ℝ) / 2 ^ 64) ≤ 45 := by
    rw [Real.log_div (by linarith) (by positivity), Real.log_pow]
    have := Real.log_nonneg hp'
    have := Real.log_two_lt_d9
    push_cast; linarith
  have hl2 := Real.log_two_gt_d9
  rw [bloomM_exact hn hp h]
  refine lt_of_le_of_lt (Nat.ceil_le (n := 2 ^ 64 * 180) |>.2 ?_) (by norm_num)
  rw [div_le_iff₀ (by positivity)]
  push_cast
  have h1 : (1 / 4 : ℝ) ≤ Real.log 2 ^ 2 := by nlinarith
  nlinarith [mul_le_mul_of_nonneg_left hlog hn0]

/-- `BloomK(n, m) >= 1` (R113). -/
theorem bloomK_pos (n m : Nat) : 0 < bloomK n m := by unfold bloomK; omega

end Sys2Proof.Machine
end

