-- ==== Sys2Proof/Laws/Hll.lean ====
section
/-! SUPPORT. What the shared operations of the HyperLogLog commands do: the running-maximum update (R146) and the sums
over the register array as real sums (R144). -/

namespace Sys2Proof.Machine

theorem splitIndex_lt (x : Beat) (b : Nat) : splitIndex x b < 2 ^ b := Nat.mod_lt _ (by positivity)

theorem rank_le (w b : Nat) : rank w b ≤ Config.rankMax b := Nat.min_le_right _ _

theorem rank_lt {w b : Nat} (h : 4 ≤ b) : rank w b < 64 := by
  have := rank_le w b
  unfold Config.rankMax Config.hashWidth at this
  omega

theorem raiseReg_toNat {old : RegVal} {r : Nat} (h : r < 64) : (raiseReg old r).toNat = max old.toNat r := by
  unfold raiseReg
  rw [BitVec.toNat_ofNat, Nat.mod_eq_of_lt]
  have := old.isLt
  omega

/-- The update raises one register to the maximum and leaves the others. -/
theorem hllUpdate_read {s : State} (hw : Memory.wf s.reg) (hb : 4 ≤ s.hllB.toNat) (x : Beat) (j : Nat) :
    (regRead (hllUpdate x s) j).toNat =
      if j = splitIndex x s.hllB.toNat then
        max (regRead s j).toNat (rank (splitRemainder x s.hllB.toNat) s.hllB.toNat)
      else (regRead s j).toNat := by
  show (memRead (memWrite s.reg _ _) j).toNat = _
  rw [memRead_memWrite hw]
  split
  · subst j; rw [raiseReg_toNat (rank_lt hb)]
  · rfl

/-- `harmonicSum` is `2^63 * S` (R144 step 1). -/
theorem harmonicSum_real (s : State) :
    (harmonicSum (regValues s) : ℝ) =
      2 ^ 63 * ∑ j ∈ Finset.range (2 ^ s.hllB.toNat), 1 / (2 : ℝ) ^ (regRead s j).toNat := by
  unfold harmonicSum regValues hllM
  induction 2 ^ s.hllB.toNat with
  | zero => simp
  | succ n ih =>
    rw [List.range_succ, List.map_append, List.map_append, List.sum_append, Nat.cast_add, ih, Finset.sum_range_succ,
      mul_add]
    congr 1
    have : (regRead s n).toNat ≤ 63 := by have := (regRead s n).isLt; omega
    simp
    rw [pow_sub₀ _ (by norm_num) this]

theorem harmonicSum_pos (s : State) : 0 < harmonicSum (regValues s) := by
  have h : (0 : ℝ) < harmonicSum (regValues s) := by
    rw [harmonicSum_real]
    exact mul_pos (by norm_num) (Finset.sum_pos (fun _ _ => by positivity) (by simp))
  exact_mod_cast h

theorem rawEstimate_den_pos (s : State) : 0 < (rawEstimate (hllM s) (regValues s)).den :=
  Nat.mul_pos (alphaMM_den_pos _) (harmonicSum_pos s)

/-- The denominator of the raw estimate stays small enough for `largeRange_exact`, in every state. -/
theorem rawEstimate_den_lt (s : State) : (rawEstimate (hllM s) (regValues s)).den < 2 ^ 160 := by
  have hm : hllM s < 2 ^ 32 := Nat.pow_lt_pow_right (by decide) s.hllB.isLt
  have hs : harmonicSum (regValues s) ≤ hllM s * 2 ^ 63 := by
    have := List.sum_le_card_nsmul ((regValues s).map (fun r => 2 ^ (63 - r))) (2 ^ 63) (by
      intro x hx
      obtain ⟨r, -, rfl⟩ := List.mem_map.1 hx
      exact Nat.pow_le_pow_right (by decide) (by omega))
    simpa [harmonicSum, regValues] using this
  have ha := alphaMM_den_lt hm
  calc (alphaMM (hllM s)).den * harmonicSum (regValues s)
      ≤ 2 ^ 46 * (2 ^ 32 * 2 ^ 63) := Nat.mul_le_mul ha.le (hs.trans (Nat.mul_le_mul_right _ hm.le))
    _ < 2 ^ 160 := by norm_num

/-- A register array has no more zero registers than registers. -/
theorem zeroRegs_le (s : State) : zeroRegs (regValues s) ≤ hllM s := by
  have := List.count_le_length (a := 0) (l := regValues s)
  simpa [zeroRegs, regValues] using this

/-- `zeroRegs` counts the registers equal to 0 (R144 step 3). -/
theorem zeroRegs_card (s : State) :
    zeroRegs (regValues s) = ((Finset.range (2 ^ s.hllB.toNat)).filter (fun j => regRead s j = 0)).card := by
  unfold zeroRegs regValues hllM
  induction 2 ^ s.hllB.toNat with
  | zero => simp
  | succ n ih =>
    rw [List.range_succ, List.map_append, List.count_append, ih, Finset.range_add_one, Finset.filter_insert]
    by_cases h : regRead s n = 0
    · rw [if_pos h, Finset.card_insert_of_notMem (by simp)]; simp [h]
    · rw [if_neg h]
      have : (regRead s n).toNat ≠ 0 := fun h' => h (BitVec.eq_of_toNat_eq (by simpa using h'))
      simp [this]

theorem requireEstimator_of_valid {s : State} (h : s.hllValid = true) (go : Result) : requireEstimator s go = go := by
  simp [requireEstimator, h]

theorem requireEstimator_of_not {s : State} (h : s.hllValid = false) (go : Result) :
    requireEstimator s go = raise .notConfigured s := by simp [requireEstimator, h]

end Sys2Proof.Machine
end

