-- ==== Sys2Proof/Laws/State.lean ====
section
/-! SUPPORT. One lemma per field per named update of the state, true by definition, so that no proof unfolds a record
update. -/

namespace Sys2Proof.Machine

/-! ## send -/

@[simp] theorem send_bfValid (c : BitVec 8) (r : BitVec 64) (s : State) : (send c r s).bfValid = s.bfValid := rfl
@[simp] theorem send_bfM (c : BitVec 8) (r : BitVec 64) (s : State) : (send c r s).bfM = s.bfM := rfl
@[simp] theorem send_bfK (c : BitVec 8) (r : BitVec 64) (s : State) : (send c r s).bfK = s.bfK := rfl
@[simp] theorem send_bv (c : BitVec 8) (r : BitVec 64) (s : State) : (send c r s).bv = s.bv := rfl
@[simp] theorem send_hllValid (c : BitVec 8) (r : BitVec 64) (s : State) : (send c r s).hllValid = s.hllValid := rfl
@[simp] theorem send_hllB (c : BitVec 8) (r : BitVec 64) (s : State) : (send c r s).hllB = s.hllB := rfl
@[simp] theorem send_reg (c : BitVec 8) (r : BitVec 64) (s : State) : (send c r s).reg = s.reg := rfl
@[simp] theorem send_err (c : BitVec 8) (r : BitVec 64) (s : State) : (send c r s).err = s.err := rfl
@[simp] theorem send_ecode (c : BitVec 8) (r : BitVec 64) (s : State) : (send c r s).ecode = s.ecode := rfl
@[simp] theorem send_buffer (c : BitVec 8) (r : BitVec 64) (s : State) : (send c r s).buffer = s.buffer := rfl
@[simp] theorem send_port (c : BitVec 8) (r : BitVec 64) (s : State) : (send c r s).port = s.port := rfl
@[simp] theorem send_responses (c : BitVec 8) (r : BitVec 64) (s : State) : (send c r s).responses = s.responses ++ [⟨c, r⟩] := rfl

/-! ## recordFailure -/

@[simp] theorem recordFailure_bfValid (f : Failure) (s : State) : (recordFailure f s).bfValid = s.bfValid := rfl
@[simp] theorem recordFailure_bfM (f : Failure) (s : State) : (recordFailure f s).bfM = s.bfM := rfl
@[simp] theorem recordFailure_bfK (f : Failure) (s : State) : (recordFailure f s).bfK = s.bfK := rfl
@[simp] theorem recordFailure_bv (f : Failure) (s : State) : (recordFailure f s).bv = s.bv := rfl
@[simp] theorem recordFailure_hllValid (f : Failure) (s : State) : (recordFailure f s).hllValid = s.hllValid := rfl
@[simp] theorem recordFailure_hllB (f : Failure) (s : State) : (recordFailure f s).hllB = s.hllB := rfl
@[simp] theorem recordFailure_reg (f : Failure) (s : State) : (recordFailure f s).reg = s.reg := rfl
@[simp] theorem recordFailure_err (f : Failure) (s : State) : (recordFailure f s).err = true := rfl
@[simp] theorem recordFailure_ecode (f : Failure) (s : State) : (recordFailure f s).ecode = failureCode f := rfl
@[simp] theorem recordFailure_buffer (f : Failure) (s : State) : (recordFailure f s).buffer = s.buffer := rfl
@[simp] theorem recordFailure_port (f : Failure) (s : State) : (recordFailure f s).port = s.port := rfl
@[simp] theorem recordFailure_responses (f : Failure) (s : State) : (recordFailure f s).responses = s.responses := rfl

/-! ## regWrite -/

@[simp] theorem regWrite_bfValid (j : Nat) (v : RegVal) (s : State) : (regWrite j v s).bfValid = s.bfValid := rfl
@[simp] theorem regWrite_bfM (j : Nat) (v : RegVal) (s : State) : (regWrite j v s).bfM = s.bfM := rfl
@[simp] theorem regWrite_bfK (j : Nat) (v : RegVal) (s : State) : (regWrite j v s).bfK = s.bfK := rfl
@[simp] theorem regWrite_bv (j : Nat) (v : RegVal) (s : State) : (regWrite j v s).bv = s.bv := rfl
@[simp] theorem regWrite_hllValid (j : Nat) (v : RegVal) (s : State) : (regWrite j v s).hllValid = s.hllValid := rfl
@[simp] theorem regWrite_hllB (j : Nat) (v : RegVal) (s : State) : (regWrite j v s).hllB = s.hllB := rfl
@[simp] theorem regWrite_reg (j : Nat) (v : RegVal) (s : State) : (regWrite j v s).reg = memWrite s.reg j v := rfl
@[simp] theorem regWrite_err (j : Nat) (v : RegVal) (s : State) : (regWrite j v s).err = s.err := rfl
@[simp] theorem regWrite_ecode (j : Nat) (v : RegVal) (s : State) : (regWrite j v s).ecode = s.ecode := rfl
@[simp] theorem regWrite_buffer (j : Nat) (v : RegVal) (s : State) : (regWrite j v s).buffer = s.buffer := rfl
@[simp] theorem regWrite_port (j : Nat) (v : RegVal) (s : State) : (regWrite j v s).port = s.port := rfl
@[simp] theorem regWrite_responses (j : Nat) (v : RegVal) (s : State) : (regWrite j v s).responses = s.responses := rfl

/-! ## constructFilter -/

@[simp] theorem constructFilter_bfValid (m : BitVec 33) (k : BitVec 8) (s : State) : (constructFilter m k s).bfValid = true := rfl
@[simp] theorem constructFilter_bfM (m : BitVec 33) (k : BitVec 8) (s : State) : (constructFilter m k s).bfM = m := rfl
@[simp] theorem constructFilter_bfK (m : BitVec 33) (k : BitVec 8) (s : State) : (constructFilter m k s).bfK = k := rfl
@[simp] theorem constructFilter_bv (m : BitVec 33) (k : BitVec 8) (s : State) : (constructFilter m k s).bv = [] := rfl
@[simp] theorem constructFilter_hllValid (m : BitVec 33) (k : BitVec 8) (s : State) : (constructFilter m k s).hllValid = s.hllValid := rfl
@[simp] theorem constructFilter_hllB (m : BitVec 33) (k : BitVec 8) (s : State) : (constructFilter m k s).hllB = s.hllB := rfl
@[simp] theorem constructFilter_reg (m : BitVec 33) (k : BitVec 8) (s : State) : (constructFilter m k s).reg = s.reg := rfl
@[simp] theorem constructFilter_err (m : BitVec 33) (k : BitVec 8) (s : State) : (constructFilter m k s).err = s.err := rfl
@[simp] theorem constructFilter_ecode (m : BitVec 33) (k : BitVec 8) (s : State) : (constructFilter m k s).ecode = s.ecode := rfl
@[simp] theorem constructFilter_buffer (m : BitVec 33) (k : BitVec 8) (s : State) : (constructFilter m k s).buffer = s.buffer := rfl
@[simp] theorem constructFilter_port (m : BitVec 33) (k : BitVec 8) (s : State) : (constructFilter m k s).port = s.port := rfl
@[simp] theorem constructFilter_responses (m : BitVec 33) (k : BitVec 8) (s : State) : (constructFilter m k s).responses = s.responses := rfl

/-! ## constructEstimator -/

@[simp] theorem constructEstimator_bfValid (b : BitVec 5) (s : State) : (constructEstimator b s).bfValid = s.bfValid := rfl
@[simp] theorem constructEstimator_bfM (b : BitVec 5) (s : State) : (constructEstimator b s).bfM = s.bfM := rfl
@[simp] theorem constructEstimator_bfK (b : BitVec 5) (s : State) : (constructEstimator b s).bfK = s.bfK := rfl
@[simp] theorem constructEstimator_bv (b : BitVec 5) (s : State) : (constructEstimator b s).bv = s.bv := rfl
@[simp] theorem constructEstimator_hllValid (b : BitVec 5) (s : State) : (constructEstimator b s).hllValid = true := rfl
@[simp] theorem constructEstimator_hllB (b : BitVec 5) (s : State) : (constructEstimator b s).hllB = b := rfl
@[simp] theorem constructEstimator_reg (b : BitVec 5) (s : State) : (constructEstimator b s).reg = [] := rfl
@[simp] theorem constructEstimator_err (b : BitVec 5) (s : State) : (constructEstimator b s).err = s.err := rfl
@[simp] theorem constructEstimator_ecode (b : BitVec 5) (s : State) : (constructEstimator b s).ecode = s.ecode := rfl
@[simp] theorem constructEstimator_buffer (b : BitVec 5) (s : State) : (constructEstimator b s).buffer = s.buffer := rfl
@[simp] theorem constructEstimator_port (b : BitVec 5) (s : State) : (constructEstimator b s).port = s.port := rfl
@[simp] theorem constructEstimator_responses (b : BitVec 5) (s : State) : (constructEstimator b s).responses = s.responses := rfl

/-! ## softReset -/

@[simp] theorem softReset_bfValid (s : State) : (softReset s).bfValid = false := rfl
@[simp] theorem softReset_bfM (s : State) : (softReset s).bfM = 0 := rfl
@[simp] theorem softReset_bfK (s : State) : (softReset s).bfK = 0 := rfl
@[simp] theorem softReset_bv (s : State) : (softReset s).bv = [] := rfl
@[simp] theorem softReset_hllValid (s : State) : (softReset s).hllValid = false := rfl
@[simp] theorem softReset_hllB (s : State) : (softReset s).hllB = 0 := rfl
@[simp] theorem softReset_reg (s : State) : (softReset s).reg = [] := rfl
@[simp] theorem softReset_err (s : State) : (softReset s).err = false := rfl
@[simp] theorem softReset_ecode (s : State) : (softReset s).ecode = 0 := rfl
@[simp] theorem softReset_buffer (s : State) : (softReset s).buffer = s.buffer := rfl
@[simp] theorem softReset_port (s : State) : (softReset s).port = s.port := rfl
@[simp] theorem softReset_responses (s : State) : (softReset s).responses = s.responses := rfl

/-! ## hardwareReset -/

@[simp] theorem hardwareReset_bfValid (s : State) : (hardwareReset s).bfValid = false := rfl
@[simp] theorem hardwareReset_bfM (s : State) : (hardwareReset s).bfM = 0 := rfl
@[simp] theorem hardwareReset_bfK (s : State) : (hardwareReset s).bfK = 0 := rfl
@[simp] theorem hardwareReset_bv (s : State) : (hardwareReset s).bv = [] := rfl
@[simp] theorem hardwareReset_hllValid (s : State) : (hardwareReset s).hllValid = false := rfl
@[simp] theorem hardwareReset_hllB (s : State) : (hardwareReset s).hllB = 0 := rfl
@[simp] theorem hardwareReset_reg (s : State) : (hardwareReset s).reg = [] := rfl
@[simp] theorem hardwareReset_err (s : State) : (hardwareReset s).err = false := rfl
@[simp] theorem hardwareReset_ecode (s : State) : (hardwareReset s).ecode = 0 := rfl
@[simp] theorem hardwareReset_buffer (s : State) : (hardwareReset s).buffer = none := rfl
@[simp] theorem hardwareReset_port (s : State) : (hardwareReset s).port = s.port := rfl
@[simp] theorem hardwareReset_responses (s : State) : (hardwareReset s).responses = s.responses := rfl

/-! ## setBuffer -/

@[simp] theorem setBuffer_bfValid (p : Option Pending) (s : State) : (setBuffer p s).bfValid = s.bfValid := rfl
@[simp] theorem setBuffer_bfM (p : Option Pending) (s : State) : (setBuffer p s).bfM = s.bfM := rfl
@[simp] theorem setBuffer_bfK (p : Option Pending) (s : State) : (setBuffer p s).bfK = s.bfK := rfl
@[simp] theorem setBuffer_bv (p : Option Pending) (s : State) : (setBuffer p s).bv = s.bv := rfl
@[simp] theorem setBuffer_hllValid (p : Option Pending) (s : State) : (setBuffer p s).hllValid = s.hllValid := rfl
@[simp] theorem setBuffer_hllB (p : Option Pending) (s : State) : (setBuffer p s).hllB = s.hllB := rfl
@[simp] theorem setBuffer_reg (p : Option Pending) (s : State) : (setBuffer p s).reg = s.reg := rfl
@[simp] theorem setBuffer_err (p : Option Pending) (s : State) : (setBuffer p s).err = s.err := rfl
@[simp] theorem setBuffer_ecode (p : Option Pending) (s : State) : (setBuffer p s).ecode = s.ecode := rfl
@[simp] theorem setBuffer_buffer (p : Option Pending) (s : State) : (setBuffer p s).buffer = p := rfl
@[simp] theorem setBuffer_port (p : Option Pending) (s : State) : (setBuffer p s).port = s.port := rfl
@[simp] theorem setBuffer_responses (p : Option Pending) (s : State) : (setBuffer p s).responses = s.responses := rfl

/-! ## setPort -/

@[simp] theorem setPort_bfValid (q : List HostEvent) (s : State) : (setPort q s).bfValid = s.bfValid := rfl
@[simp] theorem setPort_bfM (q : List HostEvent) (s : State) : (setPort q s).bfM = s.bfM := rfl
@[simp] theorem setPort_bfK (q : List HostEvent) (s : State) : (setPort q s).bfK = s.bfK := rfl
@[simp] theorem setPort_bv (q : List HostEvent) (s : State) : (setPort q s).bv = s.bv := rfl
@[simp] theorem setPort_hllValid (q : List HostEvent) (s : State) : (setPort q s).hllValid = s.hllValid := rfl
@[simp] theorem setPort_hllB (q : List HostEvent) (s : State) : (setPort q s).hllB = s.hllB := rfl
@[simp] theorem setPort_reg (q : List HostEvent) (s : State) : (setPort q s).reg = s.reg := rfl
@[simp] theorem setPort_err (q : List HostEvent) (s : State) : (setPort q s).err = s.err := rfl
@[simp] theorem setPort_ecode (q : List HostEvent) (s : State) : (setPort q s).ecode = s.ecode := rfl
@[simp] theorem setPort_buffer (q : List HostEvent) (s : State) : (setPort q s).buffer = s.buffer := rfl
@[simp] theorem setPort_port (q : List HostEvent) (s : State) : (setPort q s).port = q := rfl
@[simp] theorem setPort_responses (q : List HostEvent) (s : State) : (setPort q s).responses = s.responses := rfl

end Sys2Proof.Machine
end

