-- ==== Sys2Proof/Laws/Exec.lean ====
section
/-! SUPPORT. What a command can do, said once and for every hash unit: `execWith_cases` (`exec_cases` for the default
one). It fails by `raise` with a status its rule allows (R184),
or answers by `respond` from the state its effect leaves; the invariant proofs and the frames cite this. -/

namespace Sys2Proof.Machine

/-- The failures a command's rule lets it end in once its header is legal (R184). -/
def failures : Instr → List Failure
  | .nop => []
  | .sysRst => []
  | .csrRd _ => [.badAddr]
  | .bfInit _ _ => [.badParam]
  | .bfInitNp _ _ => [.badParam]
  | .bfAddH _ _ => [.notConfigured]
  | .bfTestH _ _ => [.notConfigured]
  | .bfUniqH _ _ => [.notConfigured]
  | .bfAdd _ => [.notConfigured]
  | .bfTest _ => [.notConfigured]
  | .bfUniq _ => [.notConfigured]
  | .bfRd _ => [.notConfigured, .badAddr]
  | .hllInit _ => [.badParam]
  | .hllAddH _ => [.notConfigured]
  | .hllAdd _ => [.notConfigured]
  | .hllEst => [.notConfigured, .estDomain]
  | .hllRdr _ => [.notConfigured, .badAddr]

/-- The state a successful command of a block with hash unit `u` leaves before its response is sent. -/
def effect (u : HashUnit) (i : Instr) (s t : State) : Prop :=
  match i with
  | .nop => t = s
  | .sysRst => t = softReset s
  | .csrRd _ => t = s
  | .bfInit _ _ => ∃ m k, 1 ≤ m ∧ m ≤ Config.mMax ∧ 1 ≤ k ∧ k ≤ Config.kMax ∧
      t = constructFilter (BitVec.ofNat 33 m) (BitVec.ofNat 8 k) s
  | .bfInitNp _ _ => ∃ m k, 1 ≤ m ∧ m ≤ Config.mMax ∧ 1 ≤ k ∧ k ≤ Config.kMax ∧
      t = constructFilter (BitVec.ofNat 33 m) (BitVec.ofNat 8 k) s
  | .bfAddH h1 h2 => s.bfValid = true ∧ t = bfSetBits h1 h2 s
  | .bfTestH _ _ => t = s
  | .bfUniqH h1 h2 => s.bfValid = true ∧ (t = s ∨ t = bfSetBits h1 h2 s)
  | .bfAdd item => s.bfValid = true ∧ t = bfSetBits (u.hash1 item) (u.hash2 item) s
  | .bfTest _ => t = s
  | .bfUniq _ => s.bfValid = true ∧ (t = s ∨ ∃ h1 h2, t = bfSetBits h1 h2 s)
  | .bfRd _ => t = s
  | .hllInit _ => ∃ b, Config.bMin ≤ b ∧ b ≤ Config.bMax ∧ t = constructEstimator (BitVec.ofNat 5 b) s
  | .hllAddH x => s.hllValid = true ∧ t = hllUpdate x s
  | .hllAdd item => s.hllValid = true ∧ t = hllUpdate (u.hashX item) s
  | .hllEst => t = s
  | .hllRdr _ => t = s

theorem requireFilter_cases (s : State) (go : Result) :
    (s.bfValid = true ∧ requireFilter s go = go) ∨ (s.bfValid = false ∧ requireFilter s go = raise .notConfigured s) := by
  unfold requireFilter; cases s.bfValid <;> simp

theorem requireEstimator_cases (s : State) (go : Result) :
    (s.hllValid = true ∧ requireEstimator s go = go) ∨
      (s.hllValid = false ∧ requireEstimator s go = raise .notConfigured s) := by
  unfold requireEstimator; cases s.hllValid <;> simp

/-- Every command fails by `raise` with a failure its rule allows, or answers by `respond` after its effect. -/
theorem execWith_cases (u : HashUnit) (i : Instr) (s : State) :
    (∃ f ∈ failures i, execWith u i s = raise f s) ∨
      (∃ r t, effect u i s t ∧ execWith u i s = respond r t) := by
  cases i with
  | nop => exact .inr ⟨_, _, rfl, rfl⟩
  | sysRst => exact .inr ⟨_, _, rfl, rfl⟩
  | csrRd n =>
    simp only [execWith, exec, execCsrRd]
    split
    · exact .inr ⟨_, _, rfl, rfl⟩
    · exact .inl ⟨_, .head _, rfl⟩
  | bfInit k m =>
    simp only [execWith, exec, execBfInit]
    split <;> rename_i h
    · simp only [legalFilter, Bool.and_eq_true, decide_eq_true_eq] at h
      exact .inr ⟨_, _, ⟨_, _, h.1.1, h.1.2, h.2.1, h.2.2, rfl⟩, rfl⟩
    · exact .inl ⟨_, .head _, rfl⟩
  | bfInitNp n p =>
    simp only [execWith, exec, execBfInitNp]
    split <;> rename_i hn
    · exact .inl ⟨_, .head _, rfl⟩
    split <;> rename_i hp
    · exact .inl ⟨_, .head _, rfl⟩
    split <;> rename_i h
    · exact .inl ⟨_, .head _, rfl⟩
    · have hn' : 0 < n.toNat := Nat.pos_of_ne_zero fun h => hn (BitVec.eq_of_toNat_eq (by simpa using h))
      have hp' : 0 < p.toNat := Nat.pos_of_ne_zero fun h => hp (BitVec.eq_of_toNat_eq (by simpa using h))
      have h1 := bloomM_pos hn' n.isLt hp' p.isLt
      have h2 := bloomK_pos n.toNat (bloomM n.toNat p.toNat)
      exact .inr ⟨_, _, ⟨_, _, h1, by omega, h2, by omega, rfl⟩, rfl⟩
  | bfAddH h1 h2 =>
    rcases requireFilter_cases s (addPair h1 h2 s) with ⟨hv, h⟩ | ⟨-, h⟩
    · exact .inr ⟨_, _, ⟨hv, rfl⟩, h⟩
    · exact .inl ⟨_, .head _, h⟩
  | bfTestH h1 h2 =>
    rcases requireFilter_cases s (testPair h1 h2 s) with ⟨-, h⟩ | ⟨-, h⟩
    · exact .inr ⟨_, _, rfl, h⟩
    · exact .inl ⟨_, .head _, h⟩
  | bfUniqH h1 h2 =>
    have hx : execWith u (.bfUniqH h1 h2) s = requireFilter s (uniqPair h1 h2 s) := rfl
    rcases requireFilter_cases s (uniqPair h1 h2 s) with ⟨hv, h⟩ | ⟨-, h⟩
    · rw [hx, h]
      unfold uniqPair
      split
      · exact .inr ⟨_, _, ⟨hv, .inl rfl⟩, rfl⟩
      · exact .inr ⟨_, _, ⟨hv, .inr rfl⟩, rfl⟩
    · exact .inl ⟨_, .head _, h⟩
  | bfAdd item =>
    rcases requireFilter_cases s (addPair (u.hash1 item) (u.hash2 item) s) with ⟨hv, h⟩ | ⟨-, h⟩
    · exact .inr ⟨_, _, ⟨hv, rfl⟩, h⟩
    · exact .inl ⟨_, .head _, h⟩
  | bfTest item =>
    rcases requireFilter_cases s (testPair (u.hash1 item) (u.hash2 item) s) with ⟨-, h⟩ | ⟨-, h⟩
    · exact .inr ⟨_, _, rfl, h⟩
    · exact .inl ⟨_, .head _, h⟩
  | bfUniq entry =>
    have hx : execWith u (.bfUniq entry) s = requireFilter s (uniqEntry u entry s) := rfl
    rcases requireFilter_cases s (uniqEntry u entry s) with ⟨hv, h⟩ | ⟨-, h⟩
    · rw [hx, h]
      unfold uniqEntry uniqPair
      split
      · exact .inr ⟨_, _, ⟨hv, .inl rfl⟩, rfl⟩
      · split
        · split
          · exact .inr ⟨_, _, ⟨hv, .inl rfl⟩, rfl⟩
          · exact .inr ⟨_, _, ⟨hv, .inr ⟨_, _, rfl⟩⟩, rfl⟩
        · exact .inr ⟨_, _, ⟨hv, .inl rfl⟩, rfl⟩
    · exact .inl ⟨_, .head _, h⟩
  | bfRd a =>
    simp only [execWith, exec, execBfRd, requireFilter]
    split
    · split
      · exact .inr ⟨_, _, rfl, rfl⟩
      · exact .inl ⟨.badAddr, by simp [failures], rfl⟩
    · exact .inl ⟨.notConfigured, .head _, rfl⟩
  | hllInit b =>
    simp only [execWith, exec, execHllInit]
    split <;> rename_i h
    · exact .inr ⟨_, _, ⟨_, h.1, h.2, rfl⟩, rfl⟩
    · exact .inl ⟨_, .head _, rfl⟩
  | hllAddH x =>
    rcases requireEstimator_cases s (respond 0 (hllUpdate x s)) with ⟨hv, h⟩ | ⟨-, h⟩
    · exact .inr ⟨_, _, ⟨hv, rfl⟩, h⟩
    · exact .inl ⟨_, .head _, h⟩
  | hllAdd item =>
    rcases requireEstimator_cases s (respond 0 (hllUpdate (u.hashX item) s)) with ⟨hv, h⟩ | ⟨-, h⟩
    · exact .inr ⟨_, _, ⟨hv, rfl⟩, h⟩
    · exact .inl ⟨_, .head _, h⟩
  | hllEst =>
    have hx : execWith u .hllEst s = requireEstimator s (answerEstimate (estimate (hllM s) (regValues s)) s) := rfl
    rcases requireEstimator_cases s (answerEstimate (estimate (hllM s) (regValues s)) s) with ⟨-, h⟩ | ⟨-, h⟩
    · rw [hx, h]
      cases estimate (hllM s) (regValues s) with
      | none => exact .inl ⟨.estDomain, by simp [failures], rfl⟩
      | some e => exact .inr ⟨_, _, rfl, rfl⟩
    · exact .inl ⟨.notConfigured, .head _, h⟩
  | hllRdr j =>
    simp only [execWith, exec, execHllRdr, requireEstimator]
    split
    · split
      · exact .inr ⟨_, _, rfl, rfl⟩
      · exact .inl ⟨.badAddr, by simp [failures], rfl⟩
    · exact .inl ⟨.notConfigured, .head _, rfl⟩

/-- The default hash unit gives the block of `exec` (R172; log 6). -/
theorem execWith_default (i : Instr) (s : State) : execWith defaultHash i s = exec i s := by cases i <;> rfl

theorem exec_cases (i : Instr) (s : State) :
    (∃ f ∈ failures i, exec i s = raise f s) ∨ (∃ r t, effect defaultHash i s t ∧ exec i s = respond r t) :=
  execWith_default i s ▸ execWith_cases defaultHash i s

/-! ## Small lemmas of the shared operations -/

@[simp] theorem bfSetBits_bv (h1 h2 : Beat) (s : State) :
    (bfSetBits h1 h2 s).bv = (bloomIndices h1 h2 s.bfM.toNat s.bfK.toNat).foldl bvSetBit s.bv := rfl

@[simp] theorem hllUpdate_reg (x : Beat) (s : State) :
    (hllUpdate x s).reg =
      memWrite s.reg (splitIndex x s.hllB.toNat)
        (raiseReg (memRead s.reg (splitIndex x s.hllB.toNat)) (rank (splitRemainder x s.hllB.toNat) s.hllB.toNat)) := rfl

theorem bloomIdx_lt {m : Nat} (hm : 0 < m) (h1 h2 : Beat) (i : Nat) : bloomIdx h1 h2 m i < m := Nat.mod_lt _ hm

theorem mem_bloomIndices {h1 h2 : Beat} {m k j : Nat} :
    j ∈ bloomIndices h1 h2 m k ↔ ∃ i < k, j = (h1.toNat + i * h2.toNat) % m := by
  simp only [bloomIndices, bloomIdx, List.mem_map, List.mem_range]
  exact ⟨fun ⟨i, h, e⟩ => ⟨i, h, e.symm⟩, fun ⟨i, h, e⟩ => ⟨i, h, e.symm⟩⟩

/-- The outcome is a next state, whatever the command and the hash unit (R10). -/
theorem execWith_next (u : HashUnit) (i : Instr) (s : State) : ∃ t, execWith u i s = .next t := by
  rcases execWith_cases u i s with ⟨f, -, h⟩ | ⟨r, t, -, h⟩
  · exact ⟨_, h⟩
  · exact ⟨_, h⟩

theorem exec_next (i : Instr) (s : State) : ∃ t, exec i s = .next t :=
  execWith_default i s ▸ execWith_next defaultHash i s

/-- What every successful effect leaves alone, and what only construction and reset change (R22, R25, R28). -/
theorem effect_frame {u : HashUnit} {i : Instr} {s t : State} (h : effect u i s t) :
    t.buffer = s.buffer ∧ t.port = s.port ∧ t.responses = s.responses ∧
      (i ≠ .sysRst → t.err = s.err ∧ t.ecode = s.ecode) ∧
      (discardsFilter i = false → t.bfValid = s.bfValid ∧ t.bfM = s.bfM ∧ t.bfK = s.bfK) ∧
      (discardsEstimator i = false → t.hllValid = s.hllValid ∧ t.hllB = s.hllB) := by
  cases i <;> simp only [effect] at h
  case bfInit => obtain ⟨m, k, -, -, -, -, rfl⟩ := h; simp [discardsFilter]
  case bfInitNp => obtain ⟨m, k, -, -, -, -, rfl⟩ := h; simp [discardsFilter]
  case bfUniqH => rcases h with ⟨-, rfl | rfl⟩ <;> simp [bfSetBits]
  case bfUniq => rcases h with ⟨-, rfl | ⟨a, b, rfl⟩⟩ <;> simp [bfSetBits]
  case hllInit => obtain ⟨b, -, -, rfl⟩ := h; simp [discardsEstimator]
  case sysRst => subst h; simp [discardsEstimator, discardsFilter]
  all_goals first | (obtain rfl := h; simp) | (obtain ⟨-, rfl⟩ := h; simp [bfSetBits, hllUpdate])

theorem failureCode_ne_zero (f : Failure) : failureCode f ≠ 0 := by cases f <;> decide

theorem failureCode_le (f : Failure) : (failureCode f).toNat ≤ 6 := by cases f <;> decide

end Sys2Proof.Machine
end

