-- ==== Sys2Proof/Laws/Invariant.lean ====
section
/-! SUPPORT. Each shared operation keeps the invariant `StateOk` of Safety.lean. -/

namespace Sys2Proof.Machine

theorem bfSetBits_ok {s : State} (h : StateOk s) (hv : s.bfValid = true) (h1 h2 : Beat) :
    StateOk (bfSetBits h1 h2 s) := by
  obtain ⟨a, b, c, d, e, f, g⟩ := h
  have hw : Memory.wf (bfSetBits h1 h2 s).bv := foldl_bvSetBit_wf b.1 _
  refine ⟨a, ⟨hw, ?_⟩, c, d, e, f, g⟩
  rw [cells_below_iff hw]
  intro i hi
  rw [bfSetBits_bit b.1] at hi
  rcases hi with hi | ⟨l, hl, rfl⟩
  · exact (cells_below_iff b.1 _).1 b.2 i hi
  · exact Nat.mod_lt _ (a.1 hv).1

theorem hllUpdate_ok {s : State} (h : StateOk s) (hv : s.hllValid = true) (x : Beat) : StateOk (hllUpdate x s) := by
  obtain ⟨a, b, c, d, e, f, g⟩ := h
  refine ⟨a, b, c, ⟨memWrite_wf d.1 _ _, ?_⟩, e, f, g⟩
  intro q hq
  rcases mem_memWrite hq with ⟨rfl, -⟩ | hq
  · refine ⟨splitIndex_lt _ _, ?_⟩
    show (raiseReg _ _).toNat ≤ _
    rw [raiseReg_toNat (rank_lt (c.1 hv).1)]
    refine max_le ?_ (rank_le _ _)
    by_cases h0 : regRead s (splitIndex x s.hllB.toNat) = 0
    · rw [h0]; simp
    · exact (d.2 _ (mem_of_memRead_ne h0)).2
  · exact d.2 _ hq

theorem constructFilter_ok {s : State} (h : StateOk s) {m k : Nat} (h1 : 1 ≤ m) (h2 : m ≤ 2 ^ 32) (h3 : 1 ≤ k)
    (h4 : k ≤ 255) : StateOk (constructFilter (BitVec.ofNat 33 m) (BitVec.ofNat 8 k) s) := by
  obtain ⟨-, -, c, d, e, f, g⟩ := h
  refine ⟨⟨fun _ => ?_, fun h => by simp at h⟩, ⟨Memory.wf_nil, by simp⟩, c, d, e, f, g⟩
  simp [Config.mMax]; omega

theorem constructEstimator_ok {s : State} (h : StateOk s) {b : Nat} (h1 : 4 ≤ b) (h2 : b ≤ 16) :
    StateOk (constructEstimator (BitVec.ofNat 5 b) s) := by
  obtain ⟨a, b', -, -, e, f, g⟩ := h
  refine ⟨a, b', ⟨fun _ => ?_, fun h => by simp at h⟩, ⟨Memory.wf_nil, by simp⟩, e, f, g⟩
  simp [Config.bMin, Config.bMax]; omega

theorem softReset_ok {s : State} (h : StateOk s) : StateOk (softReset s) := by
  obtain ⟨-, -, -, -, -, f, g⟩ := h
  exact ⟨⟨fun h => by simp at h, fun _ => ⟨rfl, rfl⟩⟩, ⟨Memory.wf_nil, by simp⟩,
    ⟨fun h => by simp at h, fun _ => rfl⟩, ⟨Memory.wf_nil, by simp⟩, ⟨by simp, by simp⟩, f, g⟩

theorem send_ok {s : State} (h : StateOk s) {c : BitVec 8} {r : BitVec 64} (hc : c.toNat ≤ 6) (hr : c ≠ 0 → r = 0) :
    StateOk (send c r s) := by
  obtain ⟨a, b, c', d, e, f, g⟩ := h
  refine ⟨a, b, c', d, e, f, ?_⟩
  intro q hq
  simp only [send_responses, List.mem_append, List.mem_singleton] at hq
  rcases hq with hq | rfl
  · exact g q hq
  · exact ⟨hc, hr⟩

theorem recordFailure_ok {s : State} (h : StateOk s) (f : Failure) : StateOk (recordFailure f s) := by
  obtain ⟨a, b, c, d, -, f', g⟩ := h
  exact ⟨a, b, c, d, ⟨by simpa using failureCode_ne_zero f, failureCode_le f⟩, f', g⟩

end Sys2Proof.Machine
end

