-- ==== Sys2Proof/Laws/PerInstr.lean ====
section
/-! SUPPORT. Per-command lemmas. Family `Framing`: the encoder writes a header and exactly the payload beats that header
calls for (R73, R81). -/

namespace Sys2Proof.Laws.Framing

/-- The beats of a well-formed command are one header beat and the number of payload beats it calls for (R73). -/
def Statement (i : Instr) : Prop :=
  i.wellFormed = true → ∃ h p, encode i = h :: p ∧ p.length = payloadBeats h

/-- The beats of an item command (R73). -/
theorem itemCommand_framed (opc : BitVec 8) (item : List Byte) (hw : wellFormedItem item = true)
    (hb : ∀ h, opcOf h = opc → payloadBeats h = ((lenOf h).toNat + 7) / 8) :
    ∃ h p, itemCommand opc item = h :: p ∧ p.length = payloadBeats h := by
  refine ⟨_, _, rfl, ?_⟩
  rw [hb _ (opcOf_header _ _ _ _), lenOf_header, toNat_ofNat_length hw, length_packBeats]

theorem nop : Statement .nop := fun _ =>
  ⟨_, _, rfl, by rw [payloadBeats_nop _ (by simp)]; rfl⟩

theorem sysRst : Statement .sysRst := fun _ =>
  ⟨_, _, rfl, by rw [payloadBeats_sysRst _ (by simp)]; rfl⟩

theorem csrRd (n : BitVec 16) : Statement (.csrRd n) := fun _ =>
  ⟨_, _, rfl, by rw [payloadBeats_csrRd _ (by simp)]; rfl⟩

theorem bfInit (k : BitVec 16) (m : Beat) : Statement (.bfInit k m) := fun _ =>
  ⟨_, _, rfl, by rw [payloadBeats_bfInit _ (by simp)]; rfl⟩

theorem bfInitNp (n p : Beat) : Statement (.bfInitNp n p) := fun _ =>
  ⟨_, _, rfl, by rw [payloadBeats_bfInitNp _ (by simp)]; rfl⟩

theorem bfAddH (h1 h2 : Beat) : Statement (.bfAddH h1 h2) := fun _ =>
  ⟨_, _, rfl, by rw [payloadBeats_bfAddH _ (by simp)]; rfl⟩

theorem bfTestH (h1 h2 : Beat) : Statement (.bfTestH h1 h2) := fun _ =>
  ⟨_, _, rfl, by rw [payloadBeats_bfTestH _ (by simp)]; rfl⟩

theorem bfUniqH (h1 h2 : Beat) : Statement (.bfUniqH h1 h2) := fun _ =>
  ⟨_, _, rfl, by rw [payloadBeats_bfUniqH _ (by simp)]; rfl⟩

theorem bfAdd (item : List Byte) : Statement (.bfAdd item) := fun hw =>
  itemCommand_framed _ item hw payloadBeats_bfAdd

theorem bfTest (item : List Byte) : Statement (.bfTest item) := fun hw =>
  itemCommand_framed _ item hw payloadBeats_bfTest

theorem bfUniq (entry : Entry) : Statement (.bfUniq entry) := fun hw => by
  cases entry with
  | null => exact ⟨_, _, rfl, by rw [payloadBeats_bfUniq _ (by simp)]; simp⟩
  | item bytes => exact itemCommand_framed _ bytes hw payloadBeats_bfUniq

theorem bfRd (a : Beat) : Statement (.bfRd a) := fun _ =>
  ⟨_, _, rfl, by rw [payloadBeats_bfRd _ (by simp)]; rfl⟩

theorem hllInit (b : BitVec 16) : Statement (.hllInit b) := fun _ =>
  ⟨_, _, rfl, by rw [payloadBeats_hllInit _ (by simp)]; rfl⟩

theorem hllAddH (x : Beat) : Statement (.hllAddH x) := fun _ =>
  ⟨_, _, rfl, by rw [payloadBeats_hllAddH _ (by simp)]; rfl⟩

theorem hllAdd (item : List Byte) : Statement (.hllAdd item) := fun hw =>
  itemCommand_framed _ item hw payloadBeats_hllAdd

theorem hllEst : Statement .hllEst := fun _ =>
  ⟨_, _, rfl, by rw [payloadBeats_hllEst _ (by simp)]; rfl⟩

theorem hllRdr (j : BitVec 16) : Statement (.hllRdr j) := fun _ =>
  ⟨_, _, rfl, by rw [payloadBeats_hllRdr _ (by simp)]; rfl⟩

end Sys2Proof.Laws.Framing
end

