-- ==== Sys2Proof/Laws/Step.lean ====
section
/-! SUPPORT. Running the block for several steps, and one step by the host event it takes. -/

namespace Sys2Proof.Machine

/-- A run of one step more, on any machine of the host's. -/
theorem run_step (M : Host.Core) (k : Nat) (s : M.State) :
    Host.Core.run M (k + 1) s =
      match M.step s with
      | .next t => Host.Core.run M k t
      | .fault r => .fault r
      | .refused r => .refused r := rfl

theorem run_step_next (M : Host.Core) {s t : M.State} (h : M.step s = .next t) (k : Nat) :
    Host.Core.run M (k + 1) s = Host.Core.run M k t := by rw [run_step, h]

theorem run_step_one (M : Host.Core) (s : M.State) : Host.Core.run M 1 s = M.step s := by
  rw [run_step]; cases M.step s <;> rfl

theorem run_succ {s t : State} (h : step s = .next t) (k : Nat) :
    Host.Core.run Sys2Proof.core (k + 1) s = Host.Core.run Sys2Proof.core k t := run_step_next Sys2Proof.core h k

theorem run_one (s : State) : Host.Core.run Sys2Proof.core 1 s = step s := run_step_one Sys2Proof.core s

/-- With no host event the block waits (R189). -/
theorem advance_idle {run : Instr → State → Result} {s : State} (h : s.port = []) : advance run s = .next s := by
  simp [advance, h]

theorem step_idle {s : State} (h : s.port = []) : step s = .next s := advance_idle h

/-- A step takes the oldest host event. -/
theorem advance_event {run : Instr → State → Result} {s : State} {e : HostEvent} {rest : List HostEvent}
    (h : s.port = e :: rest) : advance run s = takeEvent run e (setPort rest s) := by simp [advance, h]

theorem step_event {s : State} {e : HostEvent} {rest : List HostEvent} (h : s.port = e :: rest) :
    step s = takeEvent exec e (setPort rest s) := advance_event h

/-- A beat that completes its command runs it with the buffer empty (R84). -/
theorem acceptBeat_complete {run : Instr → State → Result} {b : Beat} {s : State}
    (h : (receive b s.buffer).payload.length = payloadBeats (receive b s.buffer).header) :
    acceptBeat run b s = execute run (receive b s.buffer) (setBuffer none s) := if_pos h

/-- A beat that does not is collected (R84, R85). -/
theorem acceptBeat_incomplete {run : Instr → State → Result} {b : Beat} {s : State}
    (h : (receive b s.buffer).payload.length ≠ payloadBeats (receive b s.buffer).header) :
    acceptBeat run b s = .next (setBuffer (some (receive b s.buffer)) s) := if_neg h

/-! ## The block with the default hash unit (R172; log 6) -/

theorem stepWith_default (s : State) : stepWith defaultHash s = step s := by
  rw [stepWith, step, show execWith defaultHash = exec from funext fun i => funext fun s => execWith_default i s]

theorem coreWith_default : coreWith defaultHash = Sys2Proof.core := by
  rw [coreWith, show stepWith defaultHash = step from funext stepWith_default]; rfl

end Sys2Proof.Machine
end

