-- ==== Sys2Proof/Tests/Slice0.lean ====
section
/-! SUPPORT. The model's own tests. Expected values come from spec/95_test_vectors.md (the section stands with each
group) or from the examples of the rules. The second half shows, for every statement with hypotheses, a concrete case
that meets them. -/

namespace Sys2Proof.Tests

open Sys2Proof Sys2Proof.Machine

-- One test after another: many kernel evaluations at once would each take a thread of their own.
set_option Elab.async false

/-! ## Small states and readers -/

/-- The next state of an outcome. -/
def next? (o : Result) : Option State :=
  match o with
  | .next t => some t
  | .fault _ => none
  | .refused _ => none

theorem of_next? {o : Result} {t : State} (h : next? o = some t) : o = .next t := by
  cases o with
  | next s => simpa [next?] using h
  | fault f => cases f
  | refused r => cases h

/-- Status and result of the last response of an outcome. -/
def answer (o : Result) : Option (Nat × Nat) :=
  (next? o).bind fun t => t.responses.getLast?.map fun r => (r.status.toNat, r.result.toNat)

/-- An empty filter `m = 7, k = 4` (section 5, P5). -/
def filter7 : State := { State.reset with bfValid := true, bfM := 7, bfK := 4 }

/-- The same filter after `bf.addh 10, 3`: bits 2, 3, 5, 6. -/
def filter7Added : State := { filter7 with bv := [(0, 0x6C)] }

/-- An empty estimator `b = 4`. -/
def estimator4 : State := { State.reset with hllValid := true, hllB := 4 }

/-- An estimator `b = 4` with every register at `v`. -/
def allAt (v : RegVal) : State := { estimator4 with reg := (List.range 16).map (fun j => (j, v)) }

/-- An estimator `b = 4` with register 0 at 1 and the others at 0. -/
def oneAt1 : State := { estimator4 with reg := [(0, 1)] }

/-- A state with the host's beats at the port. -/
def port (beats : List Beat) (s : State) : State := { s with port := beats.map HostEvent.beat }

/-- "abc", "password123" and "192.168.0.1" in ASCII. -/
def abc : List Byte := [0x61, 0x62, 0x63]
def password123 : List Byte := [0x70, 0x61, 0x73, 0x73, 0x77, 0x6F, 0x72, 0x64, 0x31, 0x32, 0x33]
def address : List Byte := [0x31, 0x39, 0x32, 0x2E, 0x31, 0x36, 0x38, 0x2E, 0x30, 0x2E, 0x31]

/-! ## Well-formedness: an item longer than `LEN_MAX` is refused in every command that carries one -/

def tooLong : List Byte := List.replicate (2 ^ 32) 0

theorem tooLong_refused : wellFormedItem tooLong = false := by
  rw [wellFormedItem, tooLong, List.length_replicate]; decide

theorem test_illFormed_add : (Instr.bfAdd tooLong).wellFormed = false := tooLong_refused
theorem test_illFormed_test : (Instr.bfTest tooLong).wellFormed = false := tooLong_refused
theorem test_illFormed_uniq : (Instr.bfUniq (.item tooLong)).wellFormed = false := tooLong_refused
theorem test_illFormed_hllAdd : (Instr.hllAdd tooLong).wellFormed = false := tooLong_refused
theorem test_wellFormed_null : (Instr.bfUniq .null).wellFormed = true := by decide
theorem test_wellFormed_item : (Instr.bfAdd abc).wellFormed = true := by decide

/-! ## Decoding of beats written out from the encodings (section 2.1): one for every command -/

theorem test_decode_nop : decode 0x0000000000000000 [] = .ok .nop := by decide
theorem test_decode_sysRst : decode 0x0000000000000001 [] = .ok .sysRst := by decide
theorem test_decode_csrRd : decode 0x0000000000040002 [] = .ok (.csrRd 4) := by decide
theorem test_decode_bfInit : decode 0x0000000000070010 [0x2572] = .ok (.bfInit 7 9586) := by decide
theorem test_decode_bfInitNp :
    decode 0x0000000000000011 [0x3E8, 0x028F5C28F5C28F5C] = .ok (.bfInitNp 1000 0x028F5C28F5C28F5C) := by decide
theorem test_decode_bfAddH : decode 0x0000000000000012 [0x0A, 0x03] = .ok (.bfAddH 10 3) := by decide
theorem test_decode_bfTestH : decode 0x0000000000000013 [0x0A, 0x03] = .ok (.bfTestH 10 3) := by decide
theorem test_decode_bfUniqH : decode 0x0000000000000014 [0x0A, 0x03] = .ok (.bfUniqH 10 3) := by decide
theorem test_decode_bfAdd : decode 0x0000000300000015 [0xFFFFFFFFFF636261] = .ok (.bfAdd abc) := by decide
theorem test_decode_bfTest : decode 0x0000000300000016 [0x636261] = .ok (.bfTest abc) := by decide
theorem test_decode_bfUniq :
    decode 0x0000000B00000017 [0x64726F7773736170, 0x333231] = .ok (.bfUniq (.item password123)) := by decide
theorem test_decode_bfUniq_null : decode 0x0000000000000117 [] = .ok (.bfUniq .null) := by decide
theorem test_decode_bfRd : decode 0x0000000000000018 [0x95] = .ok (.bfRd 149) := by decide
theorem test_decode_hllInit : decode 0x0000000000040020 [] = .ok (.hllInit 4) := by decide
theorem test_decode_hllAddH :
    decode 0x0000000000000021 [0x0000800000000000] = .ok (.hllAddH 0x0000800000000000) := by decide
theorem test_decode_hllAdd :
    decode 0x0000000B00000022 [0x2E3836312E323931, 0x0000000000312E30] = .ok (.hllAdd address) := by decide
theorem test_decode_hllEst : decode 0x0000000000000023 [] = .ok .hllEst := by decide
theorem test_decode_hllRdr : decode 0x00000000000F0024 [] = .ok (.hllRdr 15) := by decide

/-! Illegal forms (section 2.2). -/

theorem test_decode_unknown : decode 0x00000000000000FF [] = .error .illegalOpcode := by decide
theorem test_decode_nop_arg : decode 0x0000000000010000 [] = .error .illegalField := by decide
theorem test_decode_est_len : decode 0x0000000100000023 [] = .error .illegalField := by decide
theorem test_decode_init_flag : decode 0x0000000000000120 [] = .error .illegalField := by decide
theorem test_decode_add_null : decode 0x0000000300000115 [0x636261] = .error .illegalField := by decide
theorem test_decode_uniq_null_len : decode 0x0000000300000117 [0x636261] = .error .illegalField := by decide
theorem test_payload_of_illegal : payloadBeats 0x0000000000010012 = 2 := by decide

/-- No two rows of the opcode map share an opcode. -/
theorem test_opcodes_distinct : opcodeMap.Pairwise (fun a b => a.opc ≠ b.opc) := by decide

theorem test_encode_hllAdd :
    encode (.hllAdd address) = [0x0000000B00000022, 0x2E3836312E323931, 0x0000000000312E30] := by decide
theorem test_table_bits : decodeTableWord 192 (0x12 + 10 * 2 ^ 64 + 3 * 2 ^ 128) = some (.bfAddH 10 3) := by decide

/-! ## Commands: at most two each -/

/-! System (section 2.4). -/

theorem test_nop : answer (exec .nop filter7) = some (0, 0) := by decide
theorem test_sysRst : (next? (exec .sysRst { filter7Added with err := true, ecode := 3 })).map
    (fun t => (t.bfValid, t.bfM, t.err, t.ecode)) = some (false, 0, false, 0) := by decide
theorem test_csrRd_status : answer (exec (.csrRd 0)
    { filter7 with hllValid := true, hllB := 14, err := true, ecode := 3 }) = some (0, 0x307) := by decide
theorem test_csrRd_bad : answer (exec (.csrRd 5) filter7) = some (5, 0) := by decide

/-! Sizing (section 3.1). -/

theorem test_bfInit : answer (exec (.bfInit 255 0x100000000) .reset) = some (0, 0xFF00000100000000) := by
  decide +kernel
theorem test_bfInit_bad : answer (exec (.bfInit 1 0x100000001) .reset) = some (4, 0) := by decide +kernel
theorem test_bfInitNp : answer (exec (.bfInitNp 448089842 0x028F5C28F5C28F5C) .reset) =
    some (0, 0x07000000FFFFFFFE) := by decide +kernel
theorem test_bfInitNp_bad : answer (exec (.bfInitNp 448089843 0x028F5C28F5C28F5C) .reset) = some (4, 0) := by
  decide +kernel

/-! Hash-level Bloom commands (section 5, P5; section 3.2). -/

theorem test_bfAddH : (next? (exec (.bfAddH 10 3) filter7)).map (·.bv) = some [(0, 0x6C)] := by decide +kernel
theorem test_bfAddH_no_wrap : bloomIndices 0xFFFFFFFFFFFFFFFF 0xFFFFFFFFFFFFFFFF 1000 5 = [615, 230, 845, 460, 75] := by
  decide +kernel
theorem test_bfTestH : answer (exec (.bfTestH 3 0) filter7Added) = some (0, 1) := by decide +kernel
theorem test_bfTestH_absent : answer (exec (.bfTestH 0 1) filter7Added) = some (0, 0) := by decide +kernel
theorem test_bfUniqH : answer (exec (.bfUniqH 10 3) filter7) = some (0, 1) := by decide +kernel
theorem test_bfUniqH_again : answer (exec (.bfUniqH 10 3) filter7Added) = some (0, 0) := by decide +kernel

/-! Hash unit and item-level Bloom commands (sections 2.3 and 3.3). -/

theorem test_rh64_trace : rh64 1 [] = 0x0D7CEA42B5057E4C := by decide +kernel
theorem test_rh64_abc : rh64 2 abc = 0x75F621E17571402C := by decide +kernel
theorem test_bfAdd : answer (exec (.bfAdd []) .reset) = some (3, 0) := by decide +kernel
theorem test_bfAdd_bits : ((next? (exec (.bfAdd abc) { filter7 with bfM := 9586, bfK := 7 })).map fun t =>
    [451, 1135, 2505, 3189, 4559, 6613, 8667, 450, 452].map (bvBit t.bv)) =
    some [true, true, true, true, true, true, true, false, false] := by decide +kernel
theorem test_bfTest : answer (exec (.bfTest [0x61, 0x62, 0x64])
    (bfSetBits 0x5F6FD10717E095C5 0x75F621E17571402C { filter7 with bfM := 9586, bfK := 7 })) = some (0, 0) := by
  decide +kernel
theorem test_bfTest_pair : answer (exec (.bfTest abc)
    (bfSetBits 0x5F6FD10717E095C5 0x75F621E17571402C { filter7 with bfM := 9586, bfK := 7 })) = some (0, 1) := by
  decide +kernel
theorem test_bfUniq_blank : answer (exec (.bfUniq (.item [0x20, 0x20])) filter7) = some (0, 2) := by decide +kernel
theorem test_bfUniq_null : answer (exec (.bfUniq .null) .reset) = some (3, 0) := by decide +kernel
theorem test_bfRd : answer (exec (.bfRd 0) filter7Added) = some (0, 0x6C) := by decide +kernel
theorem test_bfRd_bad : answer (exec (.bfRd 1) filter7Added) = some (5, 0) := by decide +kernel

/-! HyperLogLog (section 4 and the examples of R141, R145 to R149). -/

theorem test_hllInit : answer (exec (.hllInit 0) .reset) = some (0, 14) := by decide
theorem test_hllInit_bad : answer (exec (.hllInit 17) .reset) = some (4, 0) := by decide
theorem test_hllAddH : (next? (exec (.hllAddH 0x00000000FFFFFFFF) { estimator4 with hllB := 14 })).map (·.reg) =
    some [(16383, 33)] := by decide +kernel
theorem test_hllAddH_zero : (next? (exec (.hllAddH 0) { estimator4 with hllB := 14 })).map (·.reg) =
    some [(0, 50)] := by decide +kernel
theorem test_hllAdd : (next? (exec (.hllAdd address) { estimator4 with hllB := 14 })).map (·.reg) =
    some [(2942, 1)] := by decide +kernel
theorem test_hllAdd_bad : answer (exec (.hllAdd address) filter7) = some (3, 0) := by decide +kernel
theorem test_hllEst_linear : answer (exec .hllEst oneAt1) = some (0, 1) := by decide +kernel
theorem test_hllEst_large : answer (exec .hllEst (allAt 24)) = some (0, 184566526) := by decide +kernel
theorem test_hllRdr : answer (exec (.hllRdr 15) (allAt 29)) = some (0, 29) := by decide +kernel
theorem test_hllRdr_bad : answer (exec (.hllRdr 16) (allAt 29)) = some (5, 0) := by decide +kernel

/-! ## The step (section 2.2) -/

theorem test_step_unknown : (next? (step (port [0x30, 5, 6] .reset))).map (fun t => (t.port.length, t.responses)) =
    some (2, [⟨1, 0⟩]) := by decide +kernel
theorem test_step_collects : (next? (step (port [0x12, 1] .reset))).map (fun t => (t.buffer, t.responses)) =
    some (some ⟨0x12, []⟩, []) := by decide +kernel
theorem test_step_placed : answer (step (State.withFetchWord filter7 192 (0x13 + 10 * 2 ^ 64 + 3 * 2 ^ 128))) =
    some (0, 0) := by decide +kernel
theorem test_reset_wf : Memory.wf State.reset.bv ∧ Memory.wf State.reset.reg := by decide

/-! ## Witnesses: concrete cases that meet the hypotheses of the statements, clause by clause -/

/-- A filter is there, the state meets the invariant. -/
theorem filter7_ok : StateOk filter7 ∧ filter7.bfValid = true := by decide
theorem filter7Added_ok : StateOk filter7Added ∧ filter7Added.bfValid = true := by decide
theorem estimator4_ok : StateOk estimator4 ∧ estimator4.hllValid = true := by decide
theorem allAt29_ok : StateOk (allAt 29) ∧ (allAt 29).hllValid = true := by decide +kernel

/-- `bf.addh 10, 3` on the empty filter. -/
theorem add_10_3 : exec (.bfAddH 10 3) filter7 = .next { filter7Added with responses := [⟨0, 0⟩] } :=
  of_next? (by decide +kernel)

theorem witness_NopAnswersZeroAndChangesNothing : opcOf 0 = 0x00 := by decide

theorem witness_SysRstReturnsToTheResetTable :
    opcOf 0x01 = 0x01 ∧ (isBloomData (.bfRd 0) = true ∨ isHllData (.bfRd 0) = true) ∧
      (isBloomData .hllEst = true ∨ isHllData .hllEst = true) ∧
      Instr.nop ≠ .sysRst ∧ ∃ t, exec .nop { State.reset with err := true, ecode := 1 } = .next t :=
  ⟨by decide, by decide, by decide, by decide, exec_next _ _⟩

theorem witness_CsrRdReadsTheFiveRegisters :
    opcOf 0x00040002 = 0x02 ∧ 4 < (5 : BitVec 16).toNat ∧ 4 < (0xFFFF : BitVec 16).toNat ∧
      (0 : BitVec 16).toNat ≤ 4 ∧ (1 : BitVec 16).toNat ≤ 4 ∧ (2 : BitVec 16).toNat ≤ 4 ∧ (3 : BitVec 16).toNat ≤ 4 ∧
      (4 : BitVec 16).toNat ≤ 4 := by decide

/-- `m = 0`, `m = 2^32 + 1`, `k = 0`, `k = 256` are outside; `1, 1` and `2^32, 255` are the ends of the range. -/
theorem witness_BfInitConstructsAnEmptyFilter :
    opcOf 0x00070010 = 0x10 ∧ (0 : Beat).toNat < 1 ∧ 2 ^ 32 < (0x100000001 : Beat).toNat ∧ (0 : BitVec 16).toNat < 1 ∧
      255 < (256 : BitVec 16).toNat ∧
      (1 ≤ (1 : Beat).toNat ∧ (1 : Beat).toNat ≤ 2 ^ 32 ∧ 1 ≤ (1 : BitVec 16).toNat ∧ (1 : BitVec 16).toNat ≤ 255) ∧
      1 ≤ (0x100000000 : Beat).toNat ∧ (0x100000000 : Beat).toNat ≤ 2 ^ 32 ∧ 1 ≤ (255 : BitVec 16).toNat ∧
      (255 : BitVec 16).toNat ≤ 255 := by decide

/-- The real sizes for `n = 1000`, `p = 0.01` (section 3.1). -/
theorem real_1000 :
    Sys2Proof.Spec.bloomM 1000 0x028F5C28F5C28F5C = 9586 ∧ Sys2Proof.Spec.bloomK 1000 9586 = 7 :=
  ⟨(bloomM_exact (by decide) (by decide) (by decide)).symm.trans (by decide +kernel),
    (bloomK_exact (by decide) (by decide)).symm.trans (by decide +kernel)⟩

/-- A size above `M_MAX`: `n = 448089843`. -/
theorem real_large : Sys2Proof.Spec.bloomM 448089843 0x028F5C28F5C28F5C = 4294967304 :=
  (bloomM_exact (by decide) (by decide) (by decide)).symm.trans (by decide +kernel)

theorem witness_BfInitNpSizesByTheRealFormulas :
    opcOf 0x11 = 0x11 ∧ ((0 : Beat) = 0 ∨ (5 : Beat) = 0) ∧ ((5 : Beat) = 0 ∨ (0 : Beat) = 0) ∧
      ((1000 : Beat) ≠ 0 ∧ (0x028F5C28F5C28F5C : Beat) ≠ 0) ∧
      (Sys2Proof.Spec.bloomM 1000 0x028F5C28F5C28F5C ≤ 2 ^ 32 ∧ Sys2Proof.Spec.bloomK 1000 9586 ≤ 255) ∧
      2 ^ 32 < Sys2Proof.Spec.bloomM 448089843 0x028F5C28F5C28F5C := by
  rw [real_1000.1, real_1000.2, real_large]
  decide

theorem witness_BfInitNpAlwaysAnswers :
    opcOf 0x11 = 0x11 ∧ ((0 : Beat) = 0 ∨ (5 : Beat) = 0) ∧ ((5 : Beat) = 0 ∨ (0 : Beat) = 0) ∧
      (1 : Beat) ≠ 0 ∧ (0xFFFFFFFFFFFFFFFF : Beat) ≠ 0 := by decide

theorem witness_BfInitNpCompletesOrFailsByOperandBounds :
    ((0x2000000 : Beat) ≠ 0 ∧ (0x100000000 : Beat) ≠ 0 ∧ (0x2000000 : Beat).toNat ≤ 2 ^ 25 ∧
      2 ^ 32 ≤ (0x100000000 : Beat).toNat) ∧
    (0x200000000 : Beat) ≠ 0 ∧ (0x8000000000000000 : Beat) ≠ 0 ∧ 2 ^ 33 ≤ (0x200000000 : Beat).toNat ∧
      (0x8000000000000000 : Beat).toNat ≤ 2 ^ 63 := by decide

theorem witness_DoubleHashingIndices :
    0 < 7 ∧ 3 < 4 ∧ (5 : ℕ) ∈ bloomIndices 10 3 7 4 := by decide

theorem witness_BfAddHSetsExactlyItsBits :
    opcOf 0x12 = 0x12 ∧ State.reset.bfValid = false ∧ StateOk filter7 ∧ filter7.bfValid = true := by decide

theorem witness_BfTestHAnswersTheAndOfItsBits :
    opcOf 0x13 = 0x13 ∧ State.reset.bfValid = false ∧ filter7.bfValid = true := by decide

/-- All four bits of `10, 3` are 1 in the one filter and not in the other. -/
theorem witness_BfUniqHTestsAndSets :
    opcOf 0x14 = 0x14 ∧ State.reset.bfValid = false ∧
      (StateOk filter7Added ∧ filter7Added.bfValid = true ∧ ∀ l < filter7Added.bfK.toNat,
        bitOf filter7Added (((10 : Beat).toNat + l * (3 : Beat).toNat) % filter7Added.bfM.toNat) = true) ∧
      StateOk filter7 ∧ filter7.bfValid = true ∧
      ¬∀ l < filter7.bfK.toNat, bitOf filter7 (((10 : Beat).toNat + l * (3 : Beat).toNat) % filter7.bfM.toNat) = true :=
  ⟨by decide, by decide, ⟨filter7Added_ok.1, filter7Added_ok.2, by decide⟩, filter7_ok.1, filter7_ok.2, by decide⟩

theorem witness_BfAddAndBfTestUseTheHashPair :
    opcOf 0x15 = 0x15 ∧ opcOf 0x16 = 0x16 ∧ State.reset.bfValid = false ∧ StateOk filter7 ∧ filter7.bfValid = true ∧
      (0x5F6FD10717E095C5 : Beat) = rh64 1 abc ∧ (0x75F621E17571402C : Beat) = rh64 2 abc := by decide +kernel

/-- With `m = 1` every item maps to bit 0 (R115): seen before when it is 1, new when it is 0. -/
theorem witness_BfUniqIsOneStepOfTheUniquenessCheck :
    opcOf 0x17 = 0x17 ∧ State.reset.bfValid = false ∧ validItem [] = false ∧ validItem [0x20] = false ∧
      validItem abc = true ∧
      (0x5F6FD10717E095C5 : Beat) = rh64 1 abc ∧ (0x75F621E17571402C : Beat) = rh64 2 abc ∧
      (StateOk { filter7 with bfM := 1, bfK := 1, bv := [(0, 1)] } ∧
        ∀ l < 1, bitOf { filter7 with bfM := 1, bfK := 1, bv := [(0, 1)] }
          (((0x5F6FD10717E095C5 : Beat).toNat + l * (0x75F621E17571402C : Beat).toNat) % 1) = true) ∧
      StateOk { filter7 with bfM := 1, bfK := 1 } ∧
        ¬∀ l < 1, bitOf { filter7 with bfM := 1, bfK := 1 }
          (((0x5F6FD10717E095C5 : Beat).toNat + l * (0x75F621E17571402C : Beat).toNat) % 1) = true :=
  ⟨by decide, by decide, by decide, by decide, by decide, by decide +kernel, by decide +kernel,
    ⟨by decide, by decide⟩, by decide, by decide⟩

theorem witness_BfRdReadsAWordOfTheBitVector :
    opcOf 0x18 = 0x18 ∧ State.reset.bfValid = false ∧
      (filter7Added.bfValid = true ∧ filter7Added.bfM.toNat ≤ 64 * (1 : Beat).toNat) ∧
      StateOk filter7Added ∧ 64 * (0 : Beat).toNat < filter7Added.bfM.toNat := by decide

theorem witness_RhIsTheReferenceHash :
    ∃ (absorb mix : ℕ → ℕ → ℕ), (∀ h b, absorb h b = (h ^^^ b) * 0x00000100000001B3 % 2 ^ 64) ∧
      ∀ h c, mix h c = (h ^^^ (h >>> 33)) * c % 2 ^ 64 := ⟨_, _, fun _ _ => rfl, fun _ _ => rfl⟩

theorem witness_HllInitConstructsAnEmptyEstimator :
    opcOf 0x00040020 = 0x20 ∧
      (3 = (if (3 : BitVec 16) = 0 then 14 else (3 : BitVec 16).toNat) ∧ 3 < 4) ∧
      (17 = (if (17 : BitVec 16) = 0 then 14 else (17 : BitVec 16).toNat) ∧ 16 < 17) ∧
      (14 = (if (0 : BitVec 16) = 0 then 14 else (0 : BitVec 16).toNat) ∧ 4 ≤ 14 ∧ 14 ≤ 16) ∧
      (4 = (if (4 : BitVec 16) = 0 then 14 else (4 : BitVec 16).toNat) ∧ 4 ≤ 4 ∧ 4 ≤ 16) ∧
      16 = (if (16 : BitVec 16) = 0 then 14 else (16 : BitVec 16).toNat) ∧ 4 ≤ 16 ∧ 16 ≤ 16 := by decide

theorem witness_SplitIsIndexAndRemainder : 4 ≤ 64 ∧ 16 ≤ 64 ∧ 64 ≤ 64 := by decide

/-- `w = 0`, `w = 1` and the largest `w`. -/
theorem witness_RankIsThePositionOfTheFirstOne :
    14 < 64 ∧ 0 < 2 ^ (64 - 14) ∧ (1 < 2 ^ (64 - 14) ∧ 1 ≠ 0) ∧ 2 ^ 50 - 1 < 2 ^ (64 - 14) ∧ 2 ^ 50 - 1 ≠ 0 := by norm_num

theorem witness_HllAddHRaisesOneRegister :
    opcOf 0x21 = 0x21 ∧ State.reset.hllValid = false ∧ StateOk (allAt 29) ∧ (allAt 29).hllValid = true ∧
      (1 : ℕ) ≠ (0 : Beat).toNat % 2 ^ (allAt 29).hllB.toNat := by decide +kernel

theorem witness_HllAddRaisesTheRegisterOfItsHash :
    opcOf 0x22 = 0x22 ∧ State.reset.hllValid = false ∧ StateOk (allAt 29) ∧ (allAt 29).hllValid = true ∧
      (0xBEC65DA22DCB8B7E : Beat) = rh64 3 address ∧
      (0 : ℕ) ≠ (0xBEC65DA22DCB8B7E : Beat).toNat % 2 ^ (allAt 29).hllB.toNat := by decide +kernel

theorem witness_HllRdrReadsOneRegister :
    opcOf 0x000F0024 = 0x24 ∧ State.reset.hllValid = false ∧
      (estimator4.hllValid = true ∧ 2 ^ estimator4.hllB.toNat ≤ (16 : BitVec 16).toNat) ∧
      (15 : BitVec 16).toNat < 2 ^ estimator4.hllB.toNat := by decide

theorem witness_AlphaFractionIsTheRealConstant : (0 : ℕ) < 16 ∧ 0 < 32 ∧ 0 < 64 ∧ 0 < 128 := by decide

/-- The raw estimate when all sixteen registers hold `v`: `172.288 * 2^v / 16` (R144). -/
theorem rawE_all {s : State} {v : ℕ} (hb : s.hllB = 4) (h : ∀ j < 16, (regRead s j).toNat = v) :
    Sys2Proof.Spec.rawE s = 172288 / 1000 * 2 ^ v / 16 := by
  have h16 : 2 ^ s.hllB.toNat = 16 := by rw [hb]; rfl
  unfold Sys2Proof.Spec.rawE Sys2Proof.Spec.alphaMM
  rw [h16, Finset.sum_congr rfl (g := fun _ => 1 / (2 : ℝ) ^ v)
    (fun j hj => by rw [h j (Finset.mem_range.1 hj)])]
  simp only [Finset.sum_const, Finset.card_range, if_true, nsmul_eq_mul]
  field_simp
  norm_num

theorem allAt_read (v : RegVal) : ∀ j < 16, (regRead (allAt v) j).toNat = v.toNat := by
  intro j hj
  interval_cases j <;> rfl

theorem estimator4_read : ∀ j < 16, (regRead estimator4 j).toNat = 0 := fun _ _ => rfl

/-- All registers 1: `E = 21.536 <= 40`, none 0. All registers 2: `40 < E = 43.072`. -/
theorem witness_HllEstAnswersTheRawEstimate :
    opcOf 0x23 = 0x23 ∧ State.reset.hllValid = false ∧
      ((allAt 1).hllValid = true ∧ 16 = 2 ^ (allAt 1).hllB.toNat ∧
        Sys2Proof.Spec.rawE (allAt 1) ≤ 5 / 2 * ((16 : ℕ) : ℝ) ∧ Sys2Proof.Spec.zeroCount (allAt 1) = 0) ∧
      (allAt 2).hllValid = true ∧ 16 = 2 ^ (allAt 2).hllB.toNat ∧
        5 / 2 * ((16 : ℕ) : ℝ) < Sys2Proof.Spec.rawE (allAt 2) ∧ Sys2Proof.Spec.rawE (allAt 2) ≤ 1 / 30 * 2 ^ 32 := by
  rw [rawE_all (v := 1) rfl (allAt_read 1), rawE_all (v := 2) rfl (allAt_read 2)]
  exact ⟨by decide, by decide, ⟨rfl, rfl, by norm_num, by decide +kernel⟩, rfl, rfl, by norm_num, by norm_num⟩

/-- The empty estimator: `V = m = 16`. One register at 29 and the others 0: `V = 15`. -/
theorem witness_HllEstAnswersTheLinearCount :
    (estimator4.hllValid = true ∧ 16 = 2 ^ estimator4.hllB.toNat ∧ 16 = Sys2Proof.Spec.zeroCount estimator4 ∧
      Sys2Proof.Spec.rawE estimator4 ≤ 5 / 2 * ((16 : ℕ) : ℝ) ∧ 16 ≠ 0) ∧
    15 = Sys2Proof.Spec.zeroCount oneAt1 := by
  rw [rawE_all (v := 0) rfl estimator4_read]
  exact ⟨⟨rfl, rfl, by decide +kernel, by norm_num, by decide⟩, by decide +kernel⟩

/-- All registers 24: `E = 10.768 * 2^24`. -/
theorem witness_HllEstAnswersTheLargeRangeCorrection :
    (allAt 24).hllValid = true ∧ 16 = 2 ^ (allAt 24).hllB.toNat ∧
      5 / 2 * ((16 : ℕ) : ℝ) < Sys2Proof.Spec.rawE (allAt 24) ∧ 1 / 30 * 2 ^ 32 < Sys2Proof.Spec.rawE (allAt 24) ∧
      Sys2Proof.Spec.rawE (allAt 24) < 2 ^ 32 := by
  rw [rawE_all (v := 24) rfl (allAt_read 24)]
  exact ⟨rfl, rfl, by norm_num, by norm_num, by norm_num⟩

/-- All registers 29: `E = 10.768 * 2^29 >= 2^32`; all registers 28 stay below. -/
theorem witness_HllEstFailsExactlyOutsideTheDomain :
    ((allAt 29).hllValid = true ∧ 16 = 2 ^ (allAt 29).hllB.toNat ∧
      5 / 2 * ((16 : ℕ) : ℝ) < Sys2Proof.Spec.rawE (allAt 29) ∧ 1 / 30 * 2 ^ 32 < Sys2Proof.Spec.rawE (allAt 29) ∧
      2 ^ 32 ≤ Sys2Proof.Spec.rawE (allAt 29)) ∧
    (allAt 28).hllValid = true ∧ 16 = 2 ^ (allAt 28).hllB.toNat ∧ Sys2Proof.Spec.rawE (allAt 28) < 2 ^ 32 := by
  rw [rawE_all (v := 29) rfl (allAt_read 29), rawE_all (v := 28) rfl (allAt_read 28)]
  exact ⟨⟨rfl, rfl, by norm_num, by norm_num, by norm_num⟩, rfl, rfl, by norm_num⟩

theorem witness_EstimatesStayBelowTwoToTheThirtyNine :
    StateOk (allAt 28) ∧ (allAt 28).hllValid = true ∧
      (estimate (hllM (allAt 28)) (regValues (allAt 28))).isSome = true := by decide +kernel

theorem est_domain_29 : FailsWith .hllEst 6 (allAt 29) := of_next? (by decide +kernel)

theorem witness_EstDomainFailureIsStickyUnderAdds :
    StateOk (allAt 29) ∧ (allAt 29).hllValid = true ∧ FailsWith .hllEst 6 (allAt 29) ∧
      addedHash (.hllAddH 0) = some 0 ∧ ∃ t, exec (.hllAddH 0) (allAt 29) = .next t :=
  ⟨allAt29_ok.1, allAt29_ok.2, est_domain_29, rfl, exec_next _ _⟩

theorem witness_UnknownOpcodesAreIllegalAndTakeNoPayload :
    (0x02 < (opcOf 0x03).toNat ∧ (opcOf 0x03).toNat < 0x10) ∧ (0x02 < (opcOf 0x0F).toNat ∧ (opcOf 0x0F).toNat < 0x10) ∧
      (0x18 < (opcOf 0x19).toNat ∧ (opcOf 0x19).toNat < 0x20) ∧ (0x18 < (opcOf 0x1F).toNat ∧ (opcOf 0x1F).toNat < 0x20) ∧
      0x24 < (opcOf 0x25).toNat ∧ 0x24 < (opcOf 0xFF).toNat := by decide

theorem witness_ReservedFieldsMakeAnIllegalForm :
    opcOf 0x00 ∈ ([0x00, 0x01, 0x11, 0x12, 0x13, 0x14, 0x18, 0x21, 0x23] : List (BitVec 8)) ∧
      opcOf 0x24 ∈ ([0x02, 0x10, 0x20, 0x24] : List (BitVec 8)) ∧
      opcOf 0x22 ∈ ([0x15, 0x16, 0x22] : List (BitVec 8)) ∧ opcOf 0x300000117 = 0x17 := by decide

theorem witness_PayloadBeatsDependOnOpcodeAndLengthOnly :
    opcOf 0x23 ∈ ([0x00, 0x01, 0x02, 0x20, 0x23, 0x24] : List (BitVec 8)) ∧
      opcOf 0x10 ∈ ([0x10, 0x18, 0x21] : List (BitVec 8)) ∧
      opcOf 0x14 ∈ ([0x11, 0x12, 0x13, 0x14] : List (BitVec 8)) ∧
      opcOf 0xFFFFFFFF00000017 ∈ ([0x15, 0x16, 0x17, 0x22] : List (BitVec 8)) ∧
      opcOf 0x30 ∉ ([0x00, 0x01, 0x02, 0x10, 0x11, 0x12, 0x13, 0x14, 0x15, 0x16, 0x17, 0x18, 0x20, 0x21, 0x22, 0x23,
        0x24] : List (BitVec 8)) := by decide

/-- The two payloads of section 2.3, equal below `LEN = 3`. -/
theorem witness_ItemBytesComeFromTheirLanes :
    opcOf 0x300000015 ∈ ([0x15, 0x16, 0x17, 0x22] : List (BitVec 8)) ∧
      ∀ t < (lenOf 0x300000015).toNat,
        (([0xFFFFFFFFFF636261] : List Beat).getD (t / 8) 0).extractLsb' (8 * (t % 8)) 8 =
          (([0x0000000000636261] : List Beat).getD (t / 8) 0).extractLsb' (8 * (t % 8)) 8 := by decide

theorem witness_DecodeOfEncodeIsTheCommand :
    (Instr.bfUniq (.item password123)).wellFormed = true ∧ (Instr.hllRdr 0xFFFF).wellFormed = true := by decide

theorem witness_StepRunsTheDecodedCommand :
    ((port [0x23] State.reset).port = .beat 0x23 :: [] ∧ (port [0x23] State.reset).buffer = none ∧
      payloadBeats 0x23 = 0 ∧ decode 0x23 [] = .ok .hllEst) ∧
    (port [3] { State.reset with buffer := some ⟨0x12, [10]⟩ }).port = .beat 3 :: [] ∧
      ([10] : List Beat).length + 1 = payloadBeats 0x12 ∧ decode 0x12 ([10] ++ [3]) = .ok (.bfAddH 10 3) := by decide

theorem witness_StepFailsAnIllegalCommand :
    ((port [0xFF] State.reset).port = .beat 0xFF :: [] ∧ payloadBeats 0xFF = 0 ∧
      decode 0xFF [] = .error .illegalOpcode) ∧
    (port [2] { State.reset with buffer := some ⟨0x10012, [1]⟩ }).port = .beat 2 :: [] ∧
      ([1] : List Beat).length + 1 = payloadBeats 0x10012 ∧ decode 0x10012 ([1] ++ [2]) = .error .illegalField := by
  decide

theorem witness_IncompleteCommandsChangeOnlyTheBuffer :
    ((port [0x12] State.reset).port = .beat 0x12 :: [] ∧ State.reset.buffer = none ∧ 0 < payloadBeats 0x12) ∧
    ((port [1] { State.reset with buffer := some ⟨0x12, []⟩ }).port = .beat 1 :: [] ∧
      ([] : List Beat).length + 1 < payloadBeats 0x12) ∧ State.reset.port = [] := by decide

theorem witness_BeatsOfOneCommandExecuteIt :
    (State.reset.buffer = none ∧ ([10, 3] : List Beat).length = payloadBeats 0x12) ∧
      (port [0x12, 10, 3, 0] State.reset).port =
        ((0x12 : Beat) :: [10, 3]).map HostEvent.beat ++ [HostEvent.beat 0] := by decide

theorem witness_HardwareResetLeavesTheResetTable :
    ({ filter7Added with port := [.reset], buffer := some ⟨0x12, [10]⟩ } : State).port = .reset :: [] ∧
      ({ filter7Added with port := [.beatCutByReset 3] } : State).port = .beatCutByReset 3 :: [] ∧
      isBloomData (.bfRd 0) = true ∧ isHllData .hllEst = true := by decide

theorem witness_StepOfAPlacedWordRunsIt :
    decodeTableWord 192 (0x12 + 10 * 2 ^ 64 + 3 * 2 ^ 128) = some (.bfAddH 10 3) ∧
      decodeTableWord 64 0x23 = some .hllEst := by decide

theorem witness_EveryCommandSendsOneResponse : ∃ t, exec .hllEst State.reset = .next t := exec_next _ _

/-- `hll.est` on an unconstructed estimator fails with status 3. -/
theorem witness_FailedCommandsChangeOnlyTheErrorSummary :
    ∃ t, exec .hllEst State.reset = .next t ∧ t.responses = State.reset.responses ++ [⟨3, 0⟩] ∧
      (⟨3, 0⟩ : Response).status ≠ 0 := ⟨_, rfl, rfl, by decide⟩

theorem witness_StatusesByCommand :
    ∃ t, exec (.csrRd 5) State.reset = .next t ∧ t.responses = State.reset.responses ++ [⟨5, 0⟩] :=
  ⟨_, of_next? (t := { State.reset with err := true, ecode := 5, responses := [⟨5, 0⟩] }) (by decide +kernel), rfl⟩

theorem witness_TheErrorSummaryIsSticky :
    (∃ t, exec .nop State.reset = .next t ∧ t.responses = State.reset.responses ++ [⟨0, 0⟩] ∧
      (⟨0, 0⟩ : Response).status = 0 ∧ Instr.nop ≠ .sysRst) ∧
    ∃ t, exec .hllEst State.reset = .next t ∧ t.responses = State.reset.responses ++ [⟨3, 0⟩] ∧
      (⟨3, 0⟩ : Response).status ≠ 0 := ⟨⟨_, rfl, rfl, rfl, by decide⟩, _, rfl, rfl, by decide⟩

theorem witness_ConfigurationsAreImmutable :
    (∃ t, exec (.hllInit 4) filter7 = .next t) ∧ discardsFilter (.hllInit 4) = false ∧
      (∃ t, exec (.bfInit 4 7) estimator4 = .next t) ∧ discardsEstimator (.bfInit 4 7) = false :=
  ⟨exec_next _ _, rfl, exec_next _ _, rfl⟩

theorem witness_TheTwoStructuresAreIndependent :
    (isBloom (.bfAddH 10 3) = true ∧ ∃ t, exec (.bfAddH 10 3) filter7 = .next t) ∧
      isHll (.hllAddH 0) = true ∧ ∃ t, exec (.hllAddH 0) estimator4 = .next t :=
  ⟨⟨rfl, exec_next _ _⟩, rfl, exec_next _ _⟩

theorem witness_QueriesChangeNoState :
    ∃ t, exec (.csrRd 0) State.reset = .next t ∧ t.responses = State.reset.responses ++ [⟨0, 0⟩] ∧
      (⟨0, 0⟩ : Response).status = 0 ∧ ∃ n, Instr.csrRd 0 = .csrRd n :=
  ⟨_, of_next? (t := { State.reset with responses := [⟨0, 0⟩] }) (by decide +kernel), rfl, rfl, _, rfl⟩

theorem witness_DataCommandsNeedTheirStructure :
    (isBloomData (.bfRd 0) = true ∧ State.reset.bfValid = false) ∧
      (isHllData .hllEst = true ∧ State.reset.hllValid = false) ∧
      isBloomData (.bfInit 4 7) = false ∧ isHllData (.bfInit 4 7) = false := by decide

theorem witness_BitsAreNeverCleared :
    StateOk filter7Added ∧ (∃ t, exec (.bfAddH 0 1) filter7Added = .next t) ∧ discardsFilter (.bfAddH 0 1) = false ∧
      bitOf filter7Added 6 = true ∧ (∃ t, exec (.bfTestH 0 1) filter7Added = .next t) ∧
      addedPair (.bfTestH 0 1) = none := ⟨filter7Added_ok.1, exec_next _ _, rfl, by decide, exec_next _ _, rfl⟩

theorem witness_RegistersNeverDecrease :
    StateOk (allAt 29) ∧ (∃ t, exec (.hllAddH 0) (allAt 29) = .next t) ∧ discardsEstimator (.hllAddH 0) = false ∧
      (∃ t, exec (.hllRdr 0) (allAt 29) = .next t) ∧ addedHash (.hllRdr 0) = none :=
  ⟨allAt29_ok.1, exec_next _ _, rfl, exec_next _ _, rfl⟩

/-- The last beat of `bf.addh 10, 3` arrives. -/
theorem witness_EveryStepKeepsTheInvariant :
    StateOk (port [3] { filter7 with buffer := some ⟨0x12, [10]⟩ }) ∧
      ∃ t, step (port [3] { filter7 with buffer := some ⟨0x12, [10]⟩ }) = .next t :=
  ⟨by decide, _, of_next? (t := { filter7Added with responses := [⟨0, 0⟩] }) (by decide +kernel)⟩

theorem witness_NoFalseNegatives :
    StateOk filter7 ∧ filter7.bfValid = true ∧
      (∀ i ∈ [Instr.bfAddH 0 1, .hllInit 4], discardsFilter i = false) ∧
      (∃ t u, exec (.bfAddH 10 3) filter7 = .next t ∧ execAll [.bfAddH 0 1, .hllInit 4] t = .next u) ∧
      ∃ t u, exec (.bfAdd abc) filter7 = .next t ∧ execAll [.bfAddH 0 1, .hllInit 4] t = .next u := by
  refine ⟨filter7_ok.1, filter7_ok.2, by decide, ?_, ?_⟩
  · exact ⟨_, { filter7Added with
        bv := [(0, 0x6F)], hllValid := true, hllB := 4, responses := [⟨0, 0⟩, ⟨0, 0⟩, ⟨0, 4⟩] },
      add_10_3, of_next? (by decide +kernel)⟩
  · obtain ⟨t, ht⟩ := exec_next (.bfAdd abc) filter7
    obtain ⟨u, hu⟩ := exec_next (.bfAddH 0 1) t
    obtain ⟨v, hv⟩ := exec_next (.hllInit 4) u
    exact ⟨t, v, ht, by simp only [execAll, hu, hv]⟩

/-- The two orders of two adds, one of them repeated. -/
theorem witness_TheBitVectorIsOrderIndependent :
    StateOk filter7 ∧ filter7.bfValid = true ∧
      (∀ i ∈ [Instr.bfAddH 10 3, .bfUniqH 0 1], discardsFilter i = false) ∧
      (∀ i ∈ [Instr.bfAddH 0 1, .bfAddH 10 3, .bfAddH 10 3], discardsFilter i = false) ∧
      (∀ q, (∃ i ∈ [Instr.bfAddH 10 3, .bfUniqH 0 1], addedPair i = some q) ↔
        ∃ i ∈ [Instr.bfAddH 0 1, .bfAddH 10 3, .bfAddH 10 3], addedPair i = some q) ∧
      (∃ t, execAll [.bfAddH 10 3, .bfUniqH 0 1] filter7 = .next t) ∧
      ∃ u, execAll [.bfAddH 0 1, .bfAddH 10 3, .bfAddH 10 3] filter7 = .next u := by
  refine ⟨filter7_ok.1, filter7_ok.2, by decide, by decide, fun q => ?_, ?_, ?_⟩
  · simp only [List.mem_cons, List.not_mem_nil, or_false, exists_eq_or_imp, exists_eq_left, addedPair, or_self]
    exact or_comm
  · exact ⟨{ filter7Added with bv := [(0, 0x6F)], responses := [⟨0, 0⟩, ⟨0, 1⟩] }, of_next? (by decide +kernel)⟩
  · exact ⟨{ filter7Added with bv := [(0, 0x6F)], responses := [⟨0, 0⟩, ⟨0, 0⟩, ⟨0, 0⟩] },
      of_next? (by decide +kernel)⟩

theorem witness_TheRegistersAreOrderIndependent :
    StateOk estimator4 ∧ estimator4.hllValid = true ∧
      (∀ i ∈ [Instr.hllAddH 0, .hllAddH 15], discardsEstimator i = false) ∧
      (∀ i ∈ [Instr.hllAddH 15, .hllAddH 0, .hllAddH 15], discardsEstimator i = false) ∧
      (∀ x, (∃ i ∈ [Instr.hllAddH 0, .hllAddH 15], addedHash i = some x) ↔
        ∃ i ∈ [Instr.hllAddH 15, .hllAddH 0, .hllAddH 15], addedHash i = some x) ∧
      ∃ t u, execAll [.hllAddH 0, .hllAddH 15] estimator4 = .next t ∧
        execAll [.hllAddH 15, .hllAddH 0, .hllAddH 15] estimator4 = .next u ∧
        (∃ t', exec .hllEst t = .next t') ∧ ∃ u', exec .hllEst u = .next u' := by
  refine ⟨estimator4_ok.1, estimator4_ok.2, by decide, by decide, fun x => ?_, ?_⟩
  · simp only [List.mem_cons, List.not_mem_nil, or_false, exists_eq_or_imp, exists_eq_left, addedHash]
    tauto
  · exact ⟨{ estimator4 with reg := [(0, 60), (15, 60)], responses := [⟨0, 0⟩, ⟨0, 0⟩] },
      { estimator4 with reg := [(0, 60), (15, 60)], responses := [⟨0, 0⟩, ⟨0, 0⟩, ⟨0, 0⟩] },
      of_next? (by decide +kernel), of_next? (by decide +kernel), exec_next _ _, exec_next _ _⟩

/-- A hash unit that is not the default. -/
def constHash : HashUnit := ⟨fun _ => 10, fun _ => 3, fun _ => 0⟩

/-- With the hashes 10 and 3 an item sets the bits of the example of R118. -/
theorem test_execWith : (next? (execWith constHash (.bfAdd abc) filter7)).map (·.bv) = some [(0, 0x6C)] := by
  decide +kernel

theorem witness_ItemCommandsUseTheGivenHashFunctions :
    opcOf 0x15 = 0x15 ∧ opcOf 0x16 = 0x16 ∧ opcOf 0x17 = 0x17 ∧ opcOf 0x22 = 0x22 ∧
      State.reset.bfValid = false ∧ State.reset.hllValid = false ∧
      (StateOk filter7 ∧ filter7.bfValid = true ∧ (10 : Beat) = constHash.hash1 abc ∧ (3 : Beat) = constHash.hash2 abc ∧
        validItem abc = true ∧ validItem [] = false ∧
        ¬∀ l < filter7.bfK.toNat, bitOf filter7 (((10 : Beat).toNat + l * (3 : Beat).toNat) % filter7.bfM.toNat) = true) ∧
      (StateOk filter7Added ∧ ∀ l < filter7Added.bfK.toNat,
        bitOf filter7Added (((10 : Beat).toNat + l * (3 : Beat).toNat) % filter7Added.bfM.toNat) = true) ∧
      StateOk (allAt 29) ∧ (allAt 29).hllValid = true ∧ (0 : Beat) = constHash.hashX abc ∧
      (1 : ℕ) ≠ (0 : Beat).toNat % 2 ^ (allAt 29).hllB.toNat :=
  ⟨by decide, by decide, by decide, by decide, by decide, by decide,
    ⟨filter7_ok.1, filter7_ok.2, rfl, rfl, by decide, by decide, by decide⟩, ⟨filter7Added_ok.1, by decide⟩,
    allAt29_ok.1, rfl, rfl, by decide⟩

/-- The last beat of `bf.add "abc"` arrives. -/
theorem witness_EveryStepKeepsTheInvariantForEveryHashUnit :
    StateOk (port [0x636261] { filter7 with buffer := some ⟨0x300000015, []⟩ }) ∧
      ∃ t, stepWith constHash (port [0x636261] { filter7 with buffer := some ⟨0x300000015, []⟩ }) = .next t :=
  ⟨by decide, _, of_next? (t := { filter7Added with responses := [⟨0, 0⟩] }) (by decide +kernel)⟩

end Sys2Proof.Tests
end

