-- ==== Sys2Proof/Proofs/Independence.lean ====
section
/-! The two structures of the block are independent (R2). One fact per group carries it: a command commutes with the
replacement of the other structure's state. That is non-reading, and replacing that state by itself gives non-writing.
-/

namespace Sys2Proof.Machine

/-! ## Replacing the state of one structure -/

/-- The HyperLogLog state (R25, R26) replaced. -/
def withHll (v : Bool) (b : BitVec 5) (g : Memory 6) (s : State) : State :=
  { s with hllValid := v, hllB := b, reg := g }

/-- The Bloom state (R22, R23) replaced. -/
def withBloom (v : Bool) (m : BitVec 33) (k : BitVec 8) (c : Memory 8) (s : State) : State :=
  { s with bfValid := v, bfM := m, bfK := k, bv := c }

/-- A function of the state applied to the next state of a result. -/
def mapNext (f : State → State) : Result → Result
  | .next s => .next (f s)
  | .fault r => .fault r
  | .refused r => .refused r

theorem mapNext_ite (f : State → State) (p : Prop) [Decidable p] (x y : Result) :
    mapNext f (if p then x else y) = if p then mapNext f x else mapNext f y :=
  apply_ite (mapNext f) p x y

/-- Where a command commutes with `f` and `f` leaves the state before it as it is, `f` leaves the state after it as it
is. -/
theorem fixed_after_of_commutes {f : State → State} {i : Instr} {s t : State}
    (hc : exec i (f s) = mapNext f (exec i s)) (hs : f s = s) (h : exec i s = .next t) : f t = t := by
  have hn : Host.Outcome.next t = mapNext f (.next t) := by rw [← h, ← hc, hs]
  exact (Host.Outcome.next.inj hn).symm

/-! ## Bloom operations and the HyperLogLog state -/

section
variable (v : Bool) (b : BitVec 5) (g : Memory 6) (s : State)

@[simp] theorem respond_withHll (r : BitVec 64) :
    respond r (withHll v b g s) = mapNext (withHll v b g) (respond r s) := rfl

@[simp] theorem raise_withHll (f : Failure) :
    raise f (withHll v b g s) = mapNext (withHll v b g) (raise f s) := rfl

@[simp] theorem bfTestBits_withHll (h1 h2 : Beat) : bfTestBits h1 h2 (withHll v b g s) = bfTestBits h1 h2 s := rfl

@[simp] theorem bfSetBits_withHll (h1 h2 : Beat) :
    bfSetBits h1 h2 (withHll v b g s) = withHll v b g (bfSetBits h1 h2 s) := rfl

@[simp] theorem bvMemRead_withHll (a n : Nat) : bvMemRead (withHll v b g s) a n = bvMemRead s a n := by
  induction n generalizing a with
  | zero => rfl
  | succ n ih => simp only [bvMemRead, ih]; rfl

@[simp] theorem buildFilter_withHll (m k : Nat) :
    buildFilter m k (withHll v b g s) = mapNext (withHll v b g) (buildFilter m k s) := rfl

theorem requireFilter_withHll {go go' : Result} (hgo : go' = mapNext (withHll v b g) go) :
    requireFilter (withHll v b g s) go' = mapNext (withHll v b g) (requireFilter s go) := by
  rw [hgo, requireFilter, requireFilter, mapNext_ite, raise_withHll]; rfl

theorem uniqPair_withHll (h1 h2 : Beat) :
    uniqPair h1 h2 (withHll v b g s) = mapNext (withHll v b g) (uniqPair h1 h2 s) := by
  rw [uniqPair, uniqPair, mapNext_ite, bfTestBits_withHll, bfSetBits_withHll, respond_withHll, respond_withHll]

theorem uniqEntry_withHll (u : HashUnit) (entry : Entry) :
    uniqEntry u entry (withHll v b g s) = mapNext (withHll v b g) (uniqEntry u entry s) := by
  cases entry with
  | null => rfl
  | item bytes => simp only [uniqEntry, mapNext_ite, uniqPair_withHll, respond_withHll]

/-- A Bloom command does the same whatever the HyperLogLog state is, and keeps it. -/
theorem exec_withHll {i : Instr} (hi : isBloom i = true) :
    exec i (withHll v b g s) = mapNext (withHll v b g) (exec i s) := by
  cases i with
  | bfInit k m => simp only [exec, execBfInit, mapNext_ite, buildFilter_withHll, raise_withHll]
  | bfInitNp n p => simp only [exec, execBfInitNp, mapNext_ite, buildFilter_withHll, raise_withHll]
  | bfAddH h1 h2 => exact requireFilter_withHll v b g s rfl
  | bfTestH h1 h2 => exact requireFilter_withHll v b g s rfl
  | bfUniqH h1 h2 => exact requireFilter_withHll v b g s (uniqPair_withHll v b g s h1 h2)
  | bfAdd item => exact requireFilter_withHll v b g s rfl
  | bfTest item => exact requireFilter_withHll v b g s rfl
  | bfUniq entry => exact requireFilter_withHll v b g s (uniqEntry_withHll v b g s defaultHash entry)
  | bfRd a =>
    refine requireFilter_withHll v b g s ?_
    rw [mapNext_ite, bvMemRead_withHll, respond_withHll, raise_withHll]; rfl
  | nop | sysRst | csrRd | hllInit | hllAddH | hllAdd | hllEst | hllRdr => cases hi

end

/-! ## HyperLogLog operations and the Bloom state -/

section
variable (v : Bool) (m : BitVec 33) (k : BitVec 8) (c : Memory 8) (s : State)

@[simp] theorem respond_withBloom (r : BitVec 64) :
    respond r (withBloom v m k c s) = mapNext (withBloom v m k c) (respond r s) := rfl

@[simp] theorem raise_withBloom (f : Failure) :
    raise f (withBloom v m k c s) = mapNext (withBloom v m k c) (raise f s) := rfl

@[simp] theorem constructEstimator_withBloom (b : BitVec 5) :
    constructEstimator b (withBloom v m k c s) = withBloom v m k c (constructEstimator b s) := rfl

theorem requireEstimator_withBloom {go go' : Result} (hgo : go' = mapNext (withBloom v m k c) go) :
    requireEstimator (withBloom v m k c s) go' = mapNext (withBloom v m k c) (requireEstimator s go) := by
  rw [hgo, requireEstimator, requireEstimator, mapNext_ite, raise_withBloom]; rfl

theorem answerEstimate_withBloom (e : Option Nat) :
    answerEstimate e (withBloom v m k c s) = mapNext (withBloom v m k c) (answerEstimate e s) := by
  cases e <;> rfl

/-- A HyperLogLog command does the same whatever the Bloom state is, and keeps it. -/
theorem exec_withBloom {i : Instr} (hi : isHll i = true) :
    exec i (withBloom v m k c s) = mapNext (withBloom v m k c) (exec i s) := by
  cases i with
  | hllInit b =>
    simp only [exec, execHllInit, mapNext_ite, constructEstimator_withBloom, respond_withBloom, raise_withBloom]
  | hllAddH x => exact requireEstimator_withBloom v m k c s rfl
  | hllAdd item => exact requireEstimator_withBloom v m k c s rfl
  | hllEst => exact requireEstimator_withBloom v m k c s (answerEstimate_withBloom v m k c s _)
  | hllRdr j =>
    refine requireEstimator_withBloom v m k c s ?_
    rw [mapNext_ite, respond_withBloom, raise_withBloom]; rfl
  | nop | sysRst | csrRd | bfInit | bfInitNp | bfAddH | bfTestH | bfUniqH | bfAdd | bfTest | bfUniq | bfRd => cases hi

end

/-! ## What a command of one group leaves alone -/

theorem exec_keeps_hll {i : Instr} {s t : State} (hi : isBloom i = true) (h : exec i s = .next t) :
    t.hllValid = s.hllValid ∧ t.hllB = s.hllB ∧ t.reg = s.reg := by
  have ht : withHll s.hllValid s.hllB s.reg t = t := fixed_after_of_commutes (exec_withHll _ _ _ _ hi) rfl h
  rw [← ht]
  exact ⟨rfl, rfl, rfl⟩

theorem exec_keeps_bloom {i : Instr} {s t : State} (hi : isHll i = true) (h : exec i s = .next t) :
    t.bfValid = s.bfValid ∧ t.bfM = s.bfM ∧ t.bfK = s.bfK ∧ t.bv = s.bv := by
  have ht : withBloom s.bfValid s.bfM s.bfK s.bv t = t := fixed_after_of_commutes (exec_withBloom _ _ _ _ _ hi) rfl h
  rw [← ht]
  exact ⟨rfl, rfl, rfl, rfl⟩

/-- Settles O49: each group keeps the other structure's state and commutes with replacing it. -/
theorem theTwoStructuresAreIndependent : Obligations.TheTwoStructuresAreIndependent := by
  unfold Obligations.TheTwoStructuresAreIndependent
  constructor
  · intro i s t v b g hi h
    exact ⟨exec_keeps_hll hi h, (exec_withHll v b g s hi).trans (congrArg (mapNext _) h)⟩
  · intro i s t v m k c hi h
    exact ⟨exec_keeps_bloom hi h, (exec_withBloom v m k c s hi).trans (congrArg (mapNext _) h)⟩

end Sys2Proof.Machine
end

