-- ==== Sys2Proof/Proofs/ItemBytes.lean ====
section
/-! Item bytes come from their lanes (R56, R75): what an item holds at each position, and that the four item commands
read the payload through the item alone. -/

namespace Sys2Proof

@[simp] theorem length_itemOf (len : Nat) (p : List Beat) : (itemOf len p).length = len := by
  simp only [itemOf, List.length_map, List.length_range]

theorem getElem?_itemOf {len t : Nat} (p : List Beat) (ht : t < len) : (itemOf len p)[t]? = some (itemByte p t) := by
  simp only [itemOf, List.getElem?_map, List.getElem?_range ht, Option.map_some]

theorem entryOf_congr {h : Beat} {p q : List Beat} (hpq : itemOf (lenOf h).toNat p = itemOf (lenOf h).toNat q) :
    entryOf h p = entryOf h q := by
  rw [entryOf, entryOf, hpq]

/-- An item command takes nothing from the payload but its item (R75). -/
theorem decode_congr_of_itemOf_eq {h : Beat} {p q : List Beat} (ho : opcOf h ∈ [0x15, 0x16, 0x17, 0x22])
    (hpq : itemOf (lenOf h).toNat p = itemOf (lenOf h).toNat q) : decode h p = decode h q := by
  simp only [List.mem_cons, List.not_mem_nil, or_false] at ho
  obtain hadd | htest | huniq | hhll := ho
  · rw [decode_bfAdd h p hadd, decode_bfAdd h q hadd, hpq]
  · rw [decode_bfTest h p htest, decode_bfTest h q htest, hpq]
  · rw [decode_bfUniq h p huniq, decode_bfUniq h q huniq, entryOf_congr hpq]
  · rw [decode_hllAdd h p hhll, decode_hllAdd h q hhll, hpq]

/-- Settles O33: the lane `t` of the payload is `itemByte p t`, and payloads equal in the lanes of the item carry the
same item. -/
theorem itemBytesComeFromTheirLanes : Obligations.ItemBytesComeFromTheirLanes := by
  unfold Obligations.ItemBytesComeFromTheirLanes
  constructor
  · intro len p
    exact ⟨length_itemOf len p, fun _ ht => getElem?_itemOf p ht⟩
  · intro h p q ho hlanes
    exact decode_congr_of_itemOf_eq ho (itemOf_congr hlanes)

end Sys2Proof
end

