-- ==== Sys2Proof/Proofs/PayloadBeats.lean ====
section
/-! The number of payload beats of every header (R73), format by format, and of a header with an unknown opcode. -/

namespace Sys2Proof

variable {h : Beat}

/-- The opcodes of the map that call for no payload: formats Z and A. -/
theorem payloadBeats_of_opc_mem_formats_Z_A (ho : opcOf h ∈ [0x00, 0x01, 0x02, 0x20, 0x23, 0x24]) :
    payloadBeats h = 0 := by
  simp only [List.mem_cons, List.not_mem_nil, or_false] at ho
  obtain hnop | hsysRst | hcsrRd | hinit | hest | hrdr := ho
  · exact payloadBeats_nop h hnop
  · exact payloadBeats_sysRst h hsysRst
  · exact payloadBeats_csrRd h hcsrRd
  · exact payloadBeats_hllInit h hinit
  · exact payloadBeats_hllEst h hest
  · exact payloadBeats_hllRdr h hrdr

theorem payloadBeats_of_opc_mem_format_P1 (ho : opcOf h ∈ [0x10, 0x18, 0x21]) : payloadBeats h = 1 := by
  simp only [List.mem_cons, List.not_mem_nil, or_false] at ho
  obtain hinit | hrd | haddH := ho
  · exact payloadBeats_bfInit h hinit
  · exact payloadBeats_bfRd h hrd
  · exact payloadBeats_hllAddH h haddH

theorem payloadBeats_of_opc_mem_format_P2 (ho : opcOf h ∈ [0x11, 0x12, 0x13, 0x14]) : payloadBeats h = 2 := by
  simp only [List.mem_cons, List.not_mem_nil, or_false] at ho
  obtain hinitNp | haddH | htestH | huniqH := ho
  · exact payloadBeats_bfInitNp h hinitNp
  · exact payloadBeats_bfAddH h haddH
  · exact payloadBeats_bfTestH h htestH
  · exact payloadBeats_bfUniqH h huniqH

theorem payloadBeats_of_opc_mem_format_I (ho : opcOf h ∈ [0x15, 0x16, 0x17, 0x22]) :
    payloadBeats h = ((lenOf h).toNat + 7) / 8 := by
  simp only [List.mem_cons, List.not_mem_nil, or_false] at ho
  obtain hadd | htest | huniq | hhll := ho
  · exact payloadBeats_bfAdd h hadd
  · exact payloadBeats_bfTest h htest
  · exact payloadBeats_bfUniq h huniq
  · exact payloadBeats_hllAdd h hhll

/-- An opcode has no row exactly when the map does not list it (R79). -/
theorem rowOf_eq_none_iff (opc : BitVec 8) : rowOf opc = none ↔ opc ∉ opcodeMap.map OpRow.opc := by
  simp only [rowOf, List.find?_eq_none, beq_iff_eq, List.mem_map, not_exists, not_and]

theorem payloadBeats_of_rowOf_eq_none (hrow : rowOf (opcOf h) = none) : payloadBeats h = 0 := by
  simp only [payloadBeats, hrow]

/-- Settles O32: the listed opcodes are those of the map, so an opcode outside the list has no row; inside it, the beats
are those of its format. -/
theorem payloadBeatsDependOnOpcodeAndLengthOnly : Obligations.PayloadBeatsDependOnOpcodeAndLengthOnly := by
  unfold Obligations.PayloadBeatsDependOnOpcodeAndLengthOnly
  intro h
  exact ⟨payloadBeats_of_opc_mem_formats_Z_A, payloadBeats_of_opc_mem_format_P1, payloadBeats_of_opc_mem_format_P2,
    payloadBeats_of_opc_mem_format_I,
    fun hunknown => payloadBeats_of_rowOf_eq_none ((rowOf_eq_none_iff _).mpr hunknown)⟩

end Sys2Proof
end

