-- ==== Sys2Proof/Proofs/SystemCommands.lean ====
section
/-! `NOP` and `CSR.RD` (R100, R102): what each answers, and the value of each control and status register (R29) field by
field. -/

namespace Sys2Proof.Machine

/-! ## The values of the registers -/

theorem csrStatus_flags (s : State) :
    (csrStatus s).getLsbD 0 = s.bfValid ∧ (csrStatus s).getLsbD 1 = s.hllValid ∧ (csrStatus s).getLsbD 2 = s.err := by
  simp only [csrStatus, BitVec.getLsbD_setWidth, BitVec.getLsbD_append]
  simp

/-- `STATUS` above its three flags: bits [7:3] are 0, and from bit 8 on stands `ecode`. -/
theorem csrStatus_getLsbD_of_ge (s : State) {i : Nat} (hi : 3 ≤ i) :
    (csrStatus s).getLsbD i = (decide (8 ≤ i) && s.ecode.getLsbD (i - 8)) := by
  obtain ⟨j, rfl⟩ := Nat.exists_eq_add_of_le' hi
  simp only [csrStatus, BitVec.getLsbD_setWidth, BitVec.getLsbD_append]
  by_cases hgap : j < 5
  · simp [hgap]
  · have hwidth : s.ecode.getLsbD (j - 5) = true → j + 3 < 64 := fun hbit => by
      have := BitVec.lt_of_getLsbD hbit
      omega
    simpa [hgap, show 5 ≤ j by omega] using hwidth

theorem csrStatus_gap (s : State) : (csrStatus s).extractLsb' 3 5 = 0 := by
  refine BitVec.eq_of_getLsbD_eq fun i hi => ?_
  rw [BitVec.getLsbD_extractLsb', csrStatus_getLsbD_of_ge s (by omega)]
  simp [show ¬8 ≤ 3 + i by omega]

theorem csrStatus_ecode (s : State) : (csrStatus s).extractLsb' 8 8 = s.ecode := by
  refine BitVec.eq_of_getLsbD_eq fun i hi => ?_
  rw [BitVec.getLsbD_extractLsb', csrStatus_getLsbD_of_ge s (by omega)]
  simp [hi]

theorem csrStatus_above_ecode (s : State) : (csrStatus s).extractLsb' 16 48 = 0 := by
  refine BitVec.eq_of_getLsbD_eq fun i hi => ?_
  rw [BitVec.getLsbD_extractLsb', csrStatus_getLsbD_of_ge s (by omega), BitVec.getLsbD_of_ge s.ecode _ (by omega)]
  simp

/-- A configuration field reads unchanged while its structure is constructed, and as 0 otherwise. -/
theorem toNat_field_of_valid {w : Nat} (hw : w ≤ 64) (valid : Bool) (x : BitVec w) :
    (if valid then x.setWidth 64 else 0).toNat = if valid then x.toNat else 0 := by
  cases valid with
  | false => rfl
  | true => exact BitVec.toNat_setWidth_of_le hw

theorem csrBfM_toNat (s : State) : (csrBfM s).toNat = if s.bfValid then s.bfM.toNat else 0 :=
  toNat_field_of_valid (by decide) s.bfValid s.bfM

theorem csrBfK_toNat (s : State) : (csrBfK s).toNat = if s.bfValid then s.bfK.toNat else 0 :=
  toNat_field_of_valid (by decide) s.bfValid s.bfK

theorem csrHllB_toNat (s : State) : (csrHllB s).toNat = if s.hllValid then s.hllB.toNat else 0 :=
  toNat_field_of_valid (by decide) s.hllValid s.hllB

/-- `hll_b` has five bits, so `1 << hll_b` fits a register in every state. -/
theorem hllM_lt (s : State) : hllM s < 2 ^ 64 :=
  Nat.pow_lt_pow_right (by decide) (s.hllB.isLt.trans (by decide))

theorem csrHllM_toNat (s : State) : (csrHllM s).toNat = if s.hllValid then 2 ^ s.hllB.toNat else 0 := by
  unfold csrHllM
  split
  · exact (BitVec.toNat_ofNat ..).trans (Nat.mod_eq_of_lt (hllM_lt s))
  · rfl

/-! ## The commands -/

theorem exec_nop (s : State) : exec .nop s = respond 0 s := rfl

theorem exec_csrRd_of_le {n : BitVec 16} (hn : n.toNat ≤ 4) (s : State) :
    exec (.csrRd n) s = respond (csr n.toNat s) s :=
  if_pos (Nat.lt_succ_of_le hn)

theorem exec_csrRd_of_gt {n : BitVec 16} (hn : 4 < n.toNat) (s : State) : exec (.csrRd n) s = raise .badAddr s :=
  if_neg (Nat.not_lt_of_le hn)

/-- Settles O1: the legal form is `decode_nop`, and the answer `respond 0` writes nothing but the response. -/
theorem nopAnswersZeroAndChangesNothing : Obligations.NopAnswersZeroAndChangesNothing := by
  unfold Obligations.NopAnswersZeroAndChangesNothing
  exact ⟨decode_nop, exec_nop⟩

/-- Settles O3: above 4 the command fails by `raise`; up to 4 it answers `csr n`, whose value is read off the lemma of
the register `n` names. -/
theorem csrRdReadsTheFiveRegisters : Obligations.CsrRdReadsTheFiveRegisters := by
  unfold Obligations.CsrRdReadsTheFiveRegisters
  refine ⟨decode_csrRd, fun _ s hn => exec_csrRd_of_gt hn s, fun n s hn => ⟨csr n.toNat s, exec_csrRd_of_le hn s, ?_⟩⟩
  refine ⟨?status, ?bfM, ?bfK, ?hllB, ?hllM⟩
  case status =>
    rintro rfl
    obtain ⟨hbfValid, hhllValid, herr⟩ := csrStatus_flags s
    exact ⟨hbfValid, hhllValid, herr, csrStatus_gap s, csrStatus_ecode s, csrStatus_above_ecode s⟩
  case bfM => rintro rfl; exact csrBfM_toNat s
  case bfK => rintro rfl; exact csrBfK_toNat s
  case hllB => rintro rfl; exact csrHllB_toNat s
  case hllM => rintro rfl; exact csrHllM_toNat s

end Sys2Proof.Machine
end

