-- ==== Sys2Proof/Proofs/BloomPairs.lean ====
section
/-! The Bloom commands over a pair of hashes (R111, R114, R118 to R120): the indices of a pair, and what adding a pair,
testing it, and adding it when it is absent answer and write. -/

namespace Sys2Proof.Machine

/-! ## The indices of a pair -/

section
variable (h1 h2 : Beat) (m : Nat)

theorem length_bloomIndices (k : Nat) : (bloomIndices h1 h2 m k).length = k := by
  simp only [bloomIndices, List.length_map, List.length_range]

theorem getElem?_bloomIndices {i k : Nat} (hi : i < k) : (bloomIndices h1 h2 m k)[i]? = some (bloomIdx h1 h2 m i) := by
  simp only [bloomIndices, List.getElem?_map, List.getElem?_range hi, Option.map_some]

theorem bloomIdx_zero : bloomIdx h1 h2 m 0 = h1.toNat % m := by rw [bloomIdx, Nat.zero_mul, Nat.add_zero]

theorem bloomIdx_succ (i : Nat) : bloomIdx h1 h2 m (i + 1) = (bloomIdx h1 h2 m i + h2.toNat % m) % m := by
  rw [bloomIdx, bloomIdx, Nat.add_one_mul, ← Nat.add_assoc, Nat.add_mod]

end

/-- Settles O8: each clause is the lemma about the list of indices, or about one index, that states it. -/
theorem doubleHashingIndices : Obligations.DoubleHashingIndices := by
  unfold Obligations.DoubleHashingIndices
  intro h1 h2 m k hm
  refine ⟨length_bloomIndices h1 h2 m k, fun i hi => getElem?_bloomIndices h1 h2 m hi, fun j hj => ?_,
    bloomIdx_zero h1 h2 m, bloomIdx_succ h1 h2 m⟩
  obtain ⟨i, -, rfl⟩ := mem_bloomIndices.mp hj
  exact bloomIdx_lt hm h1 h2 i

/-! ## Without a filter -/

/-- R110, for every hash unit. -/
theorem execWith_of_no_filter {i : Instr} {s : State} (u : HashUnit) (hi : isBloomData i = true)
    (hv : s.bfValid = false) : execWith u i s = raise .notConfigured s := by
  cases i with
  | bfAddH | bfTestH | bfUniqH | bfAdd | bfTest | bfUniq | bfRd => exact requireFilter_of_not hv _
  | bfInit | bfInitNp | nop | sysRst | csrRd | hllInit | hllAddH | hllAdd | hllEst | hllRdr => cases hi

theorem failsWith_notConfigured_of_no_filter {i : Instr} {s : State} (hi : isBloomData i = true)
    (hv : s.bfValid = false) : FailsWith i 3 s :=
  (execWith_default i s).symm.trans (execWith_of_no_filter defaultHash hi hv)

/-! ## The operations over a pair -/

theorem wf_bv_of_stateOk {s : State} (hok : StateOk s) : Memory.wf s.bv := by
  obtain ⟨-, ⟨hwf, -⟩, -⟩ := hok
  exact hwf

/-- The answer to a command that sets the bits of a pair. -/
theorem respond_bfSetBits {s : State} (hwf : Memory.wf s.bv) (r h1 h2 : Beat) :
    ∃ t, respond r (bfSetBits h1 h2 s) = .next t ∧
      t = { s with bv := t.bv, responses := s.responses ++ [⟨0, r⟩] } ∧
      ∀ i, bitOf t i = true ↔
        bitOf s i = true ∨ ∃ l < s.bfK.toNat, i = (h1.toNat + l * h2.toNat) % s.bfM.toNat :=
  ⟨_, rfl, rfl, bfSetBits_bit hwf h1 h2⟩

theorem testPair_answer (h1 h2 : Beat) (s : State) :
    ∃ r, testPair h1 h2 s = .next { s with responses := s.responses ++ [⟨0, r⟩] } ∧ (r = 0 ∨ r = 1) ∧
      (r = 1 ↔ ∀ l < s.bfK.toNat, bitOf s ((h1.toNat + l * h2.toNat) % s.bfM.toNat) = true) := by
  refine ⟨_, rfl, ?_, ?_⟩
  · exact (ite_eq_or_eq _ _ _).symm
  · rw [← bfTestBits_iff]
    cases bfTestBits h1 h2 s <;> decide

theorem uniqPair_of_present {h1 h2 : Beat} {s : State}
    (hall : ∀ l < s.bfK.toNat, bitOf s ((h1.toNat + l * h2.toNat) % s.bfM.toNat) = true) :
    uniqPair h1 h2 s = respond 0 s :=
  if_pos ((bfTestBits_iff h1 h2 s).mpr hall)

theorem uniqPair_of_absent {h1 h2 : Beat} {s : State}
    (hall : ¬∀ l < s.bfK.toNat, bitOf s ((h1.toNat + l * h2.toNat) % s.bfM.toNat) = true) :
    uniqPair h1 h2 s = respond 1 (bfSetBits h1 h2 s) :=
  if_neg (mt (bfTestBits_iff h1 h2 s).mp hall)

/-! ## The commands -/

section
variable {s : State} (hv : s.bfValid = true) (h1 h2 : Beat)
include hv

theorem exec_bfAddH_of_filter : exec (.bfAddH h1 h2) s = respond 0 (bfSetBits h1 h2 s) := requireFilter_of_valid hv _

theorem exec_bfTestH_of_filter : exec (.bfTestH h1 h2) s = testPair h1 h2 s := requireFilter_of_valid hv _

theorem exec_bfUniqH_of_filter : exec (.bfUniqH h1 h2) s = uniqPair h1 h2 s := requireFilter_of_valid hv _

end

/-- Settles O9: the command answers 0 after `bfSetBits`. -/
theorem bfAddHSetsExactlyItsBits : Obligations.BfAddHSetsExactlyItsBits := by
  unfold Obligations.BfAddHSetsExactlyItsBits
  refine ⟨decode_bfAddH, fun h1 h2 s => failsWith_notConfigured_of_no_filter rfl, fun h1 h2 s hok hv => ?_⟩
  rw [exec_bfAddH_of_filter hv]
  exact respond_bfSetBits (wf_bv_of_stateOk hok) 0 h1 h2

/-- Settles O10: the command is `testPair`. -/
theorem bfTestHAnswersTheAndOfItsBits : Obligations.BfTestHAnswersTheAndOfItsBits := by
  unfold Obligations.BfTestHAnswersTheAndOfItsBits
  refine ⟨decode_bfTestH, fun h1 h2 s => failsWith_notConfigured_of_no_filter rfl, fun h1 h2 s hv => ?_⟩
  rw [exec_bfTestH_of_filter hv]
  exact testPair_answer h1 h2 s

/-- Settles O11: the command is `uniqPair`, whose two branches are those of the statement. -/
theorem bfUniqHTestsAndSets : Obligations.BfUniqHTestsAndSets := by
  unfold Obligations.BfUniqHTestsAndSets
  refine ⟨decode_bfUniqH, fun h1 h2 s => failsWith_notConfigured_of_no_filter rfl, fun h1 h2 s hok hv => ?_⟩
  rw [exec_bfUniqH_of_filter hv]
  constructor
  · exact uniqPair_of_present
  · intro hall
    rw [uniqPair_of_absent hall]
    exact respond_bfSetBits (wf_bv_of_stateOk hok) 1 h1 h2

end Sys2Proof.Machine
end

