-- ==== Sys2Proof/Proofs/BloomOrder.lean ====
section
/-! The bit vector depends on the set of pairs added alone (R127): one command sets the bits of the pair it adds and no
other, whatever it answers; hence a bit after a sequence of commands is 1 exactly when it was 1 before or is a bit of
some pair added, which mentions neither order nor multiplicity. -/

namespace Sys2Proof.Machine

/-! ## One command -/

/-- Adding a pair whose bits are all 1 changes nothing (R118). -/
theorem bfSetBits_of_present {s : State} (hwf : Memory.wf s.bv) {h1 h2 : Beat} (ht : bfTestBits h1 h2 s = true) :
    bfSetBits h1 h2 s = s := by
  have hbv : (bfSetBits h1 h2 s).bv = s.bv := by
    refine bv_ext (foldl_bvSetBit_wf hwf _) hwf fun i => Bool.eq_iff_iff.mpr ?_
    rw [bfSetBits_bit hwf, or_iff_left_iff_imp]
    rintro ⟨l, hl, rfl⟩
    exact (bfTestBits_iff h1 h2 s).mp ht l hl
  calc bfSetBits h1 h2 s = { s with bv := (bfSetBits h1 h2 s).bv } := rfl
    _ = s := by rw [hbv]

/-- Test-and-set leaves the state of an unconditional set; only the answer tells the two cases apart. -/
theorem uniqPair_eq_respond_bfSetBits {s : State} (hwf : Memory.wf s.bv) (h1 h2 : Beat) :
    uniqPair h1 h2 s = respond (if bfTestBits h1 h2 s then 0 else 1) (bfSetBits h1 h2 s) := by
  unfold uniqPair
  split
  case isTrue ht => rw [bfSetBits_of_present hwf ht]
  case isFalse => rfl

/-- An adding command answers after setting the bits of its pair. -/
theorem exec_of_addedPair_some {i : Instr} {s : State} {h1 h2 : Beat} (hwf : Memory.wf s.bv) (hv : s.bfValid = true)
    (hq : addedPair i = some (h1, h2)) : ∃ r, exec i s = respond r (bfSetBits h1 h2 s) := by
  cases i with
  | bfAddH | bfAdd => cases hq; exact ⟨0, requireFilter_of_valid hv _⟩
  | bfUniqH =>
    cases hq
    exact ⟨_, (requireFilter_of_valid hv _).trans (uniqPair_eq_respond_bfSetBits hwf h1 h2)⟩
  | bfUniq entry =>
    cases entry with
    | null => cases hq
    | item bytes =>
      obtain ⟨hvalid, hpair⟩ := Option.ite_none_right_eq_some.mp hq
      cases hpair
      exact ⟨_, (requireFilter_of_valid hv _).trans ((if_pos hvalid).trans (uniqPair_eq_respond_bfSetBits hwf _ _))⟩
  | nop | sysRst | csrRd | bfInit | bfInitNp | bfTestH | bfTest | bfRd => cases hq
  | hllInit | hllAddH | hllAdd | hllEst | hllRdr => cases hq

/-- A command whose success changes nothing keeps the bit vector, also when it fails. -/
theorem bv_eq_of_effect_eq {i : Instr} {s t : State} (h : exec i s = .next t)
    (heff : ∀ t', effect defaultHash i s t' → t' = s) : t.bv = s.bv := by
  obtain ⟨f, -, hf⟩ | ⟨r, t', ht', hr⟩ := exec_cases i s
  · cases hf.symm.trans h
    rfl
  · cases hr.symm.trans h
    rw [send_bv, heff t' ht']

/-- Only the adding commands write bits (R23). -/
theorem bv_eq_of_addedPair_none {i : Instr} {s t : State} (hv : s.bfValid = true) (hd : discardsFilter i = false)
    (hq : addedPair i = none) (h : exec i s = .next t) : t.bv = s.bv := by
  cases i with
  | nop | csrRd | bfTestH | bfTest | bfRd => exact bv_eq_of_effect_eq h fun _ heff => heff
  | hllInit | hllAddH | hllAdd | hllEst | hllRdr =>
    obtain ⟨-, -, -, hbv⟩ := exec_keeps_bloom rfl h
    exact hbv
  | bfUniq entry =>
    have hn : exec (.bfUniq entry) s = respond 2 s := by
      refine (requireFilter_of_valid hv _).trans ?_
      cases entry with
      | null => rfl
      | item bytes => exact if_neg fun hvalid => by simp [addedPair, hvalid] at hq
    cases hn.symm.trans h
    rfl
  | bfAddH | bfUniqH | bfAdd => cases hq
  | sysRst | bfInit | bfInitNp => cases hd

/-- Only construction and reset change the configuration of the filter (R22). -/
theorem exec_keeps_filter_config {i : Instr} {s t : State} (hd : discardsFilter i = false) (h : exec i s = .next t) :
    t.bfValid = s.bfValid ∧ t.bfM = s.bfM ∧ t.bfK = s.bfK := by
  obtain ⟨f, -, hf⟩ | ⟨r, t', ht', hr⟩ := exec_cases i s
  · cases hf.symm.trans h
    exact ⟨rfl, rfl, rfl⟩
  · cases hr.symm.trans h
    obtain ⟨-, -, -, -, hconfig, -⟩ := effect_frame ht'
    exact hconfig hd

/-- Bit `j` is one of those command `i` sets in a filter of the size of `s`. -/
def Sets (s : State) (i : Instr) (j : Nat) : Prop :=
  ∃ q, addedPair i = some q ∧ j ∈ bloomIndices q.1 q.2 s.bfM.toNat s.bfK.toNat

theorem exec_bits {i : Instr} {s t : State} (hwf : Memory.wf s.bv) (hv : s.bfValid = true)
    (hd : discardsFilter i = false) (h : exec i s = .next t) :
    Memory.wf t.bv ∧ ∀ j, bvBit t.bv j = true ↔ bvBit s.bv j = true ∨ Sets s i j := by
  cases hq : addedPair i with
  | none =>
    rw [bv_eq_of_addedPair_none hv hd hq h]
    exact ⟨hwf, fun j => by simp [Sets, hq]⟩
  | some q =>
    obtain ⟨h1, h2⟩ := q
    obtain ⟨r, hr⟩ := exec_of_addedPair_some hwf hv hq
    cases hr.symm.trans h
    refine ⟨foldl_bvSetBit_wf hwf _, fun j => ?_⟩
    rw [send_bv, bfSetBits_bit hwf]
    simp [Sets, hq, mem_bloomIndices]

/-! ## A sequence of commands -/

theorem execAll_cons_eq_next {i : Instr} {is : List Instr} {s t : State} (h : execAll (i :: is) s = .next t) :
    ∃ s', exec i s = .next s' ∧ execAll is s' = .next t := by
  obtain ⟨s', hs'⟩ := exec_next i s
  rw [execAll, hs'] at h
  exact ⟨s', hs', h⟩

theorem execAll_bits {is : List Instr} {s t : State} (hwf : Memory.wf s.bv) (hv : s.bfValid = true)
    (hd : ∀ i ∈ is, discardsFilter i = false) (h : execAll is s = .next t) :
    Memory.wf t.bv ∧ ∀ j, bvBit t.bv j = true ↔ bvBit s.bv j = true ∨ ∃ i ∈ is, Sets s i j := by
  induction is generalizing s with
  | nil =>
    cases h
    exact ⟨hwf, by simp⟩
  | cons i is ih =>
    obtain ⟨s', hs', hrest⟩ := execAll_cons_eq_next h
    obtain ⟨hdi, hdis⟩ := List.forall_mem_cons.mp hd
    obtain ⟨hwf', hbits⟩ := exec_bits hwf hv hdi hs'
    obtain ⟨hv', hm, hk⟩ := exec_keeps_filter_config hdi hs'
    obtain ⟨hwft, hbitst⟩ := ih hwf' (hv'.trans hv) hdis hrest
    have hsets : ∀ c j, Sets s' c j ↔ Sets s c j := fun c j => by rw [Sets, Sets, hm, hk]
    refine ⟨hwft, fun j => ?_⟩
    simp only [hbitst, hbits, hsets, List.exists_mem_cons_iff, or_assoc]

/-- Commands that add the same pairs set the same bits. -/
theorem exists_sets_iff {is js : List Instr}
    (hpairs : ∀ q, (∃ i ∈ is, addedPair i = some q) ↔ ∃ i ∈ js, addedPair i = some q) (s : State) (j : Nat) :
    (∃ i ∈ is, Sets s i j) ↔ ∃ i ∈ js, Sets s i j := by
  have hsplit : ∀ l : List Instr, (∃ i ∈ l, Sets s i j) ↔
      ∃ q, (∃ i ∈ l, addedPair i = some q) ∧ j ∈ bloomIndices q.1 q.2 s.bfM.toNat s.bfK.toNat := fun l => by
    simp only [Sets]
    tauto
  simp only [hsplit, hpairs]

/-- Settles O57: both bit vectors are canonical and hold a 1 at the same indices, so they are equal. -/
theorem theBitVectorIsOrderIndependent : Obligations.TheBitVectorIsOrderIndependent := by
  unfold Obligations.TheBitVectorIsOrderIndependent
  intro s t u is js hok hv hdis hdjs hpairs ht hu
  have hwf := wf_bv_of_stateOk hok
  obtain ⟨hwft, hbitst⟩ := execAll_bits hwf hv hdis ht
  obtain ⟨hwfu, hbitsu⟩ := execAll_bits hwf hv hdjs hu
  refine bv_ext hwft hwfu fun j => Bool.eq_iff_iff.mpr ?_
  rw [hbitst, hbitsu, exists_sets_iff hpairs]

end Sys2Proof.Machine
end

