-- ==== Sys2Proof/Proofs/BloomRead.lean ====
section
/-! `BF.RD` (R126): the word addresses that hold a bit of the filter, and the bits of the word read (R53). -/

namespace Sys2Proof.Machine

theorem lt_ceilDiv_iff {a m n : Nat} (hn : 0 < n) : a < ceilDiv m n ↔ n * a < m := by
  unfold ceilDiv
  rw [Nat.lt_iff_add_one_le, Nat.le_div_iff_mul_le hn, Nat.add_one_mul, Nat.mul_comm]
  omega

theorem lt_bfM_of_bitOf {s : State} (hok : StateOk s) {i : Nat} (hi : bitOf s i = true) : i < s.bfM.toNat := by
  obtain ⟨-, ⟨hwf, hcells⟩, -⟩ := hok
  exact (cells_below_iff hwf _).mp hcells i hi

/-- A byte address inside the filter can cover padding, which reads 0 because no bit beyond `bf_m` is 1. -/
theorem bvByte_getLsbD {s : State} (hok : StateOk s) (i : Nat) : (bvByte s (i / 8)).getLsbD (i % 8) = bitOf s i := by
  rw [bvByte_bit s _ _ (Nat.mod_lt i (by decide)), Nat.div_add_mod, Bool.and_eq_right_iff_imp]
  intro hi
  have hlt := lt_bfM_of_bitOf hok hi
  rw [decide_eq_true_eq, lt_ceilDiv_iff (by decide)]
  omega

/-- Bit `t` of word `a` of the bit vector. -/
theorem bvMemRead_word_getLsbD {s : State} (hok : StateOk s) (a : Nat) {t : Nat} (ht : t < 64) :
    (BitVec.ofNat 64 (bvMemRead s (8 * a) 8)).getLsbD t = bitOf s (64 * a + t) := by
  have hdiv : 8 * a + t / 8 = (64 * a + t) / 8 := by omega
  have hmod : t % 8 = (64 * a + t) % 8 := by omega
  rw [BitVec.getLsbD_ofNat, bvMemRead_bit, decide_eq_true ht, hdiv, hmod, bvByte_getLsbD hok, Bool.true_and,
    Bool.true_and]

section
variable {a : Beat} {s : State} (hv : s.bfValid = true)
include hv

theorem exec_bfRd_of_lt (ha : 64 * a.toNat < s.bfM.toNat) :
    exec (.bfRd a) s = respond (BitVec.ofNat 64 (bvMemRead s (8 * a.toNat) 8)) s :=
  (requireFilter_of_valid hv _).trans (if_pos ((lt_ceilDiv_iff (by decide)).mpr ha))

theorem exec_bfRd_of_le (ha : s.bfM.toNat ≤ 64 * a.toNat) : exec (.bfRd a) s = raise .badAddr s :=
  (requireFilter_of_valid hv _).trans (if_neg fun hlt => ha.not_gt ((lt_ceilDiv_iff (by decide)).mp hlt))

end

/-- Settles O14: the word read holds the bits of the bit vector, and one at or beyond `bf_m` is 0 by the invariant. -/
theorem bfRdReadsAWordOfTheBitVector : Obligations.BfRdReadsAWordOfTheBitVector := by
  unfold Obligations.BfRdReadsAWordOfTheBitVector
  refine ⟨decode_bfRd, fun a s => failsWith_notConfigured_of_no_filter rfl, fun a s hv ha => exec_bfRd_of_le hv ha,
    fun a s hok hv ha => ⟨_, exec_bfRd_of_lt hv ha, fun t ht => ?_⟩⟩
  rw [bvMemRead_word_getLsbD hok _ ht, eq_comm, Bool.and_eq_right_iff_imp, decide_eq_true_eq]
  exact lt_bfM_of_bitOf hok

end Sys2Proof.Machine
end

