-- ==== Sys2Proof/Proofs/ItemCommands.lean ====
section
/-! The item commands of a block with any hash unit (R5, R121 to R123, R147, R170): each is the command over the hashes
its unit gives the item. -/

namespace Sys2Proof.Machine

variable {u : HashUnit} {item : List Byte} {s : State}

/-! ## Bloom -/

section
variable (hv : s.bfValid = true)
include hv

theorem execWith_bfAdd_of_filter :
    execWith u (.bfAdd item) s = respond 0 (bfSetBits (u.hash1 item) (u.hash2 item) s) := requireFilter_of_valid hv _

theorem execWith_bfTest_of_filter :
    execWith u (.bfTest item) s = testPair (u.hash1 item) (u.hash2 item) s := requireFilter_of_valid hv _

theorem execWith_bfUniq_of_null : execWith u (.bfUniq .null) s = respond 2 s := requireFilter_of_valid hv _

theorem execWith_bfUniq_of_invalid (hitem : validItem item = false) :
    execWith u (.bfUniq (.item item)) s = respond 2 s :=
  (requireFilter_of_valid hv _).trans (if_neg (ne_true_of_eq_false hitem))

theorem execWith_bfUniq_of_valid (hitem : validItem item = true) :
    execWith u (.bfUniq (.item item)) s = uniqPair (u.hash1 item) (u.hash2 item) s :=
  (requireFilter_of_valid hv _).trans (if_pos hitem)

end

/-! ## HyperLogLog -/

theorem execWith_hllAdd_of_no_estimator (hv : s.hllValid = false) :
    execWith u (.hllAdd item) s = raise .notConfigured s := requireEstimator_of_not hv _

theorem execWith_hllAdd_of_estimator (hv : s.hllValid = true) :
    execWith u (.hllAdd item) s = respond 0 (hllUpdate (u.hashX item) s) := requireEstimator_of_valid hv _

/-- The answer to a command that raises the register of a hash value (R143, R146). -/
theorem respond_hllUpdate (hok : StateOk s) (hv : s.hllValid = true) (x : Beat) :
    ∃ t, respond 0 (hllUpdate x s) = .next t ∧
      t = { s with reg := t.reg, responses := s.responses ++ [⟨0, 0⟩] } ∧
      (regRead t (x.toNat % 2 ^ s.hllB.toNat)).toNat =
        max (regRead s (x.toNat % 2 ^ s.hllB.toNat)).toNat (rank (x.toNat >>> s.hllB.toNat) s.hllB.toNat) ∧
      ∀ j, j ≠ x.toNat % 2 ^ s.hllB.toNat → regRead t j = regRead s j := by
  obtain ⟨-, -, ⟨hconfig, -⟩, ⟨hwf, -⟩, -⟩ := hok
  obtain ⟨hb, -⟩ := hconfig hv
  have hread := hllUpdate_read hwf hb x
  refine ⟨_, rfl, rfl, ?_, fun j hj => BitVec.eq_of_toNat_eq ?_⟩
  · rw [Nat.shiftRight_eq_div_pow]
    exact (hread _).trans (if_pos rfl)
  · exact (hread j).trans (if_neg hj)

/-- Settles O59: the header rules are those of the decoder; with its structure a command is the operation over the
hashes of its item, and without it the command fails. -/
theorem itemCommandsUseTheGivenHashFunctions : Obligations.ItemCommandsUseTheGivenHashFunctions := by
  unfold Obligations.ItemCommandsUseTheGivenHashFunctions
  refine ⟨decode_bfAdd, decode_bfTest, decode_bfUniq, decode_hllAdd, execWith_default, fun u item s => ?_⟩
  refine ⟨?noFilter, execWith_hllAdd_of_no_estimator, ?filter, ?estimator⟩
  case noFilter =>
    rintro hv i (rfl | rfl | rfl | rfl) <;> exact execWith_of_no_filter u rfl hv
  case filter =>
    rintro hok hv h1 h2 rfl rfl
    have hwf := wf_bv_of_stateOk hok
    refine ⟨rfl, ?add, ?test, execWith_bfUniq_of_null hv, execWith_bfUniq_of_invalid hv, fun hitem => ⟨?_, ?_⟩⟩
    case add =>
      rw [execWith_bfAdd_of_filter hv]
      exact respond_bfSetBits hwf 0 _ _
    case test =>
      rw [execWith_bfTest_of_filter hv]
      exact testPair_answer _ _ s
    · intro hall
      rw [execWith_bfUniq_of_valid hv hitem]
      exact uniqPair_of_present hall
    · intro hall
      rw [execWith_bfUniq_of_valid hv hitem, uniqPair_of_absent hall]
      exact respond_bfSetBits hwf 1 _ _
  case estimator =>
    rintro hok hv x rfl
    rw [execWith_hllAdd_of_estimator hv]
    exact respond_hllUpdate hok hv _

end Sys2Proof.Machine
end

