-- ==== Sys2Proof/Proofs/BloomConstruction.lean ====
section
/-! Construction of a filter: `BF.INIT` (R115) and `BF.INITNP` (R117), whose sizes are the real formulas of R112 and
R113. -/

namespace Sys2Proof.Machine

/-! ## The construction result (R77) -/

section
variable (m : BitVec 33) (k : BitVec 8)

theorem constructionResult_size : (constructionResult m k).extractLsb' 0 33 = m := by
  refine BitVec.eq_of_getLsbD_eq fun i hi => ?_
  rw [BitVec.getLsbD_extractLsb', constructionResult_getLsbD]
  simp [hi]

theorem constructionResult_gap : (constructionResult m k).extractLsb' 33 23 = 0 := by
  refine BitVec.eq_of_getLsbD_eq fun i hi => ?_
  rw [BitVec.getLsbD_extractLsb', constructionResult_getLsbD, if_neg (by omega), if_pos (by omega)]
  simp

theorem constructionResult_hashes : (constructionResult m k).extractLsb' 56 8 = k := by
  refine BitVec.eq_of_getLsbD_eq fun i hi => ?_
  rw [BitVec.getLsbD_extractLsb', constructionResult_getLsbD, if_neg (by omega), if_neg (by omega)]
  simp [hi]

end

/-- What the construction of a filter of a legal size leaves and answers. -/
theorem buildFilter_empty {m k : Nat} (hm : m ≤ 2 ^ 32) (hk : k ≤ 255) (s : State) :
    ∃ t r, buildFilter m k s = .next t ∧
      t = { s with bfValid := true, bfM := BitVec.ofNat 33 m, bfK := BitVec.ofNat 8 k, bv := t.bv,
                   responses := s.responses ++ [⟨0, r⟩] } ∧
      (∀ i, bitOf t i = false) ∧ t.bfM.toNat = m ∧ t.bfK.toNat = k ∧
      r.extractLsb' 0 33 = BitVec.ofNat 33 m ∧ r.extractLsb' 33 23 = 0 ∧ r.extractLsb' 56 8 = BitVec.ofNat 8 k :=
  ⟨_, _, rfl, rfl, bvBit_nil, (BitVec.toNat_ofNat m 33).trans (Nat.mod_eq_of_lt (by omega)),
    (BitVec.toNat_ofNat k 8).trans (Nat.mod_eq_of_lt (by omega)), constructionResult_size _ _,
    constructionResult_gap _ _, constructionResult_hashes _ _⟩

/-! ## `BF.INIT` -/

theorem exec_bfInit_of_legal {k : BitVec 16} {m : Beat}
    (h : 1 ≤ m.toNat ∧ m.toNat ≤ 2 ^ 32 ∧ 1 ≤ k.toNat ∧ k.toNat ≤ 255) (s : State) :
    exec (.bfInit k m) s = buildFilter m.toNat k.toNat s :=
  if_pos ((legalFilter_iff _ _).mpr h)

theorem exec_bfInit_of_illegal {k : BitVec 16} {m : Beat}
    (h : ¬(1 ≤ m.toNat ∧ m.toNat ≤ 2 ^ 32 ∧ 1 ≤ k.toNat ∧ k.toNat ≤ 255)) (s : State) :
    exec (.bfInit k m) s = raise .badParam s :=
  if_neg (mt (legalFilter_iff _ _).mp h)

/-- Settles O4: outside the ranges of `legalFilter_iff` the command fails, inside them it is `buildFilter`. -/
theorem bfInitConstructsAnEmptyFilter : Obligations.BfInitConstructsAnEmptyFilter := by
  unfold Obligations.BfInitConstructsAnEmptyFilter
  refine ⟨decode_bfInit, fun k m s h => exec_bfInit_of_illegal (by omega) s, fun k m s hm hm' hk hk' => ?_⟩
  rw [exec_bfInit_of_legal ⟨hm, hm', hk, hk'⟩]
  exact buildFilter_empty hm' hk' s

/-! ## The real sizes -/

/-- R112 bounds the size of every filter of `BF.INITNP`, whose `p` is at least `2^-64`. -/
theorem spec_bloomM_lt {n p : ℕ} (hp : 0 < p) (hp' : p < 2 ^ 64) :
    (Sys2Proof.Spec.bloomM n p : ℝ) < 64 * n / Real.log 2 + 1 := by
  have hlog2 : 0 < Real.log 2 := Real.log_pos one_lt_two
  have hlow : -Real.log ((p : ℝ) / 2 ^ 64) ≤ 64 * Real.log 2 := by
    have hnonneg : 0 ≤ Real.log p := Real.log_natCast_nonneg p
    rw [Real.log_div (by positivity) (by positivity), Real.log_pow, Nat.cast_ofNat]
    linarith
  have hhigh : 0 ≤ -Real.log ((p : ℝ) / 2 ^ 64) :=
    neg_nonneg.mpr (Real.log_nonpos (by positivity) ((div_le_one (by positivity)).mpr (by exact_mod_cast hp'.le)))
  have hsize : -(n : ℝ) * Real.log ((p : ℝ) / 2 ^ 64) = n * -Real.log ((p : ℝ) / 2 ^ 64) := by ring
  calc (Sys2Proof.Spec.bloomM n p : ℝ) < -(n : ℝ) * Real.log ((p : ℝ) / 2 ^ 64) / Real.log 2 ^ 2 + 1 :=
        Nat.ceil_lt_add_one (by rw [hsize]; positivity)
    _ ≤ n * (64 * Real.log 2) / Real.log 2 ^ 2 + 1 := by rw [hsize]; gcongr
    _ = 64 * n / Real.log 2 + 1 := by field_simp

/-- R117's corner case: `k <= 65`. -/
theorem spec_bloomK_le {n p : ℕ} (hn : 0 < n) (hp : 0 < p) (hp' : p < 2 ^ 64) :
    Sys2Proof.Spec.bloomK n (Sys2Proof.Spec.bloomM n p) ≤ 65 := by
  have hlog2 : 0 < Real.log 2 := Real.log_pos one_lt_two
  have hn' : (1 : ℝ) ≤ n := by exact_mod_cast hn
  have hlt : (Sys2Proof.Spec.bloomM n p : ℝ) / n * Real.log 2 + 1 / 2 < 66 :=
    calc (Sys2Proof.Spec.bloomM n p : ℝ) / n * Real.log 2 + 1 / 2
        < (64 * n / Real.log 2 + 1) / n * Real.log 2 + 1 / 2 := by gcongr; exact spec_bloomM_lt hp hp'
      _ = 64 + Real.log 2 / n + 1 / 2 := by field_simp
      _ ≤ 64 + Real.log 2 + 1 / 2 := by gcongr; exact div_le_self hlog2.le hn'
      _ < 66 := by linarith [Real.log_two_lt_d9]
  exact max_le (by decide) (Nat.lt_succ_iff.mp ((Nat.floor_lt (by positivity)).mpr hlt))

/-! ## `BF.INITNP` -/

theorem exec_bfInitNp_of_zero {n p : Beat} (h : n = 0 ∨ p = 0) (s : State) :
    exec (.bfInitNp n p) s = raise .badParam s := by
  show execBfInitNp n p s = _
  unfold execBfInitNp
  split
  case isTrue => rfl
  case isFalse hn => exact if_pos (h.resolve_left hn)

theorem bloomM_eq_spec (n : Beat) {p : Beat} (hp : p ≠ 0) :
    bloomM n.toNat p.toNat = Sys2Proof.Spec.bloomM n.toNat p.toNat :=
  bloomM_exact n.isLt (BitVec.toNat_pos_of_ne_zero hp) p.isLt

/-- The sizes the command computes are those of the real formulas. -/
theorem exec_bfInitNp_of_ne_zero {n p : Beat} (hn : n ≠ 0) (hp : p ≠ 0) (s : State) {m k : ℕ}
    (hm : m = Sys2Proof.Spec.bloomM n.toNat p.toNat) (hk : k = Sys2Proof.Spec.bloomK n.toNat m) :
    exec (.bfInitNp n p) s = if 2 ^ 32 < m ∨ 255 < k then raise .badParam s else buildFilter m k s := by
  have hn' : 0 < n.toNat := BitVec.toNat_pos_of_ne_zero hn
  have hp' : 0 < p.toNat := BitVec.toNat_pos_of_ne_zero hp
  have hM : bloomM n.toNat p.toNat = m := (bloomM_eq_spec n hp).trans hm.symm
  have hK : bloomK n.toNat m = k :=
    (bloomK_exact hn' (hM ▸ bloomM_lt n.isLt hp' p.isLt)).trans hk.symm
  subst hM hK
  exact (if_neg hn).trans (if_neg hp)

/-- Settles O5: the command computes the sizes of the real formulas, and whether both fit decides between failure and
`buildFilter`. -/
theorem bfInitNpSizesByTheRealFormulas : Obligations.BfInitNpSizesByTheRealFormulas := by
  unfold Obligations.BfInitNpSizesByTheRealFormulas
  refine ⟨decode_bfInitNp, fun n p s h => exec_bfInitNp_of_zero h s, fun n p s hn hp m k hm hk => ?_⟩
  have hexec := exec_bfInitNp_of_ne_zero hn hp s hm hk
  have hn' : 0 < n.toNat := BitVec.toNat_pos_of_ne_zero hn
  have hp' : 0 < p.toNat := BitVec.toNat_pos_of_ne_zero hp
  refine ⟨?_, ?_, fun hbig => ?_, fun hm' hk' => ?_⟩
  · rw [hm, ← bloomM_eq_spec n hp]
    exact bloomM_pos hn' n.isLt hp' p.isLt
  · rw [hk, hm]
    exact spec_bloomK_le hn' hp' p.isLt
  · exact hexec.trans (if_pos hbig)
  · rw [hexec, if_neg (by omega)]
    exact buildFilter_empty hm' hk' s

end Sys2Proof.Machine
end

