-- ==== Sys2Proof/Proofs/HllOperands.lean ====
section
/-! What the estimator makes of a hash value and of its number of registers: the split into index and remainder (R143),
the rank (R141) and the constant `alphaMM` (R142). -/

namespace Sys2Proof.Machine

/-! ## Index and remainder -/

section
variable (x : Beat) (b : ℕ)

theorem splitIndex_eq_and : splitIndex x b = x.toNat &&& (2 ^ b - 1) := (Nat.and_two_pow_sub_one_eq_mod _ _).symm

theorem splitRemainder_eq_shiftRight : splitRemainder x b = x.toNat >>> b := (Nat.shiftRight_eq_div_pow _ _).symm

theorem splitRemainder_lt {b : ℕ} (hb : b ≤ 64) : splitRemainder x b < 2 ^ (64 - b) := by
  rw [splitRemainder, Nat.div_lt_iff_lt_mul (by positivity), ← Nat.pow_add, Nat.sub_add_cancel hb]
  exact x.isLt

theorem splitRemainder_splitIndex : 2 ^ b * splitRemainder x b + splitIndex x b = x.toNat := Nat.div_add_mod _ _

end

/-- Settles O18: each clause is the lemma about the index or the remainder that states it. -/
theorem splitIsIndexAndRemainder : Obligations.SplitIsIndexAndRemainder := by
  unfold Obligations.SplitIsIndexAndRemainder
  intro x b hb
  exact ⟨splitIndex_eq_and x b, splitRemainder_eq_shiftRight x b, splitIndex_lt x b, splitRemainder_lt x hb,
    (splitRemainder_splitIndex x b).symm⟩

/-! ## The rank -/

theorem rank_zero (b : ℕ) : rank 0 b = 64 - b := Nat.min_eq_right (Nat.le_succ _)

/-- The first 1 bit of a remainder is its bit `log2 w`, and the cap does not reach it. -/
theorem rank_of_ne_zero {b w : ℕ} (hw : w ≠ 0) (hlt : w < 2 ^ (64 - b)) : rank w b = 64 - b - Nat.log2 w := by
  have hlog : Nat.log2 w < 64 - b := (Nat.log2_lt hw).mpr hlt
  simp only [rank, clz, if_neg hw, Config.hashWidth, Config.rankMax]
  omega

/-- Settles O19: for `w = 0` the rank is the cap, and otherwise the bit it counts to is bit `log2 w`. -/
theorem rankIsThePositionOfTheFirstOne : Obligations.RankIsThePositionOfTheFirstOne := by
  unfold Obligations.RankIsThePositionOfTheFirstOne
  intro b w hb hlt
  rcases eq_or_ne w 0 with rfl | hw
  · rw [rank_zero]
    exact ⟨by omega, le_rfl, fun _ => rfl, fun h => absurd rfl h⟩
  · have hlog : Nat.log2 w < 64 - b := (Nat.log2_lt hw).mpr hlt
    rw [rank_of_ne_zero hw hlt, Nat.sub_sub_self hlog.le]
    exact ⟨by omega, by omega, fun h => absurd h hw, fun _ => ⟨Nat.log2_self_le hw, Nat.lt_log2_self⟩⟩

/-! ## The constant of the estimator -/

theorem alphaMM_real {m : ℕ} (hm : 0 < m) : ((alphaMM m).num : ℝ) / (alphaMM m).den = Sys2Proof.Spec.alphaMM m := by
  have hm' : (m : ℝ) ≠ 0 := Nat.cast_ne_zero.mpr hm.ne'
  unfold alphaMM Sys2Proof.Spec.alphaMM
  split_ifs <;> push_cast
  · ring
  · ring
  · ring
  · field_simp
    ring

/-- Settles O23: the denominator is `alphaMM_den_pos` and the value `alphaMM_real`. -/
theorem alphaFractionIsTheRealConstant : Obligations.AlphaFractionIsTheRealConstant := by
  unfold Obligations.AlphaFractionIsTheRealConstant
  exact fun m hm => ⟨alphaMM_den_pos m, alphaMM_real hm⟩

end Sys2Proof.Machine
end

