-- ==== Sys2Proof/Proofs/HllCommands.lean ====
section
/-! The HyperLogLog commands over a precision, a hash value and a register number (R145, R146, R149). -/

namespace Sys2Proof.Machine

/-! ## Without an estimator -/

/-- R140. -/
theorem failsWith_notConfigured_of_no_estimator {i : Instr} {s : State} (hi : isHllData i = true)
    (hv : s.hllValid = false) : FailsWith i 3 s := by
  cases i with
  | hllAddH | hllAdd | hllEst | hllRdr => exact requireEstimator_of_not hv _
  | nop | sysRst | csrRd | bfInit | bfInitNp | bfAddH | bfTestH | bfUniqH | bfAdd | bfTest | bfUniq | bfRd => cases hi
  | hllInit => cases hi

/-! ## `HLL.INIT` -/

theorem regRead_constructEstimator (b : BitVec 5) (s : State) (j : ℕ) : regRead (constructEstimator b s) j = 0 := rfl

section
variable {a : BitVec 16} {b : ℕ} (hb : b = askedPrecision a) (s : State)
include hb

theorem exec_hllInit_of_legal (h4 : 4 ≤ b) (h16 : b ≤ 16) :
    exec (.hllInit a) s = respond (BitVec.ofNat 64 b) (constructEstimator (BitVec.ofNat 5 b) s) := by
  subst hb
  exact if_pos ⟨h4, h16⟩

theorem exec_hllInit_of_illegal (h : b < 4 ∨ 16 < b) : exec (.hllInit a) s = raise .badParam s := by
  subst hb
  exact if_neg fun ⟨h4, h16⟩ => h.elim h4.not_gt h16.not_gt

end

/-- Settles O17: the range of the precision decides between failure and `constructEstimator`. -/
theorem hllInitConstructsAnEmptyEstimator : Obligations.HllInitConstructsAnEmptyEstimator := by
  unfold Obligations.HllInitConstructsAnEmptyEstimator
  refine ⟨decode_hllInit, fun a b s hb => ⟨exec_hllInit_of_illegal hb s, fun h4 h16 => ?_⟩⟩
  have hwidth : (BitVec.ofNat 5 b).toNat = b := (BitVec.toNat_ofNat b 5).trans (Nat.mod_eq_of_lt (by omega))
  exact ⟨_, exec_hllInit_of_legal hb s h4 h16, rfl, hwidth, regRead_constructEstimator (BitVec.ofNat 5 b) s⟩

/-! ## `HLL.ADDH` and `HLL.RDR` -/

section
variable {s : State} (hv : s.hllValid = true)
include hv

theorem exec_hllAddH_of_estimator (x : Beat) : exec (.hllAddH x) s = respond 0 (hllUpdate x s) :=
  requireEstimator_of_valid hv _

theorem exec_hllRdr_of_lt {j : BitVec 16} (hj : j.toNat < 2 ^ s.hllB.toNat) :
    exec (.hllRdr j) s = respond ((regRead s j.toNat).setWidth 64) s :=
  (requireEstimator_of_valid hv _).trans (if_pos hj)

theorem exec_hllRdr_of_le {j : BitVec 16} (hj : 2 ^ s.hllB.toNat ≤ j.toNat) :
    exec (.hllRdr j) s = raise .badAddr s :=
  (requireEstimator_of_valid hv _).trans (if_neg hj.not_gt)

end

/-- Settles O20: the command answers 0 after `hllUpdate`. -/
theorem hllAddHRaisesOneRegister : Obligations.HllAddHRaisesOneRegister := by
  unfold Obligations.HllAddHRaisesOneRegister
  refine ⟨decode_hllAddH, fun x s => failsWith_notConfigured_of_no_estimator rfl, fun x s hok hv => ?_⟩
  rw [exec_hllAddH_of_estimator hv]
  exact respond_hllUpdate hok hv x

/-- Settles O22: whether the register exists decides between failure and its value. -/
theorem hllRdrReadsOneRegister : Obligations.HllRdrReadsOneRegister := by
  unfold Obligations.HllRdrReadsOneRegister
  exact ⟨decode_hllRdr, fun j s => failsWith_notConfigured_of_no_estimator rfl, fun j s hv => exec_hllRdr_of_le hv,
    fun j s hv hj => ⟨_, exec_hllRdr_of_lt hv hj, BitVec.toNat_setWidth_of_le (by decide)⟩⟩

end Sys2Proof.Machine
end

