-- ==== Sys2Proof/Proofs/HllOrder.lean ====
section
/-! The registers depend on the set of hash values added alone (R150): one command raises the register of the hash value
it adds and no other; hence a register after a sequence of commands is above a bound exactly when it was before or some
hash value added ranks above it there, which mentions neither order nor multiplicity. -/

namespace Sys2Proof.Machine

/-! ## One command -/

/-- An adding command answers 0 after raising the register of its hash value. -/
theorem exec_of_addedHash_some {i : Instr} {s : State} {x : Beat} (hv : s.hllValid = true)
    (hx : addedHash i = some x) : exec i s = respond 0 (hllUpdate x s) := by
  cases i with
  | hllAddH | hllAdd => cases hx; exact requireEstimator_of_valid hv _
  | nop | sysRst | csrRd | hllInit | hllEst | hllRdr => cases hx
  | bfInit | bfInitNp | bfAddH | bfTestH | bfUniqH | bfAdd | bfTest | bfUniq | bfRd => cases hx

/-- Only the adding commands write registers (R26). -/
theorem reg_eq_of_addedHash_none {i : Instr} {s t : State} (hd : discardsEstimator i = false)
    (hx : addedHash i = none) (h : exec i s = .next t) : t.reg = s.reg := by
  by_cases hbloom : isBloom i = true
  · obtain ⟨-, -, hreg⟩ := exec_keeps_hll hbloom h
    exact hreg
  obtain ⟨f, -, hf⟩ | ⟨r, t', ht', hr⟩ := exec_cases i s
  · cases hf.symm.trans h
    rfl
  · cases hr.symm.trans h
    have heq : t' = s := by
      cases i with
      | nop | csrRd | hllEst | hllRdr => exact ht'
      | hllAddH | hllAdd => cases hx
      | sysRst | hllInit => cases hd
      | bfInit | bfInitNp | bfAddH | bfTestH | bfUniqH | bfAdd | bfTest | bfUniq | bfRd => exact absurd rfl hbloom
    rw [send_reg, heq]

/-- Only construction and reset change the configuration of the estimator (R25). -/
theorem exec_keeps_estimator_config {i : Instr} {s t : State} (hd : discardsEstimator i = false)
    (h : exec i s = .next t) : t.hllValid = s.hllValid ∧ t.hllB = s.hllB := by
  obtain ⟨f, -, hf⟩ | ⟨r, t', ht', hr⟩ := exec_cases i s
  · cases hf.symm.trans h
    exact ⟨rfl, rfl⟩
  · cases hr.symm.trans h
    obtain ⟨-, -, -, -, -, hconfig⟩ := effect_frame ht'
    exact hconfig hd

/-- Command `i` adds a hash value that raises register `j` above `v` in an estimator of precision `b`. -/
def RaisesAbove (b : ℕ) (i : Instr) (j v : ℕ) : Prop :=
  ∃ x, addedHash i = some x ∧ j = splitIndex x b ∧ v < rank (splitRemainder x b) b

/-- An estimator whose registers can be written: the part of the invariant the update needs (R25, R26). -/
structure EstimatorReady (s : State) : Prop where
  valid : s.hllValid = true
  rankFits : 4 ≤ s.hllB.toNat
  canonical : Memory.wf s.reg

theorem estimatorReady_of_stateOk {s : State} (hok : StateOk s) (hv : s.hllValid = true) : EstimatorReady s := by
  obtain ⟨-, -, ⟨hconfig, -⟩, ⟨hwf, -⟩, -⟩ := hok
  obtain ⟨hb, -⟩ := hconfig hv
  exact ⟨hv, hb, hwf⟩

theorem lt_hllUpdate_iff {s : State} (hs : EstimatorReady s) (x : Beat) (j v : ℕ) :
    v < (regRead (hllUpdate x s) j).toNat ↔ v < (regRead s j).toNat ∨
      j = splitIndex x s.hllB.toNat ∧ v < rank (splitRemainder x s.hllB.toNat) s.hllB.toNat := by
  rw [hllUpdate_read hs.canonical hs.rankFits]
  split
  case isTrue hj => simp [hj]
  case isFalse hj => simp [hj]

theorem exec_registers {i : Instr} {s t : State} (hs : EstimatorReady s) (hd : discardsEstimator i = false)
    (h : exec i s = .next t) :
    Memory.wf t.reg ∧ ∀ j v, v < (regRead t j).toNat ↔ v < (regRead s j).toNat ∨ RaisesAbove s.hllB.toNat i j v := by
  cases hx : addedHash i with
  | none =>
    have hreg := reg_eq_of_addedHash_none hd hx h
    exact ⟨hreg ▸ hs.canonical, fun j v => by simp [regRead, hreg, RaisesAbove, hx]⟩
  | some x =>
    cases (exec_of_addedHash_some hs.valid hx).symm.trans h
    refine ⟨memWrite_wf hs.canonical _ _, fun j v => (lt_hllUpdate_iff hs x j v).trans ?_⟩
    simp [RaisesAbove, hx]

/-! ## A sequence of commands -/

theorem execAll_registers {is : List Instr} {s t : State} (hs : EstimatorReady s)
    (hd : ∀ i ∈ is, discardsEstimator i = false) (h : execAll is s = .next t) :
    EstimatorReady t ∧ t.hllB = s.hllB ∧
      ∀ j v, v < (regRead t j).toNat ↔ v < (regRead s j).toNat ∨ ∃ i ∈ is, RaisesAbove s.hllB.toNat i j v := by
  induction is generalizing s with
  | nil =>
    cases h
    exact ⟨hs, rfl, by simp⟩
  | cons i is ih =>
    obtain ⟨s', hs', hrest⟩ := execAll_cons_eq_next h
    obtain ⟨hdi, hdis⟩ := List.forall_mem_cons.mp hd
    obtain ⟨hwf', hregs⟩ := exec_registers hs hdi hs'
    obtain ⟨hv', hb'⟩ := exec_keeps_estimator_config hdi hs'
    obtain ⟨ht, hbt, hregst⟩ := ih ⟨hv'.trans hs.valid, hb' ▸ hs.rankFits, hwf'⟩ hdis hrest
    refine ⟨ht, hbt.trans hb', fun j v => ?_⟩
    rw [hregst, hregs, hb', List.exists_mem_cons_iff, or_assoc]

/-- Commands that add the same hash values raise the same registers. -/
theorem exists_raisesAbove_iff {is js : List Instr}
    (hhashes : ∀ x, (∃ i ∈ is, addedHash i = some x) ↔ ∃ i ∈ js, addedHash i = some x) (b j v : ℕ) :
    (∃ i ∈ is, RaisesAbove b i j v) ↔ ∃ i ∈ js, RaisesAbove b i j v := by
  have hsplit : ∀ l : List Instr, (∃ i ∈ l, RaisesAbove b i j v) ↔
      ∃ x, (∃ i ∈ l, addedHash i = some x) ∧ j = splitIndex x b ∧ v < rank (splitRemainder x b) b := fun l => by
    simp only [RaisesAbove]
    tauto
  simp only [hsplit, hhashes]

/-! ## The estimate -/

/-- What is answered to an estimate does not depend on the state it is answered in (R148). -/
theorem getLast?_responses_answerEstimate (e : Option ℕ) {s t s' t' : State} (hs : answerEstimate e s = .next s')
    (ht : answerEstimate e t = .next t') : s'.responses.getLast? = t'.responses.getLast? := by
  cases e with
  | none | some => cases hs; cases ht; simp

theorem exec_hllEst_of_estimator {s : State} (hv : s.hllValid = true) :
    exec .hllEst s = answerEstimate (estimate (hllM s) (regValues s)) s := requireEstimator_of_valid hv _

/-- Settles O58: both register arrays are canonical and hold the same values, so they are equal; the estimate is made of
them and of the precision, which no command of the sequences changes. -/
theorem theRegistersAreOrderIndependent : Obligations.TheRegistersAreOrderIndependent := by
  unfold Obligations.TheRegistersAreOrderIndependent
  intro s t u is js hok hv hdis hdjs hhashes ht hu
  have hs := estimatorReady_of_stateOk hok hv
  obtain ⟨hready_t, hbt, hregst⟩ := execAll_registers hs hdis ht
  obtain ⟨hready_u, hbu, hregsu⟩ := execAll_registers hs hdjs hu
  have hreg : t.reg = u.reg := by
    refine memory_ext hready_t.canonical hready_u.canonical fun j => BitVec.eq_of_toNat_eq ?_
    refine eq_of_forall_lt_iff fun v => (hregst j v).trans ?_
    rw [exists_raisesAbove_iff hhashes]
    exact (hregsu j v).symm
  refine ⟨hreg, fun t' u' ht' hu' => ?_⟩
  have hestimate : estimate (hllM u) (regValues u) = estimate (hllM t) (regValues t) := by
    simp only [regValues, regRead, hllM, hreg, hbt, hbu]
  rw [exec_hllEst_of_estimator hready_t.valid] at ht'
  rw [exec_hllEst_of_estimator hready_u.valid, hestimate] at hu'
  exact getLast?_responses_answerEstimate _ ht' hu'

end Sys2Proof.Machine
end

