-- ==== Sys2Proof/Proofs/HashUnit.lean ====
section
/-! The default hash function and the item validity predicate in the words of the spec: arithmetic on numbers reduced
modulo `2^64` (R171), and positions of bytes outside the six whitespace bytes (R173). -/

namespace Sys2Proof.Machine

/-! ## The reference hash (R171) -/

theorem toNat_rh64Byte (h : Beat) (b : Byte) :
    (rh64Byte h b).toNat = (h.toNat ^^^ b.toNat) * 0x00000100000001B3 % 2 ^ 64 := by
  rw [rh64Byte, BitVec.toNat_mul, BitVec.toNat_xor, BitVec.toNat_setWidth_of_le (by decide)]
  rfl

theorem toNat_xorShift (h : Beat) (n : ℕ) : (h ^^^ (h >>> n)).toNat = h.toNat ^^^ (h.toNat >>> n) := by
  rw [BitVec.toNat_xor, BitVec.toNat_ushiftRight]

theorem toNat_foldl_rh64Byte {absorb : ℕ → ℕ → ℕ}
    (habsorb : ∀ h b, absorb h b = (h ^^^ b) * 0x00000100000001B3 % 2 ^ 64) (item : List Byte) (h : Beat) :
    (item.foldl rh64Byte h).toNat = (item.map BitVec.toNat).foldl absorb h.toNat := by
  rw [List.foldl_map]
  exact (List.foldl_hom BitVec.toNat fun h b => by rw [habsorb, toNat_rh64Byte]).symm

theorem toNat_rh64Mix {mix : ℕ → ℕ → ℕ} (hmix : ∀ h c, mix h c = (h ^^^ (h >>> 33)) * c % 2 ^ 64) (h : Beat) :
    (rh64Mix h).toNat =
      (fun h => h ^^^ (h >>> 33)) (mix (mix h.toNat 0xFF51AFD7ED558CCD) 0xC4CEB9FE1A85EC53) := by
  have hround (h c : Beat) : ((h ^^^ (h >>> 33)) * c).toNat = mix h.toNat c.toNat := by
    rw [BitVec.toNat_mul, toNat_xorShift, hmix]
  rw [rh64Mix, toNat_xorShift, hround, hround]
  rfl

/-- Settles O15: the pass over the bytes, from the offset with the seed absorbed, and the final mix, each read as an
operation on numbers. -/
theorem rhIsTheReferenceHash : Obligations.RhIsTheReferenceHash := by
  unfold Obligations.RhIsTheReferenceHash
  intro absorb mix habsorb hmix seed item
  have hseed : (rh64Byte 0xCBF29CE484222325 seed).toNat = absorb 0xCBF29CE484222325 seed.toNat :=
    (toNat_rh64Byte _ _).trans (habsorb _ _).symm
  rw [rh64, toNat_rh64Mix hmix, toNat_foldl_rh64Byte habsorb, hseed]

/-! ## The validity of an item (R173) -/

theorem notMem_wsSet_iff (b : Byte) :
    b ∉ Config.wsSet ↔ b ≠ 0x09 ∧ b ≠ 0x0A ∧ b ≠ 0x0B ∧ b ≠ 0x0C ∧ b ≠ 0x0D ∧ b ≠ 0x20 := by
  simp [Config.wsSet]

theorem validItem_iff (item : List Byte) :
    validItem item = true ↔ 0 < item.length ∧ ∃ b ∈ item, b ∉ Config.wsSet := by
  simp [validItem, List.length_pos_iff]

/-- Settles O16: membership in the item read as having a position in it, and membership in `WS_SET` as the six bytes. -/
theorem validItemsHoldANonWhitespaceByte : Obligations.ValidItemsHoldANonWhitespaceByte := by
  unfold Obligations.ValidItemsHoldANonWhitespaceByte
  intro item
  rw [validItem_iff]
  refine and_congr_right fun _ => ⟨?_, ?_⟩
  · rintro ⟨b, hb, hws⟩
    obtain ⟨t, ht⟩ := List.mem_iff_getElem?.mp hb
    exact ⟨t, b, ht, (notMem_wsSet_iff b).mp hws⟩
  · rintro ⟨t, b, ht, hws⟩
    exact ⟨b, List.mem_of_getElem? ht, (notMem_wsSet_iff b).mpr hws⟩

end Sys2Proof.Machine
end

