-- ==== Sys2Proof/Proofs/NotConfigured.lean ====
section
/-! Which commands can fail with `NOT_CONFIGURED` (R110, R140, R183): the data commands, each without its structure, and
no other. -/

namespace Sys2Proof.Machine

/-- A status other than 0 is the code of a failure the command's own rule allows, because success is answered with 0. -/
theorem exists_failure_of_failsWith {i : Instr} {c : BitVec 8} {s : State} (hc : c ≠ 0) (h : FailsWith i c s) :
    ∃ f ∈ failures i, failureCode f = c := by
  obtain ⟨f, hf, hraise⟩ | ⟨r, t, -, hrespond⟩ := exec_cases i s
  · have hnext := Host.Outcome.next.inj (hraise.symm.trans h)
    exact ⟨f, hf, congrArg State.ecode hnext⟩
  · have hnext := Host.Outcome.next.inj (hrespond.symm.trans h)
    have hresponses : t.responses ++ [⟨0, r⟩] = s.responses ++ [⟨c, 0⟩] := congrArg State.responses hnext
    obtain ⟨-, hlast⟩ := List.append_inj' hresponses rfl
    cases hlast
    exact absurd rfl hc

theorem data_of_failsWith_notConfigured {i : Instr} {s : State} (h : FailsWith i 3 s) :
    isBloomData i = true ∨ isHllData i = true := by
  obtain ⟨f, hf, hcode⟩ := exists_failure_of_failsWith (by decide) h
  cases i with
  | bfAddH | bfTestH | bfUniqH | bfAdd | bfTest | bfUniq | bfRd => exact .inl rfl
  | hllAddH | hllAdd | hllEst | hllRdr => exact .inr rfl
  | nop | sysRst => cases hf
  | csrRd | bfInit | bfInitNp | hllInit =>
    cases List.mem_singleton.mp hf
    exact absurd hcode (by decide)

/-- Settles O51: the check of the structure comes before everything else a data command does, and the rules of the other
commands allow no failure with this status. -/
theorem dataCommandsNeedTheirStructure : Obligations.DataCommandsNeedTheirStructure := by
  unfold Obligations.DataCommandsNeedTheirStructure
  refine fun i s => ⟨failsWith_notConfigured_of_no_filter, failsWith_notConfigured_of_no_estimator, ?_⟩
  intro hbloom hhll hfails
  obtain hdata | hdata := data_of_failsWith_notConfigured hfails
  · exact Bool.false_ne_true (hbloom.symm.trans hdata)
  · exact Bool.false_ne_true (hhll.symm.trans hdata)

end Sys2Proof.Machine
end

