-- ==== Sys2Proof/Proofs/DecodeEncode.lean ====
section
/-! The decoder reads back what the encoder writes (R71 to R76, R81): the beats of a command are a header with the payload
it calls for, and its fields and payload give the command again. -/

namespace Sys2Proof

/-! ## The encoder -/

/-- A header followed by the payload beats it calls for is read as one command, whatever comes after it (R81). -/
theorem decodeBeats_command {h : Beat} {p : List Beat} (hp : p.length = payloadBeats h) (rest : List Beat) :
    decodeBeats (h :: p ++ rest) = some (decode h p, rest) := by
  rw [List.cons_append, decodeBeats, ← hp, if_pos (by simp), List.take_left, List.drop_left]

/-- The encoder writes a header and exactly the payload beats that header calls for (R73). -/
theorem encode_framed {i : Instr} (hw : i.wellFormed = true) :
    ∃ h p, encode i = h :: p ∧ p.length = payloadBeats h := by
  cases i with
  | nop => exact Laws.Framing.nop hw
  | sysRst => exact Laws.Framing.sysRst hw
  | csrRd n => exact Laws.Framing.csrRd n hw
  | bfInit k m => exact Laws.Framing.bfInit k m hw
  | bfInitNp n p => exact Laws.Framing.bfInitNp n p hw
  | bfAddH h1 h2 => exact Laws.Framing.bfAddH h1 h2 hw
  | bfTestH h1 h2 => exact Laws.Framing.bfTestH h1 h2 hw
  | bfUniqH h1 h2 => exact Laws.Framing.bfUniqH h1 h2 hw
  | bfAdd item => exact Laws.Framing.bfAdd item hw
  | bfTest item => exact Laws.Framing.bfTest item hw
  | bfUniq entry => exact Laws.Framing.bfUniq entry hw
  | bfRd a => exact Laws.Framing.bfRd a hw
  | hllInit b => exact Laws.Framing.hllInit b hw
  | hllAddH x => exact Laws.Framing.hllAddH x hw
  | hllAdd item => exact Laws.Framing.hllAdd item hw
  | hllEst => exact Laws.Framing.hllEst hw
  | hllRdr j => exact Laws.Framing.hllRdr j hw

/-- The item read back from the beats of an item command (R56, R75). -/
theorem itemOf_itemCommand (opc : BitVec 8) {item : List Byte} (hw : wellFormedItem item = true) :
    itemOf (lenOf (header opc 0 0 (BitVec.ofNat 32 item.length))).toNat (packBeats ((item.length + 7) / 8) item) =
      item := by
  rw [lenOf_header, toNat_ofNat_length hw, itemOf_packBeats]

/-- The decoder reads a well-formed command back from its own beats (R71 to R76). -/
theorem decode_encode {i : Instr} (hw : i.wellFormed = true) {h : Beat} {p : List Beat} (he : encode i = h :: p) :
    decode h p = .ok i := by
  cases i with
  | nop => cases he; rw [decode_nop _ _ (opcOf_header ..)]; simp
  | sysRst => cases he; rw [decode_sysRst _ _ (opcOf_header ..)]; simp
  | csrRd n => cases he; rw [decode_csrRd _ _ (opcOf_header ..)]; simp
  | bfInit k m => cases he; rw [decode_bfInit _ _ (opcOf_header ..)]; simp [operand]
  | bfInitNp n q => cases he; rw [decode_bfInitNp _ _ (opcOf_header ..)]; simp [operand]
  | bfAddH h1 h2 => cases he; rw [decode_bfAddH _ _ (opcOf_header ..)]; simp [operand]
  | bfTestH h1 h2 => cases he; rw [decode_bfTestH _ _ (opcOf_header ..)]; simp [operand]
  | bfUniqH h1 h2 => cases he; rw [decode_bfUniqH _ _ (opcOf_header ..)]; simp [operand]
  | bfAdd item => cases he; rw [decode_bfAdd _ _ (opcOf_header ..), itemOf_itemCommand _ hw]; simp
  | bfTest item => cases he; rw [decode_bfTest _ _ (opcOf_header ..), itemOf_itemCommand _ hw]; simp
  | bfUniq entry =>
    cases entry with
    | null => cases he; rw [decode_bfUniq _ _ (opcOf_header ..)]; simp [entryOf]
    | item bytes => cases he; rw [decode_bfUniq _ _ (opcOf_header ..), entryOf, itemOf_itemCommand _ hw]; simp
  | bfRd a => cases he; rw [decode_bfRd _ _ (opcOf_header ..)]; simp [operand]
  | hllInit b => cases he; rw [decode_hllInit _ _ (opcOf_header ..)]; simp
  | hllAddH x => cases he; rw [decode_hllAddH _ _ (opcOf_header ..)]; simp [operand]
  | hllAdd item => cases he; rw [decode_hllAdd _ _ (opcOf_header ..), itemOf_itemCommand _ hw]; simp
  | hllEst => cases he; rw [decode_hllEst _ _ (opcOf_header ..)]; simp
  | hllRdr j => cases he; rw [decode_hllRdr _ _ (opcOf_header ..)]; simp

/-- Settles O34: the beats of a command are a header with the payload it calls for, and they decode to the command. -/
theorem decodeOfEncodeIsTheCommand : Obligations.DecodeOfEncodeIsTheCommand := by
  unfold Obligations.DecodeOfEncodeIsTheCommand
  intro i rest hw
  obtain ⟨h, p, he, hp⟩ := encode_framed hw
  rw [he, decodeBeats_command hp, decode_encode hw he]

/-- Settles O35: each of the six is read by evaluating the decoder. -/
theorem writtenOutBeatsDecode : Obligations.WrittenOutBeatsDecode := by
  unfold Obligations.WrittenOutBeatsDecode
  decide

end Sys2Proof
end

