-- ==== Sys2Proof/Proofs/IllegalForms.lean ====
section
/-! The two rejections of the decoder: an opcode outside the map (R79), and a known opcode with a reserved field set or
with `NULL` and a length (R78). -/

namespace Sys2Proof

variable {h : Beat} {p : List Beat}

/-! ## Unknown opcodes (R79) -/

theorem decode_of_rowOf_eq_none (p : List Beat) (hrow : rowOf (opcOf h) = none) :
    decode h p = .error .illegalOpcode := by
  simp only [decode, hrow]

/-- The opcodes of the map fill `0x00..0x02`, `0x10..0x18` and `0x20..0x24`. -/
theorem rowOf_eq_none_of_gap {opc : BitVec 8}
    (hgap : (0x02 < opc.toNat ∧ opc.toNat < 0x10) ∨ (0x18 < opc.toNat ∧ opc.toNat < 0x20) ∨ 0x24 < opc.toNat) :
    rowOf opc = none := by
  have hrange : ∀ o ∈ opcodeMap.map OpRow.opc,
      o.toNat ≤ 0x02 ∨ (0x10 ≤ o.toNat ∧ o.toNat ≤ 0x18) ∨ (0x20 ≤ o.toNat ∧ o.toNat ≤ 0x24) := by decide
  rw [rowOf_eq_none_iff]
  intro hmem
  have := hrange opc hmem
  omega

/-- Settles O30: no row of the map has an opcode of the gaps. -/
theorem unknownOpcodesAreIllegalAndTakeNoPayload : Obligations.UnknownOpcodesAreIllegalAndTakeNoPayload := by
  unfold Obligations.UnknownOpcodesAreIllegalAndTakeNoPayload
  intro h p hgap
  have hrow := rowOf_eq_none_of_gap hgap
  exact ⟨payloadBeats_of_rowOf_eq_none hrow, decode_of_rowOf_eq_none p hrow⟩

/-! ## Reserved fields (R78) -/

/-- A legal form has no other rejection beside it. -/
theorem illegalField_iff_of_decode {c : Prop} [Decidable c] {i : Instr}
    (hd : decode h p = if c then .ok i else .error .illegalField) : decode h p = .error .illegalField ↔ ¬c := by
  rw [hd]
  split <;> simp [*]

theorem illegalField_iff_of_no_field_used (ho : opcOf h ∈ [0x00, 0x01, 0x11, 0x12, 0x13, 0x14, 0x18, 0x21, 0x23]) :
    decode h p = .error .illegalField ↔ flgOf h ≠ 0 ∨ argOf h ≠ 0 ∨ lenOf h ≠ 0 := by
  have key {i : Instr}
      (hd : decode h p = if flgOf h = 0 ∧ argOf h = 0 ∧ lenOf h = 0 then .ok i else .error .illegalField) :
      decode h p = .error .illegalField ↔ flgOf h ≠ 0 ∨ argOf h ≠ 0 ∨ lenOf h ≠ 0 := by
    rw [illegalField_iff_of_decode hd, not_and_or, not_and_or]
  simp only [List.mem_cons, List.not_mem_nil, or_false] at ho
  obtain hnop | hsysRst | hinitNp | haddH | htestH | huniqH | hrd | hhllAddH | hest := ho
  · exact key (decode_nop h p hnop)
  · exact key (decode_sysRst h p hsysRst)
  · exact key (decode_bfInitNp h p hinitNp)
  · exact key (decode_bfAddH h p haddH)
  · exact key (decode_bfTestH h p htestH)
  · exact key (decode_bfUniqH h p huniqH)
  · exact key (decode_bfRd h p hrd)
  · exact key (decode_hllAddH h p hhllAddH)
  · exact key (decode_hllEst h p hest)

theorem illegalField_iff_of_arg_used (ho : opcOf h ∈ [0x02, 0x10, 0x20, 0x24]) :
    decode h p = .error .illegalField ↔ flgOf h ≠ 0 ∨ lenOf h ≠ 0 := by
  have key {i : Instr} (hd : decode h p = if flgOf h = 0 ∧ lenOf h = 0 then .ok i else .error .illegalField) :
      decode h p = .error .illegalField ↔ flgOf h ≠ 0 ∨ lenOf h ≠ 0 := by
    rw [illegalField_iff_of_decode hd, not_and_or]
  simp only [List.mem_cons, List.not_mem_nil, or_false] at ho
  obtain hcsrRd | hbfInit | hhllInit | hrdr := ho
  · exact key (decode_csrRd h p hcsrRd)
  · exact key (decode_bfInit h p hbfInit)
  · exact key (decode_hllInit h p hhllInit)
  · exact key (decode_hllRdr h p hrdr)

theorem illegalField_iff_of_len_used (ho : opcOf h ∈ [0x15, 0x16, 0x22]) :
    decode h p = .error .illegalField ↔ flgOf h ≠ 0 ∨ argOf h ≠ 0 := by
  have key {i : Instr} (hd : decode h p = if flgOf h = 0 ∧ argOf h = 0 then .ok i else .error .illegalField) :
      decode h p = .error .illegalField ↔ flgOf h ≠ 0 ∨ argOf h ≠ 0 := by
    rw [illegalField_iff_of_decode hd, not_and_or]
  simp only [List.mem_cons, List.not_mem_nil, or_false] at ho
  obtain hadd | htest | hhllAdd := ho
  · exact key (decode_bfAdd h p hadd)
  · exact key (decode_bfTest h p htest)
  · exact key (decode_hllAdd h p hhllAdd)

/-- The mask `0xFE` clears `NULL` and keeps every other flag. -/
theorem getLsbD_and_allButNull (f : BitVec 8) (i : ℕ) : (f &&& 0xFE).getLsbD i = (f.getLsbD i && decide (0 < i)) := by
  have hmask : ∀ j < 8, (0xFE : BitVec 8).getLsbD j = decide (0 < j) := by decide
  rw [BitVec.getLsbD_and]
  by_cases hi : i < 8
  · rw [hmask i hi]
  · rw [BitVec.getLsbD_of_ge f i (not_lt.mp hi), Bool.false_and, Bool.false_and]

theorem and_allButNull_ne_zero_iff (f : BitVec 8) : f &&& 0xFE ≠ 0 ↔ ∃ i, 0 < i ∧ f.getLsbD i = true := by
  constructor
  · intro hne
    by_contra hnone
    refine hne (BitVec.eq_of_getLsbD_eq fun i _ => (getLsbD_and_allButNull f i).trans ?_)
    have hclear : (f.getLsbD i && decide (0 < i)) = false :=
      Bool.eq_false_iff.mpr fun hboth => hnone ⟨i, by simpa [and_comm] using hboth⟩
    exact hclear.trans BitVec.getLsbD_zero.symm
  · rintro ⟨i, hpos, hbit⟩ hzero
    have hand := getLsbD_and_allButNull f i
    rw [hzero, hbit, decide_eq_true hpos] at hand
    exact Bool.false_ne_true (BitVec.getLsbD_zero.symm.trans hand)

theorem illegalField_iff_of_bfUniq (ho : opcOf h = 0x17) :
    decode h p = .error .illegalField ↔
      (∃ i, 0 < i ∧ (flgOf h).getLsbD i = true) ∨ argOf h ≠ 0 ∨ (nullOf h = true ∧ lenOf h ≠ 0) := by
  rw [illegalField_iff_of_decode (decode_bfUniq h p ho), not_and_or, not_and_or, Classical.not_imp,
    ← and_allButNull_ne_zero_iff]

/-- Settles O31: by the fields a command's format leaves in use (R72). -/
theorem reservedFieldsMakeAnIllegalForm : Obligations.ReservedFieldsMakeAnIllegalForm := by
  unfold Obligations.ReservedFieldsMakeAnIllegalForm
  exact fun h p => ⟨illegalField_iff_of_no_field_used, illegalField_iff_of_arg_used, illegalField_iff_of_len_used,
    illegalField_iff_of_bfUniq⟩

end Sys2Proof
end

