-- ==== Sys2Proof/Proofs/InvariantSteps.lean ====
section
/-! The invariant `StateOk` along commands and steps, for every hash unit: the shared operations keep it
(Laws/Invariant.lean), so every effect does, so every command and every step does. -/

namespace Sys2Proof.Machine

variable {u : HashUnit} {s t : State}

/-! ## Commands -/

/-- Every effect is one of the shared operations, and each of them keeps the invariant. -/
theorem effect_ok {i : Instr} (hok : StateOk s) (h : effect u i s t) : StateOk t := by
  cases i with
  | nop | csrRd | bfTestH | bfTest | bfRd | hllEst | hllRdr => exact (h : t = s) ▸ hok
  | sysRst => exact (h : t = softReset s) ▸ softReset_ok hok
  | bfInit | bfInitNp =>
    obtain ⟨m, k, hm, hm', hk, hk', rfl⟩ := h
    exact constructFilter_ok hok hm hm' hk hk'
  | bfAddH | bfAdd =>
    obtain ⟨hv, rfl⟩ := h
    exact bfSetBits_ok hok hv _ _
  | bfUniqH =>
    obtain ⟨hv, rfl | rfl⟩ := h
    · exact hok
    · exact bfSetBits_ok hok hv _ _
  | bfUniq =>
    obtain ⟨hv, rfl | ⟨h1, h2, rfl⟩⟩ := h
    · exact hok
    · exact bfSetBits_ok hok hv h1 h2
  | hllInit =>
    obtain ⟨b, hb, hb', rfl⟩ := h
    exact constructEstimator_ok hok hb hb'
  | hllAddH | hllAdd =>
    obtain ⟨hv, rfl⟩ := h
    exact hllUpdate_ok hok hv _

theorem raise_ok {f : Failure} (hok : StateOk s) (h : raise f s = .next t) : StateOk t := by
  cases h
  exact send_ok (recordFailure_ok hok f) (failureCode_le f) fun _ => rfl

theorem respond_ok {r : BitVec 64} (hok : StateOk s) (h : respond r s = .next t) : StateOk t := by
  cases h
  exact send_ok hok (by decide) fun hne => absurd rfl hne

theorem execWith_ok {i : Instr} (hok : StateOk s) (h : execWith u i s = .next t) : StateOk t := by
  obtain ⟨f, -, hf⟩ | ⟨r, t', ht', hr⟩ := execWith_cases u i s
  · exact raise_ok hok (hf.symm.trans h)
  · exact respond_ok (effect_ok hok ht') (hr.symm.trans h)

/-! ## Steps -/

theorem setPort_ok (hok : StateOk s) (port : List HostEvent) : StateOk (setPort port s) := hok

theorem setBuffer_ok (hok : StateOk s) {buffer : Option Pending}
    (hb : ∀ p ∈ buffer, p.payload.length < payloadBeats p.header) : StateOk (setBuffer buffer s) := by
  obtain ⟨hbloom, hbv, hhll, hreg, herr, -, hresponses⟩ := hok
  exact ⟨hbloom, hbv, hhll, hreg, herr, hb, hresponses⟩

theorem hardwareReset_ok (hok : StateOk s) : StateOk (hardwareReset s) :=
  setBuffer_ok (softReset_ok hok) (by simp [State.reset])

theorem execute_ok {p : Pending} (hok : StateOk s) (h : execute (execWith u) p s = .next t) : StateOk t := by
  unfold execute at h
  split at h
  · exact execWith_ok hok h
  · exact raise_ok hok h

theorem bufferOk_of_stateOk (hok : StateOk s) : BufferOk s := by
  obtain ⟨-, -, -, -, -, hbuffer, -⟩ := hok
  exact hbuffer

/-- A buffer shorter than its header calls for has room for one more beat. -/
theorem length_receive_le (hb : BufferOk s) (b : Beat) :
    (receive b s.buffer).payload.length ≤ payloadBeats (receive b s.buffer).header := by
  cases hbuffer : s.buffer with
  | none => exact Nat.zero_le _
  | some p => simpa [receive] using hb p hbuffer

theorem acceptBeat_ok {b : Beat} (hok : StateOk s) (h : acceptBeat (execWith u) b s = .next t) : StateOk t := by
  have hle := length_receive_le (bufferOk_of_stateOk hok) b
  by_cases hfull : (receive b s.buffer).payload.length = payloadBeats (receive b s.buffer).header
  · rw [acceptBeat_complete hfull] at h
    exact execute_ok (setBuffer_ok hok (by simp)) h
  · cases (acceptBeat_incomplete hfull).symm.trans h
    exact setBuffer_ok hok (by simpa using lt_of_le_of_ne hle hfull)

theorem stepWith_ok (hok : StateOk s) (h : stepWith u s = .next t) : StateOk t := by
  unfold stepWith at h
  cases hport : s.port with
  | nil =>
    cases (advance_idle hport).symm.trans h
    exact hok
  | cons e rest =>
    rw [advance_event hport] at h
    have hok' := setPort_ok hok rest
    cases e with
    | beat b => exact acceptBeat_ok hok' h
    | reset | beatCutByReset => cases h; exact hardwareReset_ok hok'

/-- Settles O60: a step waits, resets, collects a beat or runs a command, and each keeps the invariant. -/
theorem everyStepKeepsTheInvariantForEveryHashUnit : Obligations.EveryStepKeepsTheInvariantForEveryHashUnit := by
  unfold Obligations.EveryStepKeepsTheInvariantForEveryHashUnit
  exact fun u s t => stepWith_ok

/-- Settles O54: the step of the block with the default hash unit. -/
theorem everyStepKeepsTheInvariant : Obligations.EveryStepKeepsTheInvariant := by
  unfold Obligations.EveryStepKeepsTheInvariant
  intro s t hok h
  exact stepWith_ok hok ((stepWith_default s).trans h)

/-- Settles O55: every clause of the invariant is about values fixed by the reset table or about empty lists. -/
theorem resetHasTheInvariant : Obligations.ResetHasTheInvariant := by
  unfold Obligations.ResetHasTheInvariant
  decide

end Sys2Proof.Machine
end

