-- ==== Sys2Proof/Proofs/CommandOutcomes.lean ====
section
/-! What a command answers, read off its response (R9, R77, R181, R184): a nonzero status is a failure its rule allows and
leaves all but the error summary alone, and status 0 is a success with the command's effect. -/

namespace Sys2Proof.Machine

/-! ## The response record (R77) -/

/-- Settles O36: the record is the result above the eight bits of the status. -/
theorem responseRecordLayout : Obligations.ResponseRecordLayout := by
  unfold Obligations.ResponseRecordLayout
  exact fun r => ⟨BitVec.extractLsb'_append_eq_right, BitVec.extractLsb'_append_eq_left⟩

/-! ## What a command answers, by its response -/

variable {i : Instr} {s t : State} {r : Response}

/-- A failed command: its rule allows the failure, and only the error summary and the response change (R181). -/
def Failed (i : Instr) (s t : State) (r : Response) : Prop :=
  ∃ f ∈ failures i, r = ⟨failureCode f, 0⟩ ∧ t = send (failureCode f) 0 (recordFailure f s)

/-- A successful command: its effect, then the response `OK` (R9). -/
def Succeeded (i : Instr) (s t : State) (r : Response) : Prop :=
  r.status = 0 ∧ ∃ s', effect defaultHash i s s' ∧ t = send 0 r.result s'

theorem exec_outcome (h : exec i s = .next t) :
    ∃ r, t.responses = s.responses ++ [r] ∧ (Failed i s t r ∨ Succeeded i s t r) := by
  obtain ⟨f, hf, hraise⟩ | ⟨a, s', heff, hrespond⟩ := exec_cases i s
  · cases hraise.symm.trans h
    exact ⟨_, rfl, .inl ⟨f, hf, rfl, rfl⟩⟩
  · cases hrespond.symm.trans h
    obtain ⟨-, -, hresponses, -⟩ := effect_frame heff
    exact ⟨⟨0, a⟩, by rw [send_responses, hresponses], .inr ⟨rfl, s', heff, rfl⟩⟩

theorem outcome_of_response (h : exec i s = .next t) (hr : t.responses = s.responses ++ [r]) :
    Failed i s t r ∨ Succeeded i s t r := by
  obtain ⟨r', hr', houtcome⟩ := exec_outcome h
  obtain ⟨-, hlast⟩ := List.append_inj' (hr.symm.trans hr') rfl
  cases hlast
  exact houtcome

theorem Failed.status_ne_zero (h : Failed i s t r) : r.status ≠ 0 := by
  obtain ⟨f, -, rfl, -⟩ := h
  exact failureCode_ne_zero f

/-- A nonzero status is the sign of a failure. -/
theorem failed_of_status_ne_zero (h : exec i s = .next t) (hr : t.responses = s.responses ++ [r])
    (hne : r.status ≠ 0) : Failed i s t r :=
  (outcome_of_response h hr).resolve_right fun ⟨hzero, _⟩ => hne hzero

/-- Status 0 is the sign of a success. -/
theorem succeeded_of_status_zero (h : exec i s = .next t) (hr : t.responses = s.responses ++ [r])
    (hzero : r.status = 0) : Succeeded i s t r :=
  (outcome_of_response h hr).resolve_left fun hfail => hfail.status_ne_zero hzero

theorem Succeeded.keeps_error_summary (h : Succeeded i s t r) (hi : i ≠ .sysRst) :
    t.err = s.err ∧ t.ecode = s.ecode := by
  obtain ⟨-, s', heff, rfl⟩ := h
  obtain ⟨-, -, -, herr, -⟩ := effect_frame heff
  exact herr hi

/-- Settles O44: the one response is that of the outcome, and neither outcome touches the buffer or the port. -/
theorem everyCommandSendsOneResponse : Obligations.EveryCommandSendsOneResponse := by
  unfold Obligations.EveryCommandSendsOneResponse
  intro i s t h
  obtain ⟨r, hr, ⟨f, -, rfl, rfl⟩ | ⟨hzero, s', heff, rfl⟩⟩ := exec_outcome h
  · exact ⟨_, hr, fun _ => rfl, rfl, rfl⟩
  · obtain ⟨hbuffer, hport, -⟩ := effect_frame heff
    exact ⟨r, hr, fun hne => absurd hzero hne, hbuffer, hport⟩

/-- Settles O45: a nonzero status comes from `raise` alone. -/
theorem failedCommandsChangeOnlyTheErrorSummary : Obligations.FailedCommandsChangeOnlyTheErrorSummary := by
  unfold Obligations.FailedCommandsChangeOnlyTheErrorSummary
  intro i s t r h hr hne
  obtain ⟨f, -, rfl, rfl⟩ := failed_of_status_ne_zero h hr hne
  rfl

/-- Settles O47: success keeps the error summary, failure records its own status. -/
theorem theErrorSummaryIsSticky : Obligations.TheErrorSummaryIsSticky := by
  unfold Obligations.TheErrorSummaryIsSticky
  intro i s t r h hr
  refine ⟨fun hzero hi => (succeeded_of_status_zero h hr hzero).keeps_error_summary hi, fun hne => ?_⟩
  obtain ⟨f, -, rfl, rfl⟩ := failed_of_status_ne_zero h hr hne
  exact ⟨rfl, rfl⟩

/-- The status is 0 or the code of a failure the command's rule allows (R184). -/
theorem status_mem (h : exec i s = .next t) (hr : t.responses = s.responses ++ [r]) :
    r.status ∈ 0 :: (failures i).map failureCode := by
  obtain ⟨f, hf, rfl, -⟩ | ⟨hzero, -⟩ := outcome_of_response h hr
  · exact List.mem_cons_of_mem _ (List.mem_map_of_mem hf)
  · exact hzero ▸ List.mem_cons_self

/-- Settles O46: the statuses are those of the list `failures` and 0. -/
theorem statusesByCommand : Obligations.StatusesByCommand := by
  unfold Obligations.StatusesByCommand
  intro i s t r h hr
  have hmem := status_mem h hr
  refine ⟨?_, ?_, ?_, ?_, ?_, ?_⟩
  · rintro (rfl | rfl) <;> simpa [failures] using hmem
  · rintro n rfl
    simpa [failures, failureCode] using hmem
  · rintro (⟨k, m, rfl⟩ | ⟨n, p, rfl⟩ | ⟨b, rfl⟩) <;> simpa [failures, failureCode] using hmem
  · rintro (⟨a, rfl⟩ | ⟨j, rfl⟩) <;> simpa [failures, failureCode] using hmem
  · rintro (⟨h1, h2, rfl | rfl | rfl⟩ | ⟨item, rfl | rfl | rfl⟩ | ⟨e, rfl⟩ | ⟨x, rfl⟩) <;>
      simpa [failures, failureCode] using hmem
  · rintro rfl
    simpa [failures, failureCode] using hmem

/-- Settles O48: failures change no configuration, and among the effects only construction and reset do. -/
theorem configurationsAreImmutable : Obligations.ConfigurationsAreImmutable := by
  unfold Obligations.ConfigurationsAreImmutable
  exact fun i s t h => ⟨fun hd => exec_keeps_filter_config hd h, fun hd => exec_keeps_estimator_config hd h⟩

/-- Settles O50: the effect of a reading command is none. -/
theorem queriesChangeNoState : Obligations.QueriesChangeNoState := by
  unfold Obligations.QueriesChangeNoState
  intro i s t r h hr hzero hquery
  obtain ⟨-, s', heff, ht⟩ := succeeded_of_status_zero h hr hzero
  have hs : s' = s := by
    obtain ⟨n, rfl⟩ | ⟨h1, h2, rfl⟩ | ⟨item, rfl⟩ | ⟨a, rfl⟩ | rfl | ⟨j, rfl⟩ := hquery <;> exact heff
  rw [ht, hs, ← hzero]
  rfl

end Sys2Proof.Machine
end

