-- ==== Sys2Proof/Proofs/ResetTable.lean ====
section
/-! The two resets (R34, R101, R200): `SYS.RST` and the reset input leave the reset table, where no data command can run. -/

namespace Sys2Proof.Machine

variable {i : Instr} {s t : State}

/-! ## `SYS.RST` (R101) -/

/-- At the reset table neither structure is constructed, so no data command can run. -/
theorem failsWith_notConfigured_of_atResetTable (ht : AtResetTable t)
    (hi : isBloomData i = true ∨ isHllData i = true) : FailsWith i 3 t := by
  obtain ⟨hbf, -, -, hhll, -⟩ := ht
  exact hi.elim (failsWith_notConfigured_of_no_filter · hbf) (failsWith_notConfigured_of_no_estimator · hhll)

theorem softReset_atResetTable (s : State) : AtResetTable (softReset s) := ⟨rfl, rfl, rfl, rfl, rfl, rfl, rfl⟩

theorem err_stays_set (hi : i ≠ .sysRst) (h : exec i s = .next t) (herr : s.err = true) : t.err = true := by
  obtain ⟨r, -, ⟨f, -, -, rfl⟩ | hok⟩ := exec_outcome h
  · rfl
  · obtain ⟨hkeep, -⟩ := hok.keeps_error_summary hi
    exact hkeep.trans herr

/-- Settles O2: the command answers 0 after `softReset`, and no other effect touches the error summary. -/
theorem sysRstReturnsToTheResetTable : Obligations.SysRstReturnsToTheResetTable := by
  unfold Obligations.SysRstReturnsToTheResetTable
  refine ⟨decode_sysRst, fun s => ?_, fun i s t => err_stays_set⟩
  have htable := softReset_atResetTable s
  exact ⟨send 0 0 (softReset s), rfl, htable, rfl, rfl, rfl, fun i => failsWith_notConfigured_of_atResetTable htable⟩

/-! ## The reset input (R200) -/

theorem hardwareReset_atResetTable (s : State) : AtResetTable (hardwareReset s) := ⟨rfl, rfl, rfl, rfl, rfl, rfl, rfl⟩

/-- A reset event, also one that cuts a command off, is a hardware reset (log 10). -/
theorem step_of_reset {e : HostEvent} {rest : List HostEvent} (hport : s.port = e :: rest)
    (he : e = .reset ∨ ∃ b, e = .beatCutByReset b) : step s = .next (hardwareReset (setPort rest s)) := by
  obtain rfl | ⟨b, rfl⟩ := he <;> exact step_event hport

/-- Settles O41: the step is `hardwareReset`. -/
theorem hardwareResetLeavesTheResetTable : Obligations.HardwareResetLeavesTheResetTable := by
  unfold Obligations.HardwareResetLeavesTheResetTable
  refine ⟨⟨⟨rfl, rfl, rfl, rfl, rfl, rfl, rfl⟩, rfl⟩, fun s e rest hport he => ?_⟩
  have htable := hardwareReset_atResetTable (setPort rest s)
  exact ⟨_, step_of_reset hport he, htable, rfl, rfl, rfl, fun i => failsWith_notConfigured_of_atResetTable htable⟩

end Sys2Proof.Machine
end

