-- ==== Sys2Proof/Proofs/StorageGrowth.lean ====
section
/-! Bits are never cleared and registers never decrease (R24, R27), and hence a filter has no false negatives. -/

namespace Sys2Proof.Machine

variable {i : Instr} {s t : State}

/-! ## What a command leaves of the storage -/

/-- Without a filter no command that constructs none writes bits. -/
theorem bv_eq_of_no_filter (hv : s.bfValid = false) (hd : discardsFilter i = false) (h : exec i s = .next t) :
    t.bv = s.bv := by
  cases i with
  | bfAddH | bfTestH | bfUniqH | bfAdd | bfTest | bfUniq | bfRd =>
    cases (failsWith_notConfigured_of_no_filter rfl hv).symm.trans h
    rfl
  | nop | csrRd => exact bv_eq_of_effect_eq h fun _ heff => heff
  | hllInit | hllAddH | hllAdd | hllEst | hllRdr =>
    obtain ⟨-, -, -, hbv⟩ := exec_keeps_bloom rfl h
    exact hbv
  | sysRst | bfInit | bfInitNp => cases hd

/-- Without an estimator no command that constructs none writes registers. -/
theorem reg_eq_of_no_estimator (hv : s.hllValid = false) (hd : discardsEstimator i = false) (h : exec i s = .next t) :
    t.reg = s.reg := by
  cases hx : addedHash i with
  | none => exact reg_eq_of_addedHash_none hd hx h
  | some x =>
    have hdata : isHllData i = true := by
      cases i with
      | hllAddH | hllAdd => rfl
      | nop | sysRst | csrRd | hllInit | hllEst | hllRdr => cases hx
      | bfInit | bfInitNp | bfAddH | bfTestH | bfUniqH | bfAdd | bfTest | bfUniq | bfRd => cases hx
    cases (failsWith_notConfigured_of_no_estimator hdata hv).symm.trans h
    rfl

/-- Settles O52: with a filter a command adds the bits of its pair, if it has one; without a filter it writes none. -/
theorem bitsAreNeverCleared : Obligations.BitsAreNeverCleared := by
  unfold Obligations.BitsAreNeverCleared
  intro i s t hok h hd
  cases hv : s.bfValid with
  | false =>
    have hbv := bv_eq_of_no_filter hv hd h
    exact ⟨fun j hj => by rwa [bitOf, hbv], fun _ => hbv⟩
  | true =>
    obtain ⟨-, hbits⟩ := exec_bits (wf_bv_of_stateOk hok) hv hd h
    exact ⟨fun j hj => (hbits j).mpr (.inl hj), fun hq => bv_eq_of_addedPair_none hv hd hq h⟩

/-- Settles O53: with an estimator a command raises the register of its hash value, if it has one; without an estimator
an adding command fails. -/
theorem registersNeverDecrease : Obligations.RegistersNeverDecrease := by
  unfold Obligations.RegistersNeverDecrease
  intro i s t hok h hd
  refine ⟨fun j => ?_, fun hx => reg_eq_of_addedHash_none hd hx h⟩
  cases hv : s.hllValid with
  | false => rw [regRead, regRead, reg_eq_of_no_estimator hv hd h]
  | true =>
    obtain ⟨-, hregs⟩ := exec_registers (estimatorReady_of_stateOk hok hv) hd h
    exact le_of_forall_lt fun v hv => (hregs j v).mpr (.inl hv)

/-! ## No false negatives (R24) -/

theorem execAll_keeps_filter_config {is : List Instr} (hd : ∀ i ∈ is, discardsFilter i = false)
    (h : execAll is s = .next t) : t.bfValid = s.bfValid ∧ t.bfM = s.bfM ∧ t.bfK = s.bfK := by
  induction is generalizing s with
  | nil =>
    cases h
    exact ⟨rfl, rfl, rfl⟩
  | cons i is ih =>
    obtain ⟨s', hs', hrest⟩ := execAll_cons_eq_next h
    obtain ⟨hdi, hdis⟩ := List.forall_mem_cons.mp hd
    obtain ⟨hv, hm, hk⟩ := exec_keeps_filter_config hdi hs'
    obtain ⟨hv', hm', hk'⟩ := ih hdis hrest
    exact ⟨hv'.trans hv, hm'.trans hm, hk'.trans hk⟩

/-- The pair just added tests 1. -/
theorem bfTestBits_bfSetBits (hwf : Memory.wf s.bv) (h1 h2 : Beat) : bfTestBits h1 h2 (bfSetBits h1 h2 s) = true :=
  (bfTestBits_iff h1 h2 _).mpr fun l hl => (bfSetBits_bit hwf h1 h2 _).mpr (.inr ⟨l, hl, rfl⟩)

/-- A pair that tests 1 does so in every filter of the same size that holds at least the same bits. -/
theorem bfTestBits_mono {h1 h2 : Beat} (hm : t.bfM = s.bfM) (hk : t.bfK = s.bfK)
    (hbits : ∀ j, bitOf s j = true → bitOf t j = true) (hs : bfTestBits h1 h2 s = true) :
    bfTestBits h1 h2 t = true := by
  rw [bfTestBits_iff] at hs ⊢
  rw [hm, hk]
  exact fun l hl => hbits _ (hs l hl)

/-- Commands that do not discard the filter keep an added pair present. -/
theorem bfTestBits_after_add {is : List Instr} {r : BitVec 64} {h1 h2 : Beat} {u : State} (hwf : Memory.wf s.bv)
    (hv : s.bfValid = true) (hd : ∀ i ∈ is, discardsFilter i = false)
    (hadd : respond r (bfSetBits h1 h2 s) = .next t) (h : execAll is t = .next u) :
    u.bfValid = true ∧ bfTestBits h1 h2 u = true := by
  cases hadd
  obtain ⟨hvu, hm, hk⟩ := execAll_keeps_filter_config hd h
  obtain ⟨-, hbits⟩ := execAll_bits (s := send 0 r (bfSetBits h1 h2 s)) (foldl_bvSetBit_wf hwf _) hv hd h
  refine ⟨hvu.trans hv, bfTestBits_mono (s := bfSetBits h1 h2 s) hm hk (fun j hj => (hbits j).mpr (.inl hj)) ?_⟩
  exact bfTestBits_bfSetBits hwf h1 h2

theorem testPair_of_present {h1 h2 : Beat} (hs : bfTestBits h1 h2 s = true) : testPair h1 h2 s = respond 1 s := by
  rw [testPair, hs]
  rfl

/-- Settles O56: adding sets the bits of the pair, no further command clears one, and the test reads them. -/
theorem noFalseNegatives : Obligations.NoFalseNegatives := by
  unfold Obligations.NoFalseNegatives
  intro s t u is hok hv hd h
  have hwf := wf_bv_of_stateOk hok
  constructor
  · intro h1 h2 hadd
    obtain ⟨hvu, hpresent⟩ := bfTestBits_after_add hwf hv hd ((exec_bfAddH_of_filter hv h1 h2).symm.trans hadd) h
    exact (exec_bfTestH_of_filter hvu h1 h2).trans (testPair_of_present hpresent)
  · intro item hadd
    obtain ⟨hvu, hpresent⟩ := bfTestBits_after_add hwf hv hd
      ((execWith_bfAdd_of_filter (u := defaultHash) hv).symm.trans hadd) h
    exact (execWith_bfTest_of_filter (u := defaultHash) hvu).trans (testPair_of_present hpresent)

end Sys2Proof.Machine
end

