-- ==== Sys2Proof/Proofs/BloomSizes.lean ====
section
/-! `BF.INITNP` by its operands (R112, R113, R117): whether the real size is above `M_MAX` decides between failure and
construction, and bounds on the operands decide that. -/

namespace Sys2Proof.Machine

/-- The command answers the construction of an empty filter of a legal size (R77, R115). -/
def ConstructsEmptyFilter (answer : Result) (s : State) : Prop :=
  ∃ t r, answer = .next t ∧
    t = { s with bfValid := true, bfM := t.bfM, bfK := t.bfK, bv := t.bv, responses := s.responses ++ [⟨0, r⟩] } ∧
    (∀ i, bitOf t i = false) ∧ 1 ≤ t.bfM.toNat ∧ t.bfM.toNat ≤ 2 ^ 32 ∧ 1 ≤ t.bfK.toNat ∧
    r.extractLsb' 0 33 = t.bfM ∧ r.extractLsb' 33 23 = 0 ∧ r.extractLsb' 56 8 = t.bfK

theorem buildFilter_constructs {m k : ℕ} (hm : 1 ≤ m) (hm' : m ≤ 2 ^ 32) (hk : 1 ≤ k) (hk' : k ≤ 255) (s : State) :
    ConstructsEmptyFilter (buildFilter m k s) s := by
  obtain ⟨t, r, hnext, ht, hempty, htm, htk, hsize, hgap, hhashes⟩ := buildFilter_empty hm' hk' s
  have hbfM : t.bfM = BitVec.ofNat 33 m := congrArg State.bfM ht
  have hbfK : t.bfK = BitVec.ofNat 8 k := congrArg State.bfK ht
  refine ⟨t, r, hnext, ?_, hempty, htm ▸ hm, htm ▸ hm', htk ▸ hk, hbfM ▸ hsize, hgap, hbfK ▸ hhashes⟩
  rw [hbfM, hbfK]
  exact ht

/-- The sizes of the real formulas are at least 1, and the number of hashes fits its field (R112, R113, R117). -/
theorem spec_sizes {n p : Beat} (hn : n ≠ 0) (hp : p ≠ 0) :
    1 ≤ Sys2Proof.Spec.bloomM n.toNat p.toNat ∧
      1 ≤ Sys2Proof.Spec.bloomK n.toNat (Sys2Proof.Spec.bloomM n.toNat p.toNat) ∧
      Sys2Proof.Spec.bloomK n.toNat (Sys2Proof.Spec.bloomM n.toNat p.toNat) ≤ 255 := by
  have hn' : 0 < n.toNat := BitVec.toNat_pos_of_ne_zero hn
  have hp' : 0 < p.toNat := BitVec.toNat_pos_of_ne_zero hp
  refine ⟨?_, le_max_left _ _, (spec_bloomK_le hn' hp' p.isLt).trans (by decide)⟩
  rw [← bloomM_eq_spec n hp]
  exact bloomM_pos hn' n.isLt hp' p.isLt

/-- Too large a size fails. -/
theorem exec_bfInitNp_of_large {n p : Beat} (hn : n ≠ 0) (hp : p ≠ 0) (s : State)
    (hm : 2 ^ 32 < Sys2Proof.Spec.bloomM n.toNat p.toNat) : exec (.bfInitNp n p) s = raise .badParam s :=
  (exec_bfInitNp_of_ne_zero hn hp s rfl rfl).trans (if_pos (.inl hm))

/-- A size that fits constructs an empty filter. -/
theorem exec_bfInitNp_of_fits {n p : Beat} (hn : n ≠ 0) (hp : p ≠ 0) (s : State)
    (hm : Sys2Proof.Spec.bloomM n.toNat p.toNat ≤ 2 ^ 32) : ConstructsEmptyFilter (exec (.bfInitNp n p) s) s := by
  obtain ⟨hm1, hk1, hk255⟩ := spec_sizes hn hp
  rw [exec_bfInitNp_of_ne_zero hn hp s rfl rfl, if_neg (by omega)]
  exact buildFilter_constructs hm1 hm hk1 hk255 s

/-- Settles O6: whether the size fits decides, and the number of hashes always fits. -/
theorem bfInitNpAlwaysAnswers : Obligations.BfInitNpAlwaysAnswers := by
  unfold Obligations.BfInitNpAlwaysAnswers
  refine ⟨decode_bfInitNp, fun n p s h => exec_bfInitNp_of_zero h s, fun n p s hn hp => ?_⟩
  rcases lt_or_ge (2 ^ 32) (Sys2Proof.Spec.bloomM n.toNat p.toNat) with hlarge | hfits
  · exact .inl (exec_bfInitNp_of_large hn hp s hlarge)
  · exact .inr (exec_bfInitNp_of_fits hn hp s hfits)

/-! ## Bounds on the operands -/

/-- With `p = P / 2^64 >= 2^-32` a filter has at most `32 / ln 2 < 64` bits an item. -/
theorem spec_bloomM_le_of_bounds {n p : ℕ} (hn : n ≤ 2 ^ 25) (hp : 2 ^ 32 ≤ p) :
    Sys2Proof.Spec.bloomM n p ≤ 2 ^ 32 := by
  have hlog2 : (1 : ℝ) / 2 < Real.log 2 := by linarith [Real.log_two_gt_d9]
  have hn' : (n : ℝ) ≤ 2 ^ 25 := by exact_mod_cast hn
  have hlow : -(32 * Real.log 2) ≤ Real.log ((p : ℝ) / 2 ^ 64) :=
    calc -(32 * Real.log 2) = Real.log (2 ^ 32 / 2 ^ 64) := by
          rw [Real.log_div (by positivity) (by positivity), Real.log_pow, Real.log_pow]
          push_cast
          ring
      _ ≤ Real.log ((p : ℝ) / 2 ^ 64) := Real.log_le_log (by positivity) (by gcongr; exact_mod_cast hp)
  refine Nat.ceil_le.mpr ?_
  rw [div_le_iff₀ (by positivity), neg_mul, ← mul_neg]
  calc (n : ℝ) * -Real.log ((p : ℝ) / 2 ^ 64) ≤ n * (32 * Real.log 2) := by gcongr; linarith
    _ ≤ 2 ^ 25 * (32 * Real.log 2) := by gcongr
    _ ≤ ((2 ^ 32 : ℕ) : ℝ) * Real.log 2 ^ 2 := by
      push_cast
      nlinarith

/-- With `p = P / 2^64 <= 1/2` a filter has at least `1 / ln 2 > 1` bits an item. -/
theorem lt_spec_bloomM_of_bounds {n p : ℕ} (hn : 2 ^ 33 ≤ n) (hp : 0 < p) (hp' : p ≤ 2 ^ 63) :
    2 ^ 32 < Sys2Proof.Spec.bloomM n p := by
  have hlog2 : 0 < Real.log 2 := Real.log_pos one_lt_two
  have hlog2' : Real.log 2 < 1 := by linarith [Real.log_two_lt_d9]
  have hn' : (2 : ℝ) ^ 33 ≤ n := by exact_mod_cast hn
  have hhigh : Real.log ((p : ℝ) / 2 ^ 64) ≤ -Real.log 2 :=
    calc Real.log ((p : ℝ) / 2 ^ 64) ≤ Real.log (2 ^ 63 / 2 ^ 64) :=
          Real.log_le_log (by positivity) (by gcongr; exact_mod_cast hp')
      _ = -Real.log 2 := by
          rw [← Real.log_inv]
          norm_num
  refine Nat.lt_ceil.mpr ?_
  rw [lt_div_iff₀ (by positivity), neg_mul, ← mul_neg]
  calc ((2 ^ 32 : ℕ) : ℝ) * Real.log 2 ^ 2 < 2 ^ 33 * Real.log 2 := by
        push_cast
        nlinarith
    _ ≤ n * -Real.log ((p : ℝ) / 2 ^ 64) := by gcongr; linarith

/-- Settles O7: the bounds on the operands bound the real size on the two sides of `M_MAX`. -/
theorem bfInitNpCompletesOrFailsByOperandBounds : Obligations.BfInitNpCompletesOrFailsByOperandBounds := by
  unfold Obligations.BfInitNpCompletesOrFailsByOperandBounds
  intro n p s hn hp
  constructor
  · intro hn' hp'
    exact exec_bfInitNp_of_fits hn hp s (spec_bloomM_le_of_bounds hn' hp')
  · intro hn' hp'
    exact exec_bfInitNp_of_large hn hp s (lt_spec_bloomM_of_bounds hn' (BitVec.toNat_pos_of_ne_zero hp) hp')

end Sys2Proof.Machine
end

