-- ==== Sys2Proof/Proofs/DefaultHashCommands.lean ====
section
/-! The item commands with the default hash unit (R121 to R123, R147, R172; log 6). -/

namespace Sys2Proof.Machine

variable {item : List Byte} {s : State}

/-! ## The default unit (R172) -/

section
variable (hv : s.bfValid = true)
include hv

theorem exec_bfAdd_of_filter : exec (.bfAdd item) s = respond 0 (bfSetBits (rh64 1 item) (rh64 2 item) s) :=
  execWith_bfAdd_of_filter (u := defaultHash) hv

theorem exec_bfTest_of_filter : exec (.bfTest item) s = testPair (rh64 1 item) (rh64 2 item) s :=
  execWith_bfTest_of_filter (u := defaultHash) hv

theorem exec_bfUniq_of_null : exec (.bfUniq .null) s = respond 2 s := execWith_bfUniq_of_null (u := defaultHash) hv

theorem exec_bfUniq_of_invalid (hitem : validItem item = false) : exec (.bfUniq (.item item)) s = respond 2 s :=
  execWith_bfUniq_of_invalid (u := defaultHash) hv hitem

theorem exec_bfUniq_of_valid (hitem : validItem item = true) :
    exec (.bfUniq (.item item)) s = uniqPair (rh64 1 item) (rh64 2 item) s :=
  execWith_bfUniq_of_valid (u := defaultHash) hv hitem

end

/-! ## The statements -/

/-- Settles O12: with a filter the commands are `bfSetBits` and `testPair` over the item's pair. -/
theorem bfAddAndBfTestUseTheHashPair : Obligations.BfAddAndBfTestUseTheHashPair := by
  unfold Obligations.BfAddAndBfTestUseTheHashPair
  refine ⟨decode_bfAdd, decode_bfTest, fun item s hv => ⟨?_, ?_⟩, ?_⟩
  · exact failsWith_notConfigured_of_no_filter rfl hv
  · exact failsWith_notConfigured_of_no_filter rfl hv
  · rintro item s h1 h2 hok hv rfl rfl
    rw [exec_bfAdd_of_filter hv, exec_bfTest_of_filter hv]
    exact ⟨respond_bfSetBits (wf_bv_of_stateOk hok) 0 _ _, testPair_answer _ _ s⟩

/-- Settles O13: null entries and invalid items are answered 2; a valid item is `uniqPair` over its pair. -/
theorem bfUniqIsOneStepOfTheUniquenessCheck : Obligations.BfUniqIsOneStepOfTheUniquenessCheck := by
  unfold Obligations.BfUniqIsOneStepOfTheUniquenessCheck
  refine ⟨decode_bfUniq, fun e s => failsWith_notConfigured_of_no_filter rfl,
    fun s hv => ⟨exec_bfUniq_of_null hv, fun item => exec_bfUniq_of_invalid hv⟩, ?_⟩
  rintro item s h1 h2 hok hv hitem rfl rfl
  rw [exec_bfUniq_of_valid hv hitem]
  refine ⟨uniqPair_of_present, fun habsent => ?_⟩
  rw [uniqPair_of_absent habsent]
  exact respond_bfSetBits (wf_bv_of_stateOk hok) 1 _ _

/-- Settles O21: with an estimator the command is `hllUpdate` of the item's hash. -/
theorem hllAddRaisesTheRegisterOfItsHash : Obligations.HllAddRaisesTheRegisterOfItsHash := by
  unfold Obligations.HllAddRaisesTheRegisterOfItsHash
  refine ⟨decode_hllAdd, fun item s => failsWith_notConfigured_of_no_estimator rfl, ?_⟩
  rintro item s x hok hv rfl
  rw [exec_of_addedHash_some hv rfl]
  exact respond_hllUpdate hok hv _

end Sys2Proof.Machine
end

