-- ==== Sys2Proof/Proofs/Estimate.lean ====
section
/-! `HLL.EST` (R144, R148): the exact comparisons of the model are those of the real raw estimate, and in each regime the
estimate is the real formula, truncated. -/

namespace Sys2Proof.Machine

open Sys2Proof.Spec (rawE zeroCount)

variable {s : State}

/-! ## The raw estimate of a state, as a fraction and as a real number -/

/-- The fraction `E` the command compares and truncates (R144 steps 1 and 2). -/
def rawFrac (s : State) : Frac := rawEstimate (hllM s) (regValues s)

theorem rawFrac_den_pos (s : State) : 0 < (rawFrac s).den := rawEstimate_den_pos s

theorem rawFrac_real (s : State) : ((rawFrac s).num : ℝ) / (rawFrac s).den = rawE s := by
  have halpha : ((alphaMM (hllM s)).num : ℝ) / (alphaMM (hllM s)).den = Sys2Proof.Spec.alphaMM (2 ^ s.hllB.toNat) :=
    alphaMM_real (by unfold hllM; positivity)
  rw [rawE, ← halpha]
  simp only [rawFrac, rawEstimate, Nat.cast_mul, harmonicSum_real, Nat.cast_pow, Nat.cast_ofNat]
  field_simp

theorem rawFrac_floor (s : State) : (rawFrac s).num / (rawFrac s).den = ⌊rawE s⌋₊ := by
  rw [← rawFrac_real, Nat.floor_div_eq_div]

/-! ## The thresholds of R144 -/

theorem rawE_le_iff (s : State) (c : ℝ) : rawE s ≤ c ↔ ((rawFrac s).num : ℝ) ≤ c * (rawFrac s).den := by
  rw [← rawFrac_real, div_le_iff₀ (Nat.cast_pos.mpr (rawFrac_den_pos s))]

theorem le_rawE_iff (s : State) (c : ℝ) : c ≤ rawE s ↔ c * (rawFrac s).den ≤ (rawFrac s).num := by
  rw [← rawFrac_real, le_div_iff₀ (Nat.cast_pos.mpr (rawFrac_den_pos s))]

theorem rawFrac_low_iff (s : State) :
    2 * (rawFrac s).num ≤ 5 * hllM s * (rawFrac s).den ↔ rawE s ≤ 5 / 2 * (hllM s : ℝ) := by
  rw [rawE_le_iff, ← Nat.cast_le (α := ℝ)]
  push_cast
  constructor <;> intro h <;> linarith

theorem rawFrac_high_iff (s : State) :
    2 ^ 32 * (rawFrac s).den < 30 * (rawFrac s).num ↔ 1 / 30 * 2 ^ 32 < rawE s := by
  rw [← not_le, ← not_le, rawE_le_iff, ← Nat.cast_le (α := ℝ)]
  push_cast
  refine not_congr ?_
  constructor <;> intro h <;> linarith

theorem rawFrac_undefined_iff (s : State) : 2 ^ 32 * (rawFrac s).den ≤ (rawFrac s).num ↔ 2 ^ 32 ≤ rawE s := by
  rw [le_rawE_iff, ← Nat.cast_le (α := ℝ), Nat.cast_mul, Nat.cast_pow, Nat.cast_ofNat]

/-! ## The regimes of R144 -/

/-- The estimate of a state (R144). -/
def estimateOfState (s : State) : Option ℕ := estimate (hllM s) (regValues s)

theorem zeroRegs_eq_zeroCount (s : State) : zeroRegs (regValues s) = zeroCount s := zeroRegs_card s

theorem estimate_of_low_zero (hlow : rawE s ≤ 5 / 2 * (hllM s : ℝ)) (hzero : zeroCount s = 0) :
    estimateOfState s = some ⌊rawE s⌋₊ := by
  rw [← rawFrac_floor]
  exact estimateOf_small ((rawFrac_low_iff s).mpr hlow) ((zeroRegs_eq_zeroCount s).trans hzero)

theorem estimate_of_middle (hlow : 5 / 2 * (hllM s : ℝ) < rawE s) (hhigh : rawE s ≤ 1 / 30 * 2 ^ 32) :
    estimateOfState s = some ⌊rawE s⌋₊ := by
  rw [← rawFrac_floor]
  exact estimateOf_middle (mt (rawFrac_low_iff s).mp hlow.not_ge) (mt (rawFrac_high_iff s).mp hhigh.not_gt)

theorem estimate_of_low (hlow : rawE s ≤ 5 / 2 * (hllM s : ℝ)) (hv : zeroCount s ≠ 0) :
    estimateOfState s = some ⌊(hllM s : ℝ) * Real.log ((hllM s : ℝ) / zeroCount s)⌋₊ := by
  rw [← zeroRegs_eq_zeroCount] at hv ⊢
  rw [← linearCount_exact (Nat.pos_of_ne_zero hv) (zeroRegs_le s) (hllM_lt s)]
  exact estimateOf_linear ((rawFrac_low_iff s).mpr hlow) hv

theorem estimate_of_high (hlow : 5 / 2 * (hllM s : ℝ) < rawE s) (hhigh : 1 / 30 * 2 ^ 32 < rawE s)
    (hdef : rawE s < 2 ^ 32) : estimateOfState s = some ⌊-2 ^ 32 * Real.log (1 - rawE s / 2 ^ 32)⌋₊ := by
  have hdef' := mt (rawFrac_undefined_iff s).mp hdef.not_ge
  rw [← rawFrac_real s, ← largeRange_exact (rawFrac_den_pos s) (rawEstimate_den_lt s) (not_le.mp hdef')]
  exact estimateOf_large (mt (rawFrac_low_iff s).mp hlow.not_ge) ((rawFrac_high_iff s).mpr hhigh) hdef'

theorem estimate_eq_none_iff (s : State) :
    estimateOfState s = none ↔ 5 / 2 * (hllM s : ℝ) < rawE s ∧ 1 / 30 * 2 ^ 32 < rawE s ∧ 2 ^ 32 ≤ rawE s := by
  rw [← not_le, ← rawFrac_low_iff, ← rawFrac_high_iff, ← rawFrac_undefined_iff]
  exact estimateOf_eq_none

/-! ## The command -/

section
variable (hv : s.hllValid = true)
include hv

theorem exec_hllEst_of_some {e : ℕ} (he : estimateOfState s = some e) :
    exec .hllEst s = respond (BitVec.ofNat 64 e) s :=
  (exec_hllEst_of_estimator hv).trans (congrArg (answerEstimate · s) he)

theorem exec_hllEst_of_none (he : estimateOfState s = none) : exec .hllEst s = raise .estDomain s :=
  (exec_hllEst_of_estimator hv).trans (congrArg (answerEstimate · s) he)

theorem estimate_eq_none_of_failsWith (h : FailsWith .hllEst 6 s) : estimateOfState s = none := by
  cases he : estimateOfState s with
  | none => rfl
  | some e =>
    have hnext := Host.Outcome.next.inj ((exec_hllEst_of_some hv he).symm.trans h)
    simpa using congrArg State.responses hnext

end

/-- Settles O24: in both regimes the estimate is the raw one, truncated. -/
theorem hllEstAnswersTheRawEstimate : Obligations.HllEstAnswersTheRawEstimate := by
  unfold Obligations.HllEstAnswersTheRawEstimate
  refine ⟨decode_hllEst, fun s => failsWith_notConfigured_of_no_estimator rfl, ?_⟩
  rintro s _ hv rfl (⟨hlow, hzero⟩ | ⟨hlow, hhigh⟩)
  · exact exec_hllEst_of_some hv (estimate_of_low_zero hlow hzero)
  · exact exec_hllEst_of_some hv (estimate_of_middle hlow hhigh)

/-- Settles O25: the regime of `linearCount_exact`. -/
theorem hllEstAnswersTheLinearCount : Obligations.HllEstAnswersTheLinearCount := by
  unfold Obligations.HllEstAnswersTheLinearCount
  rintro s _ _ hv rfl rfl hlow hzero
  exact exec_hllEst_of_some hv (estimate_of_low hlow hzero)

/-- Settles O26: the regime of `largeRange_exact`. -/
theorem hllEstAnswersTheLargeRangeCorrection : Obligations.HllEstAnswersTheLargeRangeCorrection := by
  unfold Obligations.HllEstAnswersTheLargeRangeCorrection
  rintro s _ hv rfl hlow hhigh hdef
  exact exec_hllEst_of_some hv (estimate_of_high hlow hhigh hdef)

/-- Settles O27: the command fails exactly where the estimate is `none`. -/
theorem hllEstFailsExactlyOutsideTheDomain : Obligations.HllEstFailsExactlyOutsideTheDomain := by
  unfold Obligations.HllEstFailsExactlyOutsideTheDomain
  rintro s _ hv rfl
  refine ⟨fun hlow hhigh hundef => ?_, fun hdef => ?_⟩
  · exact exec_hllEst_of_none hv ((estimate_eq_none_iff s).mpr ⟨hlow, hhigh, hundef⟩)
  · have hsome : estimateOfState s ≠ none := fun hnone => by
      obtain ⟨hlow, -, hundef⟩ := (estimate_eq_none_iff s).mp hnone
      exact hdef.elim hlow.not_ge hundef.not_gt
    obtain ⟨e, he⟩ := Option.ne_none_iff_exists'.mp hsome
    exact ⟨_, exec_hllEst_of_some hv he⟩

end Sys2Proof.Machine
end

