-- ==== Sys2Proof/Proofs/EstimateBounds.lean ====
section
/-! What adding does to the estimate, and how large an estimate can be (R148, R151). -/

namespace Sys2Proof.Machine

open Sys2Proof.Spec (rawE zeroCount)

variable {s : State}

/-! ## The failure is sticky under adds (R148) -/

/-- Greater register values make a smaller harmonic sum. -/
theorem harmonicSum_antitone {t : State} (hb : t.hllB = s.hllB)
    (hle : ∀ j, (regRead s j).toNat ≤ (regRead t j).toNat) : harmonicSum (regValues t) ≤ harmonicSum (regValues s) := by
  simp only [harmonicSum, regValues, hllM, hb, List.map_map]
  refine List.sum_le_sum fun j _ => ?_
  exact Nat.pow_le_pow_right (by decide) (Nat.sub_le_sub_left (hle j) 63)

/-- Raising registers raises the raw estimate. -/
theorem rawE_mono {t : State} (hb : t.hllB = s.hllB) (hle : ∀ j, (regRead s j).toNat ≤ (regRead t j).toNat) :
    rawE s ≤ rawE t := by
  have hm : hllM t = hllM s := by rw [hllM, hllM, hb]
  have hnum : (rawFrac t).num = (rawFrac s).num := by simp only [rawFrac, rawEstimate, hm]
  have hden : (rawFrac t).den ≤ (rawFrac s).den := by
    simp only [rawFrac, rawEstimate, hm]
    exact Nat.mul_le_mul_left _ (harmonicSum_antitone hb hle)
  have hpos : (0 : ℝ) < (rawFrac t).den := by exact_mod_cast rawFrac_den_pos t
  rw [← rawFrac_real s, ← rawFrac_real t, hnum]
  gcongr

/-- Raising registers keeps an undefined estimate undefined. -/
theorem estimate_eq_none_mono {t : State} (hb : t.hllB = s.hllB)
    (hle : ∀ j, (regRead s j).toNat ≤ (regRead t j).toNat) (hs : estimateOfState s = none) :
    estimateOfState t = none := by
  have hm : hllM t = hllM s := by rw [hllM, hllM, hb]
  have hE := rawE_mono hb hle
  obtain ⟨hlow, hhigh, hundef⟩ := (estimate_eq_none_iff s).mp hs
  exact (estimate_eq_none_iff t).mpr ⟨hm ▸ hlow.trans_le hE, hhigh.trans_le hE, hundef.trans hE⟩

theorem regRead_le_hllUpdate (hs : EstimatorReady s) (x : Beat) (j : ℕ) :
    (regRead s j).toNat ≤ (regRead (hllUpdate x s) j).toNat :=
  le_of_forall_lt fun v hv => (lt_hllUpdate_iff hs x j v).mpr (.inl hv)

/-- Settles O29: adding raises one register, so the estimate stays undefined. -/
theorem estDomainFailureIsStickyUnderAdds : Obligations.EstDomainFailureIsStickyUnderAdds := by
  unfold Obligations.EstDomainFailureIsStickyUnderAdds
  intro s i x t hok hv hfail hx h
  have hs := estimatorReady_of_stateOk hok hv
  cases (exec_of_addedHash_some hv hx).symm.trans h
  refine exec_hllEst_of_none hv (estimate_eq_none_mono (s := s) rfl (regRead_le_hllUpdate hs x) ?_)
  exact estimate_eq_none_of_failsWith hv hfail

/-! ## Every estimate is below `2^39` (R151) -/

theorem hllM_le_of_stateOk (hok : StateOk s) (hv : s.hllValid = true) : hllM s ≤ 2 ^ 16 := by
  obtain ⟨-, -, ⟨hconfig, -⟩, -⟩ := hok
  obtain ⟨-, hb⟩ := hconfig hv
  exact Nat.pow_le_pow_right (by decide) hb

theorem harmonicSum_le (s : State) : harmonicSum (regValues s) ≤ hllM s * 2 ^ 63 := by
  have hterm : ∀ x ∈ (regValues s).map (fun r => 2 ^ (63 - r)), x ≤ 2 ^ 63 := by
    intro x hx
    obtain ⟨r, -, rfl⟩ := List.mem_map.mp hx
    exact Nat.pow_le_pow_right (by decide) (Nat.sub_le 63 r)
  simpa [harmonicSum, regValues] using List.sum_le_card_nsmul _ _ hterm

theorem alphaMM_den_le {m : ℕ} (hm : m ≤ 2 ^ 16) : (alphaMM m).den ≤ 2 ^ 30 := by
  unfold alphaMM
  split_ifs <;> dsimp only <;> omega

theorem rawFrac_den_le (hm : hllM s ≤ 2 ^ 16) : (rawFrac s).den ≤ 2 ^ 109 :=
  calc (rawFrac s).den ≤ 2 ^ 30 * (2 ^ 16 * 2 ^ 63) :=
        Nat.mul_le_mul (alphaMM_den_le hm) ((harmonicSum_le s).trans (Nat.mul_le_mul_right _ hm))
    _ = 2 ^ 109 := by norm_num

/-- The logarithm of the large-range correction is at most that of the denominator it is taken with. -/
theorem large_range_lt (hm : hllM s ≤ 2 ^ 16) (hdef : rawE s < 2 ^ 32) :
    -2 ^ 32 * Real.log (1 - rawE s / 2 ^ 32) < 2 ^ 39 := by
  have hgap : (rawFrac s).num < 2 ^ 32 * (rawFrac s).den := not_le.mp (mt (rawFrac_undefined_iff s).mp hdef.not_ge)
  have hgap' : (1 : ℝ) ≤ ((2 ^ 32 * (rawFrac s).den - (rawFrac s).num : ℕ) : ℝ) := by
    exact_mod_cast Nat.sub_pos_of_lt hgap
  have hden : ((2 ^ 32 * (rawFrac s).den : ℕ) : ℝ) ≤ 2 ^ 141 := by
    exact_mod_cast (Nat.mul_le_mul_left (2 ^ 32) (rawFrac_den_le hm)).trans_eq (by norm_num)
  have hpos : (0 : ℝ) < ((2 ^ 32 * (rawFrac s).den : ℕ) : ℝ) := by
    exact_mod_cast Nat.mul_pos (by norm_num) (rawFrac_den_pos s)
  have hlog : -Real.log (1 - rawE s / 2 ^ 32) < 128 :=
    calc -Real.log (1 - rawE s / 2 ^ 32)
        = Real.log (((2 ^ 32 * (rawFrac s).den : ℕ) : ℝ) / ((2 ^ 32 * (rawFrac s).den - (rawFrac s).num : ℕ))) := by
          rw [← rawFrac_real, log_large_range (rawFrac_den_pos s) hgap]
      _ ≤ Real.log (2 ^ 141) := by
          refine Real.log_le_log (div_pos hpos (by linarith)) ((div_le_self hpos.le hgap').trans hden)
      _ = 141 * Real.log 2 := by rw [Real.log_pow]; norm_num
      _ < 128 := by linarith [Real.log_two_lt_d9]
  linarith

/-- Linear counting is at most `m^2`, because `ln x <= x` and `V >= 1`. -/
theorem linear_count_lt (hm : hllM s ≤ 2 ^ 16) (hv : zeroCount s ≠ 0) :
    (hllM s : ℝ) * Real.log ((hllM s : ℝ) / zeroCount s) < 2 ^ 39 := by
  have hm' : (hllM s : ℝ) ≤ 2 ^ 16 := by exact_mod_cast hm
  have hv' : (1 : ℝ) ≤ zeroCount s := by exact_mod_cast Nat.pos_of_ne_zero hv
  calc (hllM s : ℝ) * Real.log ((hllM s : ℝ) / zeroCount s) ≤ hllM s * hllM s := by
        gcongr
        exact (Real.log_le_self (by positivity)).trans (div_le_self (by positivity) hv')
    _ ≤ 2 ^ 16 * 2 ^ 16 := by gcongr
    _ < 2 ^ 39 := by norm_num

/-- An estimate that is defined is a real number below `2^39`, truncated. -/
theorem estimate_eq_floor (hm : hllM s ≤ 2 ^ 16) {e : ℕ} (he : estimateOfState s = some e) :
    ∃ x : ℝ, x < 2 ^ 39 ∧ e = ⌊x⌋₊ := by
  have hm' : (hllM s : ℝ) ≤ 2 ^ 16 := by exact_mod_cast hm
  rcases le_or_gt (rawE s) (5 / 2 * hllM s) with hlow | hlow
  · by_cases hv : zeroCount s = 0
    · exact ⟨rawE s, by linarith, Option.some.inj (he.symm.trans (estimate_of_low_zero hlow hv))⟩
    · exact ⟨_, linear_count_lt hm hv, Option.some.inj (he.symm.trans (estimate_of_low hlow hv))⟩
  · rcases le_or_gt (rawE s) (1 / 30 * 2 ^ 32) with hhigh | hhigh
    · exact ⟨rawE s, by linarith, Option.some.inj (he.symm.trans (estimate_of_middle hlow hhigh))⟩
    · rcases lt_or_ge (rawE s) (2 ^ 32) with hdef | hdef
      · exact ⟨_, large_range_lt hm hdef, Option.some.inj (he.symm.trans (estimate_of_high hlow hhigh hdef))⟩
      · cases he.symm.trans ((estimate_eq_none_iff s).mpr ⟨hlow, hhigh, hdef⟩)

/-- Settles O28: each regime truncates a real number below `2^39`. -/
theorem estimatesStayBelowTwoToTheThirtyNine : Obligations.EstimatesStayBelowTwoToTheThirtyNine := by
  unfold Obligations.EstimatesStayBelowTwoToTheThirtyNine
  intro s e hok hv he
  obtain ⟨x, hx, rfl⟩ := estimate_eq_floor (hllM_le_of_stateOk hok hv) he
  exact (Nat.floor_lt' (by norm_num)).mpr (by exact_mod_cast hx)

end Sys2Proof.Machine
end

