-- ==== Sys2Proof/Proofs/Beats.lean ====
section
/-! The decoding algorithm beat by beat (R84, R85): which beat completes a command, a whole command taken beat by beat, a
placed command, and that every step answers. -/

namespace Sys2Proof.Machine

variable {s : State} {b h : Beat} {p : List Beat} {rest : List HostEvent}

/-! ## The beat that completes a command (R84) -/

/-- The block after a command that is no legal form (R78, R79, R181). -/
def illegalNext (e : Reject) (s : State) : State :=
  { s with err := true, ecode := if e = .illegalOpcode then 1 else 2,
           responses := s.responses ++ [⟨if e = .illegalOpcode then 1 else 2, 0⟩] }

theorem raise_rejectFailure (e : Reject) (s : State) : raise (rejectFailure e) s = .next (illegalNext e s) := by
  cases e <;> rfl

theorem execute_of_ok {run : Instr → State → Result} {i : Instr} (hd : decode h p = .ok i) (s : State) :
    execute run ⟨h, p⟩ s = run i s := by
  simp only [execute, hd]

theorem execute_of_error {run : Instr → State → Result} {e : Reject} (hd : decode h p = .error e) (s : State) :
    execute run ⟨h, p⟩ s = .next (illegalNext e s) := by
  simp only [execute, hd, raise_rejectFailure]

/-- A step on a beat that completes the command `⟨h, p⟩` executes it with the beat taken and the buffer empty. -/
theorem step_of_complete (hport : s.port = .beat b :: rest) (hr : receive b s.buffer = ⟨h, p⟩)
    (hlen : p.length = payloadBeats h) : step s = execute exec ⟨h, p⟩ { s with port := rest, buffer := none } := by
  have hfull : (receive b (setPort rest s).buffer).payload.length =
      payloadBeats (receive b (setPort rest s).buffer).header := by
    rw [setPort_buffer, hr]
    exact hlen
  calc step s = acceptBeat exec b (setPort rest s) := step_event hport
    _ = execute exec (receive b (setPort rest s).buffer) (setBuffer none (setPort rest s)) := acceptBeat_complete hfull
    _ = execute exec ⟨h, p⟩ { s with port := rest, buffer := none } := by rw [setPort_buffer, hr]; rfl

/-- A step on a beat after which the command `⟨h, p⟩` is not complete collects it. -/
theorem step_of_incomplete (hport : s.port = .beat b :: rest) (hr : receive b s.buffer = ⟨h, p⟩)
    (hlen : p.length ≠ payloadBeats h) : step s = .next { s with port := rest, buffer := some ⟨h, p⟩ } := by
  have hpart : (receive b (setPort rest s).buffer).payload.length ≠
      payloadBeats (receive b (setPort rest s).buffer).header := by
    rw [setPort_buffer, hr]
    exact hlen
  calc step s = acceptBeat exec b (setPort rest s) := step_event hport
    _ = .next (setBuffer (some (receive b (setPort rest s).buffer)) (setPort rest s)) := acceptBeat_incomplete hpart
    _ = .next { s with port := rest, buffer := some ⟨h, p⟩ } := by rw [setPort_buffer, hr]; rfl

theorem receive_of_idle (hbuffer : s.buffer = none) (b : Beat) : receive b s.buffer = ⟨b, []⟩ := by
  rw [hbuffer]
  rfl

theorem receive_of_pending (hbuffer : s.buffer = some ⟨h, p⟩) (b : Beat) : receive b s.buffer = ⟨h, p ++ [b]⟩ := by
  rw [hbuffer]
  rfl

/-- Settles O37: in both cases the beat completes the command that decodes to `i`. -/
theorem stepRunsTheDecodedCommand : Obligations.StepRunsTheDecodedCommand := by
  unfold Obligations.StepRunsTheDecodedCommand
  refine fun s b rest i hport => ⟨fun hbuffer hlen hd => ?_, fun h p hbuffer hlen hd => ?_⟩
  · rw [step_of_complete hport (receive_of_idle hbuffer b) hlen.symm, execute_of_ok hd]
  · rw [step_of_complete hport (receive_of_pending hbuffer b) (by simpa using hlen), execute_of_ok hd]

/-- Settles O38: in both cases the beat completes a command that the decoder rejects. -/
theorem stepFailsAnIllegalCommand : Obligations.StepFailsAnIllegalCommand := by
  unfold Obligations.StepFailsAnIllegalCommand
  refine fun s b rest e hport => ⟨fun hbuffer hlen hd => ?_, fun h p hbuffer hlen hd => ?_⟩
  · rw [step_of_complete hport (receive_of_idle hbuffer b) hlen.symm, execute_of_error hd, illegalNext]
  · rw [step_of_complete hport (receive_of_pending hbuffer b) (by simpa using hlen), execute_of_error hd, illegalNext]

/-- Settles O39: a beat is collected while payload is missing; without a beat the block waits. -/
theorem incompleteCommandsChangeOnlyTheBuffer : Obligations.IncompleteCommandsChangeOnlyTheBuffer := by
  unfold Obligations.IncompleteCommandsChangeOnlyTheBuffer
  refine ⟨fun s b rest hport => ⟨fun hbuffer hlen => ?_, fun h p hbuffer hlen => ?_⟩, fun s => step_idle⟩
  · exact step_of_incomplete hport (receive_of_idle hbuffer b) hlen.ne
  · exact step_of_incomplete hport (receive_of_pending hbuffer b) (by simpa using hlen.ne)

/-! ## A whole command, beat by beat (R84) -/

/-- From a buffer that holds the header and the first payload beats `q`, one step for each of the missing beats `p` ends
in the execution of the command. -/
theorem run_payload {q : List Beat} (hbuffer : s.buffer = some ⟨h, q⟩) (hne : p ≠ [])
    (hlen : q.length + p.length = payloadBeats h) (hport : s.port = p.map HostEvent.beat ++ rest) :
    Host.Core.run Sys2Proof.core p.length s = execute exec ⟨h, q ++ p⟩ { s with port := rest, buffer := none } := by
  induction p generalizing q s with
  | nil => exact absurd rfl hne
  | cons b p ih =>
    have hr := receive_of_pending hbuffer b
    cases p with
    | nil => exact (run_one s).trans (step_of_complete hport hr (by simpa using hlen))
    | cons c p =>
      have hstep := step_of_incomplete hport hr (by simp at hlen ⊢; omega)
      rw [List.length_cons, run_succ hstep, ih rfl (List.cons_ne_nil _ _) (by simp at hlen ⊢; omega) rfl,
        List.append_assoc, List.singleton_append]

/-- From the idle decoder, the header and its payload take one step each and end in the execution of the command. -/
theorem run_command (hbuffer : s.buffer = none) (hlen : p.length = payloadBeats h)
    (hport : s.port = (h :: p).map HostEvent.beat ++ rest) :
    Host.Core.run Sys2Proof.core (p.length + 1) s =
      execute exec ⟨h, p⟩ { s with port := rest, buffer := none } := by
  have hr := receive_of_idle hbuffer h
  cases p with
  | nil => exact (run_one s).trans (step_of_complete hport hr hlen)
  | cons b p =>
    have hstep := step_of_incomplete hport hr (by rw [← hlen]; exact (Nat.succ_ne_zero _).symm)
    rw [run_succ hstep, run_payload rfl (List.cons_ne_nil _ _) (by simpa using hlen) rfl, List.nil_append]

/-- Settles O40: the run is `run_command`, and `execute` has the two answers of the statement. -/
theorem beatsOfOneCommandExecuteIt : Obligations.BeatsOfOneCommandExecuteIt := by
  unfold Obligations.BeatsOfOneCommandExecuteIt
  intro h p s rest hbuffer hlen hport
  have hidle : { s with port := rest, buffer := none } = { s with port := rest } := by rw [← hbuffer]
  rw [run_command hbuffer hlen hport, hidle]
  cases hd : decode h p with
  | ok i => exact execute_of_ok hd _
  | error e => exact execute_of_error hd _

/-! ## A placed command (log 3) -/

theorem length_tablePayload (nbits w : ℕ) :
    (tablePayload nbits w).length = payloadBeats (tableBeat nbits w 0) := by
  simp [tablePayload]

theorem decode_of_decodeTableWord {nbits w : ℕ} {i : Instr} (hw : decodeTableWord nbits w = some i) :
    decode (tableBeat nbits w 0) (tablePayload nbits w) = .ok i := by
  cases hd : decode (tableBeat nbits w 0) (tablePayload nbits w) with
  | ok j => simpa [decodeTableWord, hd] using hw
  | error e => simp [decodeTableWord, hd] at hw

/-- The step takes the last beat of the placed command, which completes it. -/
theorem step_withFetchWord (s : State) (nbits w : ℕ) :
    step (s.withFetchWord nbits w) =
      execute exec ⟨tableBeat nbits w 0, tablePayload nbits w⟩ { s with buffer := none } := by
  have hlen := length_tablePayload nbits w
  cases hpayload : tablePayload nbits w with
  | nil =>
    rw [hpayload] at hlen
    have hplaced : s.withFetchWord nbits w =
        setPort (.beat (tableBeat nbits w 0) :: s.port) (setBuffer none s) := by
      simp only [State.withFetchWord, placeCommand, hpayload]
    rw [hplaced]
    exact step_of_complete rfl rfl hlen
  | cons b p =>
    rw [hpayload] at hlen
    have hplaced : s.withFetchWord nbits w = setPort (.beat ((b :: p).getLast (List.cons_ne_nil b p)) :: s.port)
        (setBuffer (some ⟨tableBeat nbits w 0, (b :: p).dropLast⟩) s) := by
      simp only [State.withFetchWord, placeCommand, hpayload, List.getLast?_eq_getLast_of_ne_nil (List.cons_ne_nil b p),
        Option.getD_some]
    rw [hplaced]
    refine step_of_complete rfl ?_ hlen
    simp only [setPort_buffer, setBuffer_buffer, receive, List.dropLast_append_getLast]

/-- Settles O42: the placed command is executed, and it decodes to `i`. -/
theorem stepOfAPlacedWordRunsIt : Obligations.StepOfAPlacedWordRunsIt := by
  unfold Obligations.StepOfAPlacedWordRunsIt
  intro s nbits w i hw
  rw [step_withFetchWord, execute_of_ok (decode_of_decodeTableWord hw)]

/-! ## Every step answers (R10, R181) -/

theorem execute_next (p : Pending) (s : State) : ∃ t, execute exec p s = .next t := by
  obtain ⟨h, p⟩ := p
  cases hd : decode h p with
  | ok i => rw [execute_of_ok hd]; exact exec_next i s
  | error e => exact ⟨_, execute_of_error hd s⟩

/-- Settles O43: waiting, resetting, collecting a beat and executing a command all answer a next state. -/
theorem everyStepAnswers : Obligations.EveryStepAnswers := by
  unfold Obligations.EveryStepAnswers
  intro s
  cases hport : s.port with
  | nil => exact ⟨s, step_idle hport⟩
  | cons e rest =>
    cases e with
    | beat b =>
      by_cases hfull : (receive b s.buffer).payload.length = payloadBeats (receive b s.buffer).header
      · rw [step_of_complete hport rfl hfull]
        exact execute_next _ _
      · exact ⟨_, step_of_incomplete hport rfl hfull⟩
    | reset | beatCutByReset => exact ⟨_, step_event hport⟩

end Sys2Proof.Machine
end
